-- ==== Sys2Proof/Word.lean ====
section
/-! DEFINITION. The two widths of the block: a byte of IN, OUT and the token stream, and the POS_W-bit operand of the
command port (00_scope.md R7, R9, 30_encoding.md R101). Positions, lengths and distances are naturals (R9). -/

namespace Sys2Proof

/-- A byte (00_scope.md R9). -/
abbrev Byte := BitVec 8

/-- A command operand `A` or `B`: POS_W = 32 bits (00_scope.md R7, 30_encoding.md R101). -/
abbrev Word := BitVec 32

end Sys2Proof
end

