-- ==== Sys2Proof/Config.lean ====
section
/-! DEFINITION. What is fixed for one block: the open parameters of 00_scope.md R7, the format constants of R8, and the
free values, which have no body so that no proof can see them. -/

namespace Sys2Proof

/-- The parameters the spec leaves OPEN (00_scope.md R7, 93 U8). A state carries them, so a statement about every state
is a statement about every capacity. -/
structure Params where
  /-- IN_CAP, the capacity of IN in bytes. -/
  inCap : Nat
  /-- OUT_CAP, the capacity of the Sink in bytes. -/
  outCap : Nat
deriving DecidableEq, Repr

/-- The ranges R7 gives the capacities: `1 ≤ IN_CAP ≤ 2^32 - 1`, `1 ≤ OUT_CAP ≤ 2^32 - 1`. -/
abbrev Params.valid (p : Params) : Prop :=
  1 ≤ p.inCap ∧ p.inCap < 2 ^ 32 ∧ 1 ≤ p.outCap ∧ p.outCap < 2 ^ 32

namespace Config

/-- DESIGN CHOICE (log 4): the capacities of `State.reset`, the largest ones R7 allows. Unsafe only for a claim about
that one state. -/
def defaultParams : Params := ⟨2 ^ 32 - 1, 2 ^ 32 - 1⟩

/-! Format constants (00_scope.md R8). -/

/-- M1A_MAX_DIST. -/
@[simp] abbrev m1aMaxDist : Nat := 1024
/-- M1B_MIN_DIST. -/
@[simp] abbrev m1bMinDist : Nat := 2049
/-- M1B_MAX_DIST. -/
@[simp] abbrev m1bMaxDist : Nat := 3072
/-- M2_MAX_DIST. -/
@[simp] abbrev m2MaxDist : Nat := 2048
/-- M2_MIN_LEN. -/
@[simp] abbrev m2MinLen : Nat := 3
/-- M2_MAX_LEN. -/
@[simp] abbrev m2MaxLen : Nat := 8
/-- M3_MAX_DIST. -/
@[simp] abbrev m3MaxDist : Nat := 16384
/-- M3_MAX_INLINE. -/
@[simp] abbrev m3MaxInline : Nat := 33
/-- M4_MIN_DIST. -/
@[simp] abbrev m4MinDist : Nat := 16385
/-- M4_MAX_DIST. -/
@[simp] abbrev m4MaxDist : Nat := 49151
/-- M4_MAX_INLINE. -/
@[simp] abbrev m4MaxInline : Nat := 9
/-- FIRST_MAX_SHORT. -/
@[simp] abbrev firstMaxShort : Nat := 238
/-- LIT_MAX_INLINE. -/
@[simp] abbrev litMaxInline : Nat := 18
/-- EXT_STEP. -/
@[simp] abbrev extStep : Nat := 255

/-! Free values: nothing constrains them. The first argument says which of them it is: an epoch of unspecified contents,
or the counter `State.drawn`. -/

/-- The byte of IN at an address nothing has been written to since the contents became unspecified (93 U2, log 5). -/
opaque freeInByte : Nat → Nat → Byte

/-- The byte of OUT at an address nothing has been written to since the contents became unspecified (93 U1, U2,
logs 5 and 6). -/
opaque freeOutByte : Nat → Nat → Byte

/-- OUT_LEN after a Decoder error (93 U1, log 6). -/
opaque freeOutLen : Nat → Word

/-- What HOST_READ_OUT returns while BUSY or past OUT_LEN (93 U4, U5, log 8), and the host's read of IN past IN_CAP
(log 22). -/
opaque freeReadByte : Nat → Byte

/-- What HOST_WRITE_IN stores when its operand B is no byte (log 9). -/
opaque freeWriteByte : Nat → Byte

end Config

end Sys2Proof
end

