-- ==== Sys2Proof/Syntax.lean ====
section
/-! DEFINITION. The instructions of the block: the eleven token classes of the LZO1X stream, which the Decoder executes,
and the twelve commands of the command port (spec/opcode_table.json; 30_encoding.md R80 to R101). -/

namespace Sys2Proof

/-- The Decoder's literal state LS, `0..4` (10_state.md R31). -/
abbrev LitState := Fin 5

/-- The S field of a match token: 0 to 3 literals follow (30_encoding.md R95). -/
abbrev SField := Fin 4

/-- The Decoder's phase DPH (10_state.md R32). -/
inductive Phase where
  /-- FIRST, "ExpectFirstLiteralRun". -/
  | first
  /-- CMD, "ExpectCommand". -/
  | cmd
deriving DecidableEq, Repr

/-- One constructor per row of spec/opcode_table.json. A token carries its operands assembled: a run length `len`, a
distance `d`, a match length `n`, the S field `s`; the literal bytes after it stay in IN (log 13). A command carries the
operand words A and B it uses (30_encoding.md R101). -/
inductive Instr where
  /-- FIRSTLIT: the first literal run, `c = 17 + len` (R85, R126). -/
  | firstLit (len : Nat)
  /-- LIT: a literal run of 4 to 18 bytes (R85, R127). -/
  | lit (len : Nat)
  /-- LITX: a literal run of 19 bytes or more (R85, R128). -/
  | litx (len : Nat)
  /-- M1A: the 2-byte length-2 match (R86, R129). -/
  | m1a (d : Nat) (s : SField)
  /-- M1B: the 2-byte length-3 match after a run of 4 or more (R87, R130). -/
  | m1b (d : Nat) (s : SField)
  /-- M2: the 2-byte short match (R89, R131). -/
  | m2 (d n : Nat) (s : SField)
  /-- M3: the medium match (R90, R132). -/
  | m3 (d n : Nat) (s : SField)
  /-- M3X: the medium match with an extended length (R90, R133). -/
  | m3x (d n : Nat) (s : SField)
  /-- M4: the long-distance match (R91, R134). -/
  | m4 (d n : Nat) (s : SField)
  /-- M4X: the long-distance match with an extended length (R91, R135). -/
  | m4x (d n : Nat) (s : SField)
  /-- END, with the length and the S bits its form carries, which it ignores; the canonical `11 00 00` is
  `endMarker 3 0` (R92, R140). -/
  | endMarker (n : Nat) (s : SField)
  /-- ENC_START, A = LEVEL in bit 0 (R176). -/
  | encStart (a : Word)
  /-- ENC_LIT (R177). -/
  | encLit
  /-- ENC_MATCH, A = distance, B = length (R178). -/
  | encMatch (a b : Word)
  /-- ENC_END (R179). -/
  | encEnd
  /-- IDX_INSERT, A = position (R214). -/
  | idxInsert (a : Word)
  /-- IDX_LOOKUP, A = position (R215). -/
  | idxLookup (a : Word)
  /-- DEC_START, A = EXP_LEN (R260). -/
  | decStart (a : Word)
  /-- HOST_WRITE_IN, A = index, B = byte (R262). -/
  | hostWriteIn (a b : Word)
  /-- HOST_SET_IN_LEN, A = length (R263). -/
  | hostSetInLen (a : Word)
  /-- HOST_READ_OUT, A = index (R264). -/
  | hostReadOut (a : Word)
  /-- HOST_READ_REG, A = register id (R265, R102). -/
  | hostReadReg (a : Word)
  /-- RESET (R280). -/
  | reset
deriving DecidableEq, Repr

/-- Whether the instruction is a token of the stream (otherwise it is a command of the port). -/
def Instr.isToken : Instr → Bool
  | .firstLit _ | .lit _ | .litx _ | .m1a _ _ | .m1b _ _ | .m2 _ _ _ | .m3 _ _ _ | .m3x _ _ _ | .m4 _ _ _ | .m4x _ _ _
  | .endMarker _ _ => true
  | .encStart _ | .encLit | .encMatch _ _ | .encEnd | .idxInsert _ | .idxLookup _ | .decStart _ | .hostWriteIn _ _
  | .hostSetInLen _ | .hostReadOut _ | .hostReadReg _ | .reset => false

/-- Where a token may stand: the phase and the literal state at its command byte (30_encoding.md R82, R83 and the column
"LS at its command byte" of R88). A command may stand anywhere. -/
def Instr.fits (ph : Phase) (ls : LitState) : Instr → Bool
  | .firstLit _ => ph = .first
  | .lit _ | .litx _ => ph = .cmd ∧ ls = 0
  | .m1a _ _ => ph = .cmd ∧ ls ≠ 0 ∧ ls ≠ 4
  | .m1b _ _ => ph = .cmd ∧ ls = 4
  | .m2 _ _ _ | .m3 _ _ _ | .m3x _ _ _ | .m4 _ _ _ | .m4x _ _ _ | .endMarker _ _ => ph = .cmd
  | .encStart _ | .encLit | .encMatch _ _ | .encEnd | .idxInsert _ | .idxLookup _ | .decStart _ | .hostWriteIn _ _
  | .hostSetInLen _ | .hostReadOut _ | .hostReadReg _ | .reset => true

end Sys2Proof
end

