-- ==== Sys2Proof/WellFormed.lean ====
section
/-! DEFINITION. Which instructions have an encoding: the operand ranges of 30_encoding.md R85 and R88. -/

namespace Sys2Proof

/-- The operand ranges of every token class (R85, R86, R87, R88). A length extension has no upper bound (R93). Every
operand word of a command is admitted: R101 gives each the full POS_W bits. -/
def Instr.wf : Instr → Bool
  | .firstLit len => 1 ≤ len ∧ len ≤ Config.firstMaxShort
  | .lit len => 4 ≤ len ∧ len ≤ Config.litMaxInline
  | .litx len => Config.litMaxInline < len
  | .m1a d _ => 1 ≤ d ∧ d ≤ Config.m1aMaxDist
  | .m1b d _ => Config.m1bMinDist ≤ d ∧ d ≤ Config.m1bMaxDist
  | .m2 d n _ => 1 ≤ d ∧ d ≤ Config.m2MaxDist ∧ Config.m2MinLen ≤ n ∧ n ≤ Config.m2MaxLen
  | .m3 d n _ => 1 ≤ d ∧ d ≤ Config.m3MaxDist ∧ 3 ≤ n ∧ n ≤ Config.m3MaxInline
  | .m3x d n _ => 1 ≤ d ∧ d ≤ Config.m3MaxDist ∧ Config.m3MaxInline < n
  | .m4 d n _ => Config.m4MinDist ≤ d ∧ d ≤ Config.m4MaxDist ∧ 3 ≤ n ∧ n ≤ Config.m4MaxInline
  | .m4x d n _ => Config.m4MinDist ≤ d ∧ d ≤ Config.m4MaxDist ∧ Config.m4MaxInline < n
  | .endMarker n _ => 3 ≤ n
  | .encStart _ | .encLit | .encMatch _ _ | .encEnd | .idxInsert _ | .idxLookup _ | .decStart _ | .hostWriteIn _ _
  | .hostSetInLen _ | .hostReadOut _ | .hostReadReg _ | .reset => true

end Sys2Proof
end

