-- ==== Sys2Proof/Decode.lean ====
section
/-! DEFINITION. From bytes to tokens and from port words to commands, rejecting by name, and back: the layouts of
30_encoding.md R82 to R95 and the command codes of R101. -/

namespace Sys2Proof

/-! Bit fields and byte order (00_scope.md R10). -/

/-- `b[hi:lo]`, bits `hi` down to `lo` of `b` as a number. -/
def bitField (b : Byte) (hi lo : Nat) : Nat := b.toNat / 2 ^ lo % 2 ^ (hi - lo + 1)

/-- `LE16(b0, b1) = b0 + 256 * b1` (R10, R94). -/
def le16 (b0 b1 : Byte) : Nat := b0.toNat + 256 * b1.toNat

/-- The byte with value `v` mod 256. -/
def byteOf (v : Nat) : Byte := BitVec.ofNat 8 v

/-- The S field: bits 1:0 of a byte (R95). -/
def sField (b : Byte) : SField := Fin.ofNat 4 b.toNat

/-- Why bytes or a port word are no instruction. -/
inductive Reject where
  /-- The bytes end inside the token: one more `InRead` would fail (R93, R122). -/
  | truncated
  /-- At the first byte of a stream: a byte below 0x12 is no first-run token (R82). -/
  | notFirstRun
  /-- The op code is reserved (R101). -/
  | reservedOp (op : Byte)
deriving DecidableEq, Repr

/-! Tokens to instructions. -/

/-- `ReadExt(base)`: the extended value and the bytes after it, or nothing when the bytes end first (R93). -/
def readExt (base : Nat) : List Byte → Option (Nat × List Byte)
  | [] => none
  | b :: rest => if b = 0 then readExt (base + Config.extStep) rest else some (base + b.toNat, rest)

/-- A length that stands in the command byte when its field is nonzero and in extension bytes otherwise (R90, R91, R93). -/
def readLen (fieldVal base : Nat) (bs : List Byte) : Option (Nat × List Byte) :=
  if fieldVal = 0 then readExt base bs else some (fieldVal, bs)

/-- The literal-run tokens of a command byte below 0x10 at LS = 0 (R83, R85). -/
def decodeRun (t : Byte) (bs : List Byte) : Except Reject (Instr × List Byte) :=
  if t = 0 then
    match readExt 15 bs with
    | some (e, rest) => .ok (.litx (3 + e), rest)
    | none => .error .truncated
  else .ok (.lit (t.toNat + 3), bs)

/-- M1A and M1B: a command byte below 0x10 at LS ≠ 0 (R83, R86, R87). -/
def decodeM1 (ls : LitState) (t : Byte) (bs : List Byte) : Except Reject (Instr × List Byte) :=
  match bs with
  | [] => .error .truncated
  | b1 :: rest =>
    if ls = 4 then .ok (.m1b (2049 + bitField t 3 2 + 4 * b1.toNat) (sField t), rest)
    else .ok (.m1a (1 + bitField t 3 2 + 4 * b1.toNat) (sField t), rest)

/-- M2: a command byte of 0x40 or more (R83, R89). -/
def decodeM2 (t : Byte) (bs : List Byte) : Except Reject (Instr × List Byte) :=
  match bs with
  | [] => .error .truncated
  | b1 :: rest => .ok (.m2 (1 + bitField t 4 2 + 8 * b1.toNat) (bitField t 7 5 + 1) (sField t), rest)

/-- M3 and M3X: a command byte in 0x20..0x3F (R83, R90, R94). -/
def decodeM3 (t : Byte) (bs : List Byte) : Except Reject (Instr × List Byte) :=
  match readLen (bitField t 4 0) 31 bs with
  | some (k, d0 :: d1 :: rest) =>
    let d := le16 d0 d1 / 4 + 1
    if bitField t 4 0 = 0 then .ok (.m3x d (2 + k) (sField d0), rest) else .ok (.m3 d (2 + k) (sField d0), rest)
  | _ => .error .truncated

/-- M4, M4X and END: a command byte in 0x10..0x1F (R83, R91, R92, R94). -/
def decodeM4 (t : Byte) (bs : List Byte) : Except Reject (Instr × List Byte) :=
  match readLen (bitField t 2 0) 7 bs with
  | some (k, d0 :: d1 :: rest) =>
    let h := bitField t 3 3
    let dist := le16 d0 d1 / 4
    if h = 0 ∧ dist = 0 then .ok (.endMarker (2 + k) (sField d0), rest)
    else if bitField t 2 0 = 0 then .ok (.m4x (16384 + 16384 * h + dist) (2 + k) (sField d0), rest)
    else .ok (.m4 (16384 + 16384 * h + dist) (2 + k) (sField d0), rest)
  | _ => .error .truncated

/-- The token that begins the byte list: at DPH = FIRST only FIRSTLIT (R82), otherwise by the table of R83. The answer is
the instruction and the bytes after its head (its literal bytes come next). -/
def decodeToken (ph : Phase) (ls : LitState) : List Byte → Except Reject (Instr × List Byte)
  | [] => .error .truncated
  | t :: bs =>
    match ph with
    | .first => if 0x12 ≤ t.toNat then .ok (.firstLit (t.toNat - 17), bs) else .error .notFirstRun
    | .cmd =>
      if t.toNat < 0x10 then (if ls = 0 then decodeRun t bs else decodeM1 ls t bs)
      else if t.toNat < 0x20 then decodeM4 t bs
      else if t.toNat < 0x40 then decodeM3 t bs
      else decodeM2 t bs

/-- The command of a port word; operands a command has no use for are ignored (R101). No op code reads IN: the
host's read of it (10_state.md R39) is a turn of its own, `Turn.readIn` (log 22). -/
def decodeCommand (op : Byte) (a b : Word) : Except Reject Instr :=
  if op = 0x01 then .ok (.encStart a)
  else if op = 0x02 then .ok .encLit
  else if op = 0x03 then .ok (.encMatch a b)
  else if op = 0x04 then .ok .encEnd
  else if op = 0x05 then .ok (.idxInsert a)
  else if op = 0x06 then .ok (.idxLookup a)
  else if op = 0x08 then .ok (.decStart a)
  else if op = 0x09 then .ok (.hostWriteIn a b)
  else if op = 0x0A then .ok (.hostSetInLen a)
  else if op = 0x0B then .ok (.hostReadOut a)
  else if op = 0x0C then .ok (.hostReadReg a)
  else if op = 0x0F then .ok .reset
  else .error (.reservedOp op)

/-! Instructions to bytes and port words. -/

/-- `WriteExt(k)` for `k ≥ 1`: `⌈k/255⌉ - 1` zero bytes and a last byte in 1..255 (R93). -/
def extBytes (k : Nat) : List Byte :=
  List.replicate ((k - 1) / Config.extStep) 0 ++ [byteOf (k - Config.extStep * ((k - 1) / Config.extStep))]

/-- `D0`, `D1` of a 14-bit distance field `m` with the S field in its low bits (R90, R91, R94). -/
def distBytes (m : Nat) (s : SField) : List Byte := [byteOf (m % 64 * 4 + s.val), byteOf (m / 64)]

/-- What an instruction is encoded as: the head bytes of a token, or a port word. -/
inductive Code where
  /-- The head of a token: command byte, extension bytes, distance bytes. -/
  | token (bs : List Byte)
  /-- A port word (R101). -/
  | command (op : Byte) (a b : Word)
deriving DecidableEq, Repr

/-- The encoding of an instruction (R85 to R92, R101); of a token, the bytes up to its literal bytes. -/
def encode : Instr → Code
  | .firstLit len => .token [byteOf (17 + len)]
  | .lit len => .token [byteOf (len - 3)]
  | .litx len => .token (0x00 :: extBytes (len - 18))
  | .m1a d s => .token [byteOf ((d - 1) % 4 * 4 + s.val), byteOf ((d - 1) / 4)]
  | .m1b d s => .token [byteOf ((d - 2049) % 4 * 4 + s.val), byteOf ((d - 2049) / 4)]
  | .m2 d n s => .token [byteOf ((n - 1) * 32 + (d - 1) % 8 * 4 + s.val), byteOf ((d - 1) / 8)]
  | .m3 d n s => .token (byteOf (0x20 + (n - 2)) :: distBytes (d - 1) s)
  | .m3x d n s => .token (0x20 :: (extBytes (n - 33) ++ distBytes (d - 1) s))
  | .m4 d n s => .token (byteOf (0x10 + (d - 16384) / 16384 * 8 + (n - 2)) :: distBytes ((d - 16384) % 16384) s)
  | .m4x d n s =>
    .token (byteOf (0x10 + (d - 16384) / 16384 * 8) :: (extBytes (n - 9) ++ distBytes ((d - 16384) % 16384) s))
  | .endMarker n s =>
    .token ((if n ≤ 9 then [byteOf (0x10 + (n - 2))] else 0x10 :: extBytes (n - 9)) ++ distBytes 0 s)
  | .encStart a => .command 0x01 a 0
  | .encLit => .command 0x02 0 0
  | .encMatch a b => .command 0x03 a b
  | .encEnd => .command 0x04 0 0
  | .idxInsert a => .command 0x05 a 0
  | .idxLookup a => .command 0x06 a 0
  | .decStart a => .command 0x08 a 0
  | .hostWriteIn a b => .command 0x09 a b
  | .hostSetInLen a => .command 0x0A a 0
  | .hostReadOut a => .command 0x0B a 0
  | .hostReadReg a => .command 0x0C a 0
  | .reset => .command 0x0F 0 0

/-- The instruction a code stands for at phase `ph` and literal state `ls`; a token must use all of its bytes. -/
def decodeCode (ph : Phase) (ls : LitState) : Code → Except Reject Instr
  | .token bs =>
    match decodeToken ph ls bs with
    | .ok (i, []) => .ok i
    | .ok (_, _ :: _) => .error .truncated
    | .error r => .error r
  | .command op a b => decodeCommand op a b

/-! The opcode table's words (log 16). A table word is one byte and names neither the space it belongs to (port or token
stream) nor the literal state: the choices below are the model's own. -/

/-- A table word laid out as bytes, with zero bytes after it. -/
def tableBytes (nbits w : Nat) : List Byte :=
  (List.range 20).map fun k => byteOf (w % 2 ^ nbits / 256 ^ k)

/-- DESIGN CHOICE (log 16): the phase and literal state in which a table byte is read as a token. 0x12 is the table's
FIRSTLIT; a zero byte followed by zero bytes is no token at LS = 0, so it is read at LS = 1. -/
def tableContext (t : Byte) : Phase × LitState :=
  if t = 0x12 then (.first, 0) else if t = 0x00 then (.cmd, 1) else (.cmd, 0)

/-- DESIGN CHOICE (log 16): the operand words A and B of a table word that is a command (zero when nbits is 8). -/
def tableOperands (nbits w : Nat) : Word × Word :=
  (BitVec.ofNat 32 (w % 2 ^ nbits / 2 ^ 8), BitVec.ofNat 32 (w % 2 ^ nbits / 2 ^ 40))

/-- The instruction the decoder reads from a table word: the command with that op code, and where no command has it the
token that begins with that byte. -/
def decodeTableWord (nbits w : Nat) : Option Instr :=
  let t := byteOf (w % 2 ^ nbits)
  match decodeCommand t (tableOperands nbits w).1 (tableOperands nbits w).2 with
  | .ok i => some i
  | .error _ =>
    match decodeToken (tableContext t).1 (tableContext t).2 (tableBytes nbits w) with
    | .ok (i, _) => some i
    | .error _ => none

end Sys2Proof
end

