-- ==== Sys2Proof/Machine/State.lean ====
section
/-! DEFINITION. The state of the block: the tuple of 10_state.md R20 as plain data, the open parameters, and the model's
own fields (the command port, the answers given, the counter of free values); the state after reset; why a step can stop. -/

namespace Sys2Proof.Machine

/-- MODE: which unit owns the call (10_state.md R23). The value 3 never occurs and has no constructor. -/
inductive Mode where
  | none | encode | decode
deriving DecidableEq, Repr

/-- STATUS (10_state.md R24). -/
inductive Status where
  | idle | busy | done | error
deriving DecidableEq, Repr

/-- ERRCODE (10_state.md R25, 60_exceptions.md R251). The code 7 never occurs and has no constructor. -/
inductive ErrCode where
  /-- 0: no error. -/
  | none
  /-- 1: a Decoder read with IP ≥ IN_LEN. -/
  | endOfInput
  /-- 2: a match distance beyond OUT_LEN. -/
  | corruptStream
  /-- 3: END with EXP_LEN ≠ 0 and OUT_LEN ≠ EXP_LEN. -/
  | sizeMismatch
  /-- 4: an append with OUT_LEN = OUT_CAP. -/
  | outputOverrun
  /-- 5: an Encoder command that breaks the parse contract. -/
  | illegalParse
  /-- 6: a command not accepted while BUSY. -/
  | illegalCommand
deriving DecidableEq, Repr

/-- LEVEL (10_state.md R27). -/
inductive Level where
  | fast | best
deriving DecidableEq, Repr

/-- A byte memory: (address, byte) pairs, addresses strictly rising. An unlisted address has no value of its own; it
reads as a free value (93 U1, U2, log 5), so no entry can equal what an unlisted address reads as. -/
abbrev Memory := List Host.Cell

/-- The bucket arena: (bucket, chain) pairs, buckets strictly rising, chains not empty. A chain is the bucket's slots
from depth 0 on, most recent first; every slot past its end, and every slot of an unlisted bucket, is EMPTY (10_state.md
R38, log 15). -/
abbrev Arena := List (Nat × List Nat)

/-- One entry of the port: a command the outside presents, a byte of IN it reads, or a turn it leaves to the Decoder
(log 1). -/
inductive Turn where
  /-- A port word `(op, A, B)` (30_encoding.md R101). -/
  | command (op : Byte) (a b : Word)
  /-- The host reads `IN[a]` (10_state.md R39, register IN; no op code of R101 does it, log 22). -/
  | readIn (a : Word)
  /-- Nothing is presented at this step. -/
  | decoder
deriving DecidableEq, Repr

/-- What a command or the host's read of IN returns to the outside (30_encoding.md R101, column "result", 10_state.md R39;
log 2). -/
inductive Answer where
  /-- IDX_LOOKUP: a list of positions (R215). -/
  | positions (ps : List Nat)
  /-- HOST_READ_OUT, or the host's read of IN: a byte (R264, 10_state.md R39). -/
  | byte (v : Byte)
  /-- HOST_READ_REG: a value (R265). -/
  | value (v : Word)
deriving DecidableEq, Repr

/-- The state of the block. Positions, lengths and counts are naturals (00_scope.md R9, log 11). -/
structure State where
  /-- IN_CAP and OUT_CAP; no rule writes them (log 4). -/
  cfg : Params
  /-- IN (R21). -/
  inMem : Memory
  /-- Which unspecified contents IN holds where nothing is listed (model's own, log 10). -/
  inEpoch : Nat
  /-- IN_LEN (R21). -/
  inLen : Nat
  /-- MODE (R23). -/
  mode : Mode
  /-- STATUS (R24). -/
  status : Status
  /-- ERRCODE (R25). -/
  errcode : ErrCode
  /-- ERRPOS (R26). -/
  errpos : Nat
  /-- LEVEL (R27). -/
  level : Level
  /-- EXP_LEN (R28). -/
  expLen : Nat
  /-- IP (R29). -/
  ip : Nat
  /-- TOKSTART (R30). -/
  tokstart : Nat
  /-- LS (R31). -/
  ls : LitState
  /-- DPH (R32). -/
  dph : Phase
  /-- POS (R33). -/
  pos : Nat
  /-- LIT_CNT (R34). -/
  litCnt : Nat
  /-- STARTED (R35). -/
  started : Bool
  /-- HOLD0 (R36). -/
  hold0 : Byte
  /-- HOLD1 (R36). -/
  hold1 : Byte
  /-- HOLD_V (R36). -/
  holdV : Bool
  /-- OUT (R37). -/
  outMem : Memory
  /-- Which unspecified contents OUT holds where nothing is listed (model's own, log 10). -/
  outEpoch : Nat
  /-- OUT_LEN (R37). -/
  outLen : Nat
  /-- BUCKET (R38). -/
  bucket : Arena
  /-- The commands, reads of IN and Decoder turns still to come (model's own, log 1). -/
  port : List Turn
  /-- The answers given so far, newest first (model's own, log 2). -/
  answers : List Answer
  /-- How many free values have been drawn (model's own, log 10). -/
  drawn : Nat
deriving DecidableEq, Repr

/-- The block right after power-on, for any capacities: every register at its reset value (70_reset_and_hazards.md R280,
10_state.md R39), nothing listed in IN and OUT (their contents are unspecified), nothing at the port. -/
def State.powerOn (cfg : Params) : State where
  cfg := cfg
  inMem := []
  inEpoch := 0
  inLen := 0
  mode := .none
  status := .idle
  errcode := .none
  errpos := 0
  level := .fast
  expLen := 0
  ip := 0
  tokstart := 0
  ls := 0
  dph := .first
  pos := 0
  litCnt := 0
  started := false
  hold0 := 0
  hold1 := 0
  holdV := false
  outMem := []
  outEpoch := 0
  outLen := 0
  bucket := []
  port := []
  answers := []
  drawn := 1

/-- The machine right after reset (R280), with the capacities of log 4. -/
def State.reset : State := State.powerOn Config.defaultParams

/-- The block has no fault: an error ends the call and stands in STATUS, ERRCODE and ERRPOS, so it is a next state
(60_exceptions.md R250, R252, log 21). Nobody raises a fault. -/
inductive Fault
deriving DecidableEq, Repr

/-- Why a step has no meaning. -/
inductive Refusal where
  /-- An instruction whose meaning is not written yet, by its mnemonic; raised only by such an arm of `exec` (there is
  none). Safe: nothing is provable of the step. -/
  | notModelled (mnemonic : String)
deriving DecidableEq, Repr

/-- The outcome of one step of the block. -/
abbrev Outcome := Host.Outcome State Fault Refusal

end Sys2Proof.Machine
end

