-- ==== Sys2Proof/Machine/Flags.lean ====
section
/-! DEFINITION. The block has no condition codes (10_state.md R40). What steers it is STATUS and MODE (which commands are
accepted), LS and DPH in the Decoder, STARTED and HOLD_V in the Encoder: the tests on them, and the codes a host reads. -/

namespace Sys2Proof.Machine

/-- The Decoder steps exactly when MODE = DECODE and STATUS = BUSY (40_decoder.md R120). -/
def decoderRuns (s : State) : Bool := s.mode = .decode ∧ s.status = .busy

/-- When ENC_LIT, ENC_MATCH, ENC_END, IDX_INSERT and IDX_LOOKUP are accepted: MODE = ENCODE and STATUS = BUSY
(60_exceptions.md R266). -/
def acceptsParse (s : State) : Bool := s.mode = .encode ∧ s.status = .busy

/-- When ENC_START, DEC_START, HOST_WRITE_IN and HOST_SET_IN_LEN are accepted: STATUS ≠ BUSY (60_exceptions.md R266). -/
def acceptsSetup (s : State) : Bool := s.status ≠ .busy

/-- LS after a literal-run token: `min(L, 4)` (40_decoder.md R126 to R128, R137). -/
def runLitState (len : Nat) : LitState := Fin.ofNat 5 (min len 4)

/-- LS after a match: S (40_decoder.md R125). -/
def trailLitState (s : SField) : LitState := s.castSucc

/-- `LSat`: the literal state the Decoder will hold at the next match's command byte (41_encoder.md R172). -/
def litStateAt (s : State) : Nat := min s.litCnt 4

/-- The code of MODE (10_state.md R23). -/
def Mode.code : Mode → Nat
  | .none => 0
  | .encode => 1
  | .decode => 2

/-- The code of STATUS (10_state.md R24). -/
def Status.code : Status → Nat
  | .idle => 0
  | .busy => 1
  | .done => 2
  | .error => 3

/-- The code of ERRCODE (10_state.md R25). -/
def ErrCode.code : ErrCode → Nat
  | .none => 0
  | .endOfInput => 1
  | .corruptStream => 2
  | .sizeMismatch => 3
  | .outputOverrun => 4
  | .illegalParse => 5
  | .illegalCommand => 6

/-- The code of LEVEL (10_state.md R27). -/
def Level.code : Level → Nat
  | .fast => 0
  | .best => 1

/-- The code of DPH (10_state.md R32). -/
def phaseCode : Phase → Nat
  | .first => 0
  | .cmd => 1

end Sys2Proof.Machine
end

