-- ==== Sys2Proof/Machine/Operands.lean ====
section
/-! DEFINITION. What a command's operand words A and B stand for: a level, a byte, a register (30_encoding.md R101, R102). -/

namespace Sys2Proof.Machine

/-- ENC_START's A: LEVEL is bit 0, the other bits are ignored (41_encoder.md R176). -/
def levelOperand (a : Word) : Level := if a.toNat % 2 = 0 then .fast else .best

/-- HOST_WRITE_IN's B: the byte it is; where B is no byte (over 255) the spec does not say which byte is stored, and it
is a free value (60_exceptions.md R262, log 9). -/
def byteOperand (b : Word) (draw : Nat) : Byte := if b.toNat < 256 then byteOf b.toNat else Config.freeWriteByte draw

/-- How many free values `byteOperand` draws. -/
def byteOperandDraws (b : Word) : Nat := if b.toNat < 256 then 0 else 1

/-- The register with a HOST_READ_REG id, as a number; any other id reads 0 (30_encoding.md R102). -/
def registerValue (s : State) (id : Nat) : Nat :=
  match id with
  | 0 => s.mode.code
  | 1 => s.status.code
  | 2 => s.errcode.code
  | 3 => s.errpos
  | 4 => s.level.code
  | 5 => s.expLen
  | 6 => s.ip
  | 7 => s.tokstart
  | 8 => s.ls.val
  | 9 => phaseCode s.dph
  | 10 => s.pos
  | 11 => s.litCnt
  | 12 => s.started.toNat
  | 13 => s.hold0.toNat
  | 14 => s.hold1.toNat
  | 15 => s.holdV.toNat
  | 16 => s.outLen
  | 17 => s.inLen
  | _ => 0

end Sys2Proof.Machine
end

