-- ==== Sys2Proof/Machine/Ops.lean ====
section
/-! DEFINITION. The named operations over the block's storage and registers: byte memories, the Sink, the Decoder's reads
and copies, and `raise`, the one way a call ends in an error (00_scope.md R11, 43_sink.md, 60_exceptions.md R252). -/

namespace Sys2Proof.Machine

/-! Sparse storage: key and value pairs, keys strictly rising. -/

/-- The value listed at a key, if any. -/
def lookup {α : Type} (k : Nat) : List (Nat × α) → Option α
  | [] => none
  | (k', v) :: rest => if k = k' then some v else lookup k rest

/-- List `v` at key `k`, in place of what was listed there. -/
def insertAt {α : Type} (k : Nat) (v : α) : List (Nat × α) → List (Nat × α)
  | [] => [(k, v)]
  | (k', v') :: rest =>
    if k < k' then (k, v) :: (k', v') :: rest
    else if k = k' then (k, v) :: rest
    else (k', v') :: insertAt k v rest

/-- The canonical form: keys strictly rising. -/
def rising {α : Type} : List (Nat × α) → Bool
  | [] => true
  | (k, _) :: rest => rest.all (fun e => k < e.1) && rising rest

/-- The canonical form of a byte memory: addresses strictly rising. An unlisted address has no value of its own, so no
entry can equal it. -/
def Memory.wf (m : Memory) : Bool := rising m

/-- The canonical form of the arena: buckets strictly rising and no empty chain listed. -/
def Arena.wf (b : Arena) : Bool := rising b && b.all (fun e => e.2 ≠ [])

/-- `IN[a]`; a free byte where nothing has been written (10_state.md R21, log 5). -/
def State.inByte (s : State) (a : Nat) : Byte := (lookup a s.inMem).getD (Config.freeInByte s.inEpoch a)

/-- `OUT[a]`; a free byte where nothing has been written (10_state.md R37, log 5). -/
def State.outByte (s : State) (a : Nat) : Byte := (lookup a s.outMem).getD (Config.freeOutByte s.outEpoch a)

/-- `IN[a .. a+n)`. -/
def State.inBytes (s : State) (a : Nat) : Nat → List Byte
  | 0 => []
  | n + 1 => s.inByte a :: s.inBytes (a + 1) n

/-- `OUT[a .. a+n)`. -/
def State.outBytes (s : State) (a : Nat) : Nat → List Byte
  | 0 => []
  | n + 1 => s.outByte a :: s.outBytes (a + 1) n

/-! Ending a call in an error. -/

/-- `raise E(info)` (60_exceptions.md R252): STATUS, ERRCODE and ERRPOS are written and nothing else. -/
def State.raise (e : ErrCode) (info : Nat) (s : State) : State :=
  { s with status := .error, errcode := e, errpos := info }

/-- OUT and OUT_LEN become unspecified: free contents and a free length (93 U1, log 6). -/
def State.loseOutput (s : State) : State :=
  { s with outMem := [], outEpoch := s.drawn, outLen := (Config.freeOutLen s.drawn).toNat, drawn := s.drawn + 1 }

/-- A Decoder error: ERRPOS is TOKSTART (10_state.md R26), and OUT and OUT_LEN are unspecified afterwards (40_decoder.md
R138). -/
def State.decoderError (e : ErrCode) (s : State) : State := (s.raise e s.tokstart).loseOutput

/-- An Encoder error: ERRPOS is POS, and the Sink keeps the bytes appended so far (10_state.md R26, 60_exceptions.md
R252). -/
def State.encoderError (e : ErrCode) (s : State) : State := s.raise e s.pos

/-- A command that is not accepted: IllegalCommand while BUSY, refused with no effect otherwise (60_exceptions.md R266,
logs 3 and 7). -/
def State.notAccepted (s : State) : State := if s.status = .busy then s.raise .illegalCommand 0 else s

/-! Work that may fail part way: the state so far, or the error and the state at the failing check. -/

/-- A piece of a step that can fail. -/
inductive Attempt where
  /-- It was carried out. -/
  | done (s : State)
  /-- A check failed; `s` holds every register as it was at that check (60_exceptions.md R252, log 20). -/
  | failed (e : ErrCode) (s : State)
deriving DecidableEq, Repr

/-- Go on with `f` unless a check failed. -/
def Attempt.andThen (x : Attempt) (f : State → Attempt) : Attempt :=
  match x with
  | .done s => f s
  | .failed e s => .failed e s

/-- The end of a token's meaning: a failed check is a Decoder error. -/
def Attempt.closeToken : Attempt → Outcome
  | .done s => .next s
  | .failed e s => .next (s.decoderError e)

/-- The end of an Encoder command: a failed check is an Encoder error. -/
def Attempt.closeCommand : Attempt → Outcome
  | .done s => .next s
  | .failed e s => .next (s.encoderError e)

/-! The Output Sink. -/

/-- The append itself, without the capacity check (43_sink.md R232). It writes the byte at OUT_LEN and keeps every byte
beyond: 70_reset_and_hazards.md R289 leaves those open at the end of a call (DEDUCED, log 23). -/
def State.push (v : Byte) (s : State) : State :=
  { s with outMem := insertAt s.outLen v s.outMem, outLen := s.outLen + 1 }

/-- `SinkAppend(v)` (43_sink.md R232). -/
def sinkAppend (v : Byte) (s : State) : Attempt :=
  if s.outLen = s.cfg.outCap then .failed .outputOverrun s else .done (s.push v)

/-- `SinkAppend` of each byte of a list in order. -/
def sinkAppendAll : List Byte → State → Attempt
  | [], s => .done s
  | v :: vs, s => (sinkAppend v s).andThen (sinkAppendAll vs)

/-- `SinkBack(d)`: the byte `d` positions before the end (43_sink.md R233). -/
def sinkBack (d : Nat) (s : State) : Byte := s.outByte (s.outLen - d)

/-! The Decoder's copies. -/

/-- One literal: `b <- InRead(); SinkAppend(b)`, the input check before the output check (00_scope.md R11, 40_decoder.md
R123). -/
def copyLiteral (s : State) : Attempt :=
  if s.inLen ≤ s.ip then .failed .endOfInput s else sinkAppend (s.inByte s.ip) { s with ip := s.ip + 1 }

/-- `CopyLiterals(L)` (40_decoder.md R123). -/
def copyLiterals : Nat → State → Attempt
  | 0, s => .done s
  | n + 1, s => (copyLiteral s).andThen (copyLiterals n)

/-- `n` pairs of `SinkBack(d)` and `SinkAppend`, byte by byte (43_sink.md R234). -/
def copyBack (d : Nat) : Nat → State → Attempt
  | 0, s => .done s
  | n + 1, s => (sinkAppend (sinkBack d s) s).andThen (copyBack d n)

/-- `CopyMatch(d, n)`: the range check once, then the byte-serial copy (40_decoder.md R124). -/
def copyMatch (d n : Nat) (s : State) : Attempt :=
  if s.outLen < d then .failed .corruptStream s else copyBack d n s

/-- `Trail(S)`: the S-field literals, then `LS <- S` (40_decoder.md R125). -/
def trail (sf : SField) (s : State) : Attempt :=
  (copyLiterals sf.val s).andThen fun t => .done { t with ls := trailLitState sf }

/-! Answers. -/

/-- Return a result to the outside (30_encoding.md R101; log 2). -/
def State.answer (x : Answer) (s : State) : State := { s with answers := x :: s.answers }

/-- Return a byte the spec leaves open: a fresh free value (93 U4, U5; logs 8 and 22). -/
def State.answerFree (s : State) : State :=
  { s with answers := .byte (Config.freeReadByte s.drawn) :: s.answers, drawn := s.drawn + 1 }

end Sys2Proof.Machine
end

