-- ==== Sys2Proof/Machine/Encoder.lean ====
section
/-! DEFINITION. The Token Encoder: flushing, the parse check, the class selection and emission, and its four commands
(41_encoder.md R170 to R187). -/

namespace Sys2Proof.Machine

/-! Flushing (R171, R180, R181). -/

/-- `FlushHold()` (R171). -/
def flushHold (s : State) : Attempt :=
  if s.holdV then (sinkAppendAll [s.hold0, s.hold1] s).andThen fun t => .done { t with holdV := false } else .done s

/-- The command bytes of a first run of `len` literals: FIRSTLIT up to 238, LITX above (R180). -/
def firstRunHead (len : Nat) : List Byte :=
  if len ≤ Config.firstMaxShort then [byteOf (17 + len)] else 0x00 :: extBytes (len - Config.litMaxInline)

/-- The command bytes of a later run of `len ≥ 4` literals: LIT up to 18, LITX above (R181). -/
def laterRunHead (len : Nat) : List Byte :=
  if len ≤ Config.litMaxInline then [byteOf (len - 3)] else 0x00 :: extBytes (len - Config.litMaxInline)

/-- The pending run `IN[POS - LIT_CNT .. POS)` (10_state.md R34). -/
def State.pendingRun (s : State) : List Byte := s.inBytes (s.pos - s.litCnt) s.litCnt

/-- `FlushLiterals()` with STARTED = 0 and a run to flush (R180). -/
def flushFirstRun (s : State) : Attempt :=
  (sinkAppendAll (firstRunHead s.litCnt ++ s.pendingRun) s).andThen fun t =>
    .done { t with litCnt := 0, started := true }

/-- `FlushLiterals()` with STARTED = 1 and a run of 1 to 3: the count goes into the S field of HOLD0 (R181). -/
def flushShortRun (s : State) : Attempt :=
  ((flushHold { s with hold0 := s.hold0 ||| byteOf s.litCnt }).andThen (sinkAppendAll s.pendingRun)).andThen fun t =>
    .done { t with litCnt := 0 }

/-- `FlushLiterals()` with STARTED = 1 and a run of 4 or more (R181). -/
def flushLaterRun (s : State) : Attempt :=
  ((flushHold s).andThen (sinkAppendAll (laterRunHead s.litCnt ++ s.pendingRun))).andThen fun t =>
    .done { t with litCnt := 0 }

/-- `FlushLiterals()` (R180, R181); an empty run writes nothing. -/
def flushLiterals (s : State) : Attempt :=
  if s.litCnt = 0 then .done s
  else if s.started = false then flushFirstRun s
  else if s.litCnt ≤ 3 then flushShortRun s
  else flushLaterRun s

/-! The parse check and the class selection (R173, R174). -/

/-- Check 5 of R173 for `n` bytes from input position `p`: `IN[p + i] = IN[p + i - d]`. -/
def bytesRepeat (s : State) (d : Nat) : Nat → Nat → Bool
  | _, 0 => true
  | p, n + 1 => s.inByte p = s.inByte (p - d) && bytesRepeat s d (p + 1) n

/-- The parse check of `ENC_MATCH d, n`: none of the five conditions of R173 holds. -/
def legalMatch (d n : Nat) (s : State) : Bool :=
  (d ≠ 0 ∧ d ≤ s.pos) && d ≤ Config.m4MaxDist && (2 ≤ n ∧ s.pos + n ≤ s.inLen)
    && (n ≠ 2 ∨ (1 ≤ litStateAt s ∧ litStateAt s ≤ 3 ∧ d ≤ Config.m1aMaxDist))
    && bytesRepeat s d s.pos n

/-! Emission (R182 to R186): bytes to the Sink, the last two bytes to the hold register. -/

/-- Set the hold register (10_state.md R36). -/
def State.hold (b0 b1 : Nat) (s : State) : State := { s with hold0 := byteOf b0, hold1 := byteOf b1, holdV := true }

/-- Append the bytes that precede the held two, then hold those. -/
def emitHeld (bs : List Byte) (b0 b1 : Nat) (s : State) : Attempt :=
  (sinkAppendAll bs s).andThen fun t => .done (t.hold b0 b1)

/-- Emit M1A (R182). -/
def emitM1a (d : Nat) (s : State) : Attempt := emitHeld [] (((d - 1) &&& 3) <<< 2) ((d - 1) >>> 2) s

/-- Emit M2 (R183). -/
def emitM2 (d n : Nat) (s : State) : Attempt :=
  emitHeld [] (((n - 1) <<< 5) ||| (((d - 1) &&& 7) <<< 2)) ((d - 1) >>> 3) s

/-- Emit M1B (R184). -/
def emitM1b (d : Nat) (s : State) : Attempt := emitHeld [] (((d - 2049) &&& 3) <<< 2) ((d - 2049) >>> 2) s

/-- Emit M3 or M3X (R185). -/
def emitM3 (d n : Nat) (s : State) : Attempt :=
  emitHeld (if n ≤ Config.m3MaxInline then [byteOf (0x20 ||| (n - 2))] else 0x20 :: extBytes (n - Config.m3MaxInline))
    (((d - 1) <<< 2) &&& 0xFF) (((d - 1) >>> 6) &&& 0xFF) s

/-- Emit M4 or M4X (R186); bit 14 of `m` moves to bit 3 of the command byte. -/
def emitM4 (d n : Nat) (s : State) : Attempt :=
  let m := d - 16384
  let h := (m >>> 11) &&& 8
  emitHeld
    (if n ≤ Config.m4MaxInline then [byteOf (0x10 ||| h ||| (n - 2))]
      else byteOf (0x10 ||| h) :: extBytes (n - Config.m4MaxInline))
    ((m <<< 2) &&& 0xFF) ((m >>> 6) &&& 0xFF) s

/-- Emit the token R174 chooses for `(d, n, ls)`. -/
def emitMatch (d n ls : Nat) (s : State) : Attempt :=
  if n = 2 then emitM1a d s
  else if Config.m2MinLen ≤ n ∧ n ≤ Config.m2MaxLen ∧ d ≤ Config.m2MaxDist then emitM2 d n s
  else if n = 3 ∧ Config.m1bMinDist ≤ d ∧ d ≤ Config.m1bMaxDist ∧ ls = 4 then emitM1b d s
  else if d ≤ Config.m3MaxDist then emitM3 d n s
  else emitM4 d n s

/-! The commands. -/

/-- ENC_START (R176) and the Decoder registers it resets (70_reset_and_hazards.md R282). -/
def execEncStart (a : Word) (s : State) : Outcome :=
  if acceptsSetup s then
    .next { s with
      mode := .encode, status := .busy, errcode := .none, errpos := 0, level := levelOperand a
      pos := 0, litCnt := 0, started := false, holdV := false, hold0 := 0, hold1 := 0
      outLen := 0, bucket := []
      ip := 0, tokstart := 0, ls := 0, dph := .first, expLen := 0 }
  else .next s.notAccepted

/-- ENC_LIT (R177). -/
def execEncLit (s : State) : Outcome :=
  if acceptsParse s then
    if s.inLen ≤ s.pos then .next (s.encoderError .illegalParse)
    else .next { s with litCnt := s.litCnt + 1, pos := s.pos + 1 }
  else .next s.notAccepted

/-- The work of a legal ENC_MATCH: flush, emit, advance (R178). LSat is read before the flush. -/
def encodeMatch (d n : Nat) (s : State) : Attempt :=
  (((flushLiterals s).andThen flushHold).andThen (emitMatch d n (litStateAt s))).andThen fun t =>
    .done { t with pos := t.pos + n, started := true }

/-- ENC_MATCH (R178). -/
def execEncMatch (a b : Word) (s : State) : Outcome :=
  if acceptsParse s then
    if legalMatch a.toNat b.toNat s then (encodeMatch a.toNat b.toNat s).closeCommand
    else .next (s.encoderError .illegalParse)
  else .next s.notAccepted

/-- The work of ENC_END on a covered input: flush, END marker, DONE (R179, R187). -/
def encodeEnd (s : State) : Attempt :=
  (((flushLiterals s).andThen flushHold).andThen (sinkAppendAll [0x11, 0x00, 0x00])).andThen fun t =>
    .done { t with status := .done }

/-- ENC_END (R179). -/
def execEncEnd (s : State) : Outcome :=
  if acceptsParse s then
    if s.pos ≠ s.inLen then .next (s.encoderError .illegalParse) else (encodeEnd s).closeCommand
  else .next s.notAccepted

end Sys2Proof.Machine
end

