-- ==== Sys2Proof/Machine/HostPort.lean ====
section
/-! DEFINITION. The host's commands and its read of IN: starting a decode call, loading IN, reading results (60_exceptions.md R260 to R265),
and RESET (70_reset_and_hazards.md R280). -/

namespace Sys2Proof.Machine

/-- DEC_START (R260) and the Encoder registers it resets (70_reset_and_hazards.md R282). BUCKET and LEVEL stay (log 14). -/
def execDecStart (a : Word) (s : State) : Outcome :=
  if acceptsSetup s then
    .next { s with
      mode := .decode, status := .busy, errcode := .none, errpos := 0, expLen := a.toNat
      ip := 0, tokstart := 0, ls := 0, dph := .first, outLen := 0
      pos := 0, litCnt := 0, started := false, hold0 := 0, hold1 := 0, holdV := false }
  else .next s.notAccepted

/-- HOST_WRITE_IN (R262): refused with no effect at an index past IN_CAP. -/
def execHostWriteIn (a b : Word) (s : State) : Outcome :=
  if acceptsSetup s then
    if a.toNat < s.cfg.inCap then
      .next { s with
        inMem := insertAt a.toNat (byteOperand b s.drawn) s.inMem
        drawn := s.drawn + byteOperandDraws b }
    else .next s
  else .next s.notAccepted

/-- HOST_SET_IN_LEN (R263): refused with no effect above IN_CAP. -/
def execHostSetInLen (a : Word) (s : State) : Outcome :=
  if acceptsSetup s then
    if a.toNat ≤ s.cfg.inCap then .next { s with inLen := a.toNat } else .next s
  else .next s.notAccepted

/-- HOST_READ_OUT (R264), always accepted: `OUT[i]`, and a fresh free byte while BUSY or past OUT_LEN (93 U4, U5, log 8). -/
def execHostReadOut (a : Word) (s : State) : Outcome :=
  if a.toNat < s.outLen ∧ s.status ≠ .busy then .next (s.answer (.byte (s.outByte a.toNat)))
  else .next s.answerFree

/-- The host's read of IN (10_state.md R39: `read`, whatever STATUS is), which is no command of R101: `IN[a]`, and a fresh
free byte past IN_CAP, where IN has none (10_state.md R21; DESIGN CHOICE, log 22). -/
def State.hostReadIn (a : Word) (s : State) : State :=
  if a.toNat < s.cfg.inCap then s.answer (.byte (s.inByte a.toNat)) else s.answerFree

/-- HOST_READ_REG (R265), always accepted: the register's value as a POS_W-bit word. -/
def execHostReadReg (a : Word) (s : State) : Outcome :=
  .next (s.answer (.value (BitVec.ofNat 32 (registerValue s a.toNat))))

/-- RESET (R280), always accepted: every register at its reset value, the contents of IN and OUT unspecified anew
(93 U2). The capacities, the port and the answers given are no registers and stay (log 19). -/
def execReset (s : State) : Outcome :=
  .next { State.powerOn s.cfg with
    inEpoch := s.drawn, outEpoch := s.drawn, drawn := s.drawn + 1
    port := s.port, answers := s.answers }

end Sys2Proof.Machine
end

