-- ==== Sys2Proof/Machine/Index.lean ====
section
/-! DEFINITION. The Hash Index: geometry, key, bucket, and its two commands (42_match_index.md R210 to R218). -/

namespace Sys2Proof.Machine

/-- HASH_BITS(LEVEL) (00_scope.md R7, 42_match_index.md R211). -/
def hashBits : Level → Nat
  | .fast => 14
  | .best => 14

/-- CHAIN_DEPTH(LEVEL) (R7, R211). -/
def chainDepth : Level → Nat
  | .fast => 1
  | .best => 16

/-- PREFIX_W(LEVEL) (R7, R211). -/
def prefixWidth : Level → Nat
  | .fast => 4
  | .best => 3

/-- `key4` of four bytes (R212). -/
def key4 (b0 b1 b2 b3 : Nat) : Nat := ((((((b3 <<< 6) ^^^ b2) <<< 5) ^^^ b1) <<< 5) ^^^ b0)

/-- `key3` of three bytes (R212). -/
def key3 (b0 b1 b2 : Nat) : Nat := ((((b2 <<< 5) ^^^ b1) <<< 5) ^^^ b0)

/-- The prefix key of position `p` (R212). -/
def prefixKey (s : State) (p : Nat) : Nat :=
  match s.level with
  | .fast => key4 (s.inByte p).toNat (s.inByte (p + 1)).toNat (s.inByte (p + 2)).toNat (s.inByte (p + 3)).toNat
  | .best => key3 (s.inByte p).toNat (s.inByte (p + 1)).toNat (s.inByte (p + 2)).toNat

/-- The bucket of position `p` (R213). -/
def bucketOf (s : State) (p : Nat) : Nat := ((0x21 * prefixKey s p) >>> 5) &&& (2 ^ hashBits s.level - 1)

/-- The slots of bucket `h` that are not EMPTY, most recent first (10_state.md R38). -/
def State.chain (s : State) (h : Nat) : List Nat := (lookup h s.bucket).getD []

/-- `BUCKET[h][k]`, nothing where the slot is EMPTY (10_state.md R38). -/
def State.slot (s : State) (h k : Nat) : Option Nat := (s.chain h)[k]?

/-- A chain after an insert: every entry moves one slot deeper, the last of a full chain is dropped (R214). -/
def pushChain (depth p : Nat) (chain : List Nat) : List Nat := (p :: chain).take depth

/-- Whether the prefix of position `p` lies within the input (R212, R214, R215). -/
def prefixFits (s : State) (p : Nat) : Bool := p + prefixWidth s.level ≤ s.inLen

/-- IDX_INSERT (R214). -/
def execIdxInsert (a : Word) (s : State) : Outcome :=
  if acceptsParse s then
    if prefixFits s a.toNat then
      .next { s with
        bucket := insertAt (bucketOf s a.toNat)
          (pushChain (chainDepth s.level) a.toNat (s.chain (bucketOf s a.toNat))) s.bucket }
    else .next s
  else .next s.notAccepted

/-- The positions IDX_LOOKUP returns: the entries of the bucket before `p`, in slot order; none past the input's end
(R215). -/
def candidates (s : State) (p : Nat) : List Nat :=
  if prefixFits s p then ((s.chain (bucketOf s p)).take (chainDepth s.level)).filter (fun q => q < p) else []

/-- IDX_LOOKUP (R215). -/
def execIdxLookup (a : Word) (s : State) : Outcome :=
  if acceptsParse s then .next (s.answer (.positions (candidates s a.toNat))) else .next s.notAccepted

end Sys2Proof.Machine
end

