-- ==== Sys2Proof/Machine/Tokens.lean ====
section
/-! DEFINITION. What each token of the stream does (40_decoder.md R126 to R135, R140). The step has set TOKSTART and
moved IP past the token's head (command byte, extension bytes, distance bytes) when a meaning runs. -/

namespace Sys2Proof.Machine

/-- A literal-run token of length `len`: copy the literals, then set LS (40_decoder.md R126 to R128). -/
def literalRun (len : Nat) (s : State) : Outcome :=
  ((copyLiterals len s).andThen fun t => .done { t with ls := runLitState len }).closeToken

/-- A match token: the look-behind check and copy, then the trailing literals (40_decoder.md R129 to R136). -/
def matchToken (d n : Nat) (sf : SField) (s : State) : Outcome :=
  ((copyMatch d n s).andThen (trail sf)).closeToken

/-- FIRSTLIT (R126). -/
def execFirstLit (len : Nat) (s : State) : Outcome := literalRun len s

/-- LIT (R127). -/
def execLit (len : Nat) (s : State) : Outcome := literalRun len s

/-- LITX (R128). -/
def execLitx (len : Nat) (s : State) : Outcome := literalRun len s

/-- M1A: a match of length 2 (R129). -/
def execM1a (d : Nat) (sf : SField) (s : State) : Outcome := matchToken d 2 sf s

/-- M1B: a match of length 3 (R130). -/
def execM1b (d : Nat) (sf : SField) (s : State) : Outcome := matchToken d 3 sf s

/-- M2 (R131). -/
def execM2 (d n : Nat) (sf : SField) (s : State) : Outcome := matchToken d n sf s

/-- M3 (R132). -/
def execM3 (d n : Nat) (sf : SField) (s : State) : Outcome := matchToken d n sf s

/-- M3X (R133). -/
def execM3x (d n : Nat) (sf : SField) (s : State) : Outcome := matchToken d n sf s

/-- M4 (R134). -/
def execM4 (d n : Nat) (sf : SField) (s : State) : Outcome := matchToken d n sf s

/-- M4X (R135). -/
def execM4x (d n : Nat) (sf : SField) (s : State) : Outcome := matchToken d n sf s

/-- END: the size check, then DONE; the length and the S bits of the form are ignored (R92, R140). -/
def execEndMarker (_n : Nat) (_sf : SField) (s : State) : Outcome :=
  if s.expLen ≠ 0 ∧ s.outLen ≠ s.expLen then .next (s.decoderError .sizeMismatch)
  else .next { s with status := .done }

end Sys2Proof.Machine
end

