-- ==== Sys2Proof/Machine/Dispatch.lean ====
section
/-! DEFINITION. One arm per instruction. -/

namespace Sys2Proof.Machine

def exec (i : Instr) (s : State) : Host.Outcome State Fault Refusal :=
  match i with
  -- tokens (40_decoder.md)
  | .firstLit len => Sys2Proof.Machine.execFirstLit len s
  | .lit len => Sys2Proof.Machine.execLit len s
  | .litx len => Sys2Proof.Machine.execLitx len s
  | .m1a d sf => Sys2Proof.Machine.execM1a d sf s
  | .m1b d sf => Sys2Proof.Machine.execM1b d sf s
  | .m2 d n sf => Sys2Proof.Machine.execM2 d n sf s
  | .m3 d n sf => Sys2Proof.Machine.execM3 d n sf s
  | .m3x d n sf => Sys2Proof.Machine.execM3x d n sf s
  | .m4 d n sf => Sys2Proof.Machine.execM4 d n sf s
  | .m4x d n sf => Sys2Proof.Machine.execM4x d n sf s
  | .endMarker n sf => Sys2Proof.Machine.execEndMarker n sf s
  -- Encoder commands (41_encoder.md)
  | .encStart a => Sys2Proof.Machine.execEncStart a s
  | .encLit => Sys2Proof.Machine.execEncLit s
  | .encMatch a b => Sys2Proof.Machine.execEncMatch a b s
  | .encEnd => Sys2Proof.Machine.execEncEnd s
  -- Hash Index commands (42_match_index.md)
  | .idxInsert a => Sys2Proof.Machine.execIdxInsert a s
  | .idxLookup a => Sys2Proof.Machine.execIdxLookup a s
  -- host commands (60_exceptions.md, 70_reset_and_hazards.md)
  | .decStart a => Sys2Proof.Machine.execDecStart a s
  | .hostWriteIn a b => Sys2Proof.Machine.execHostWriteIn a b s
  | .hostSetInLen a => Sys2Proof.Machine.execHostSetInLen a s
  | .hostReadOut a => Sys2Proof.Machine.execHostReadOut a s
  | .hostReadReg a => Sys2Proof.Machine.execHostReadReg a s
  | .reset => Sys2Proof.Machine.execReset s

end Sys2Proof.Machine
end

