-- ==== Sys2Proof/Machine/Fetch.lean ====
section
/-! DEFINITION. What the next step runs: the command or the read of IN at the head of the port, or the Decoder's next
token; and what a
step does around a token's meaning (40_decoder.md R120 to R122, 60_exceptions.md R266). -/

namespace Sys2Proof.Machine

/-- What a step has to run. -/
inductive Fetched where
  /-- A command, in the state its meaning starts from. -/
  | command (i : Instr) (s : State)
  /-- A token, with TOKSTART set and IP past the token's head. -/
  | token (i : Instr) (s : State)
  /-- No instruction: the step ends in this state. -/
  | settled (s : State)
deriving DecidableEq, Repr

/-- The START step up to FIRSTLIT's own work (40_decoder.md R121): an empty stream is EndOfInput, a first byte below 0x12
only moves the phase. The byte tested is `IN[0]`; FIRSTLIT consumes it through IP, which is 0 here (log 12). -/
def fetchFirst (s : State) : Fetched :=
  if s.inLen = 0 then .settled ({ s with tokstart := 0 }.decoderError .endOfInput)
  else
    match decodeToken .first s.ls [s.inByte 0] with
    | .ok (i, _) => .token i { s with tokstart := 0, ip := s.ip + 1 }
    | .error _ => .settled { s with tokstart := 0, dph := .cmd }

/-- The unread input `IN[IP .. IN_LEN)`. -/
def State.unread (s : State) : List Byte := s.inBytes s.ip (s.inLen - s.ip)

/-- A token step up to the end of the token's head (40_decoder.md R122, R136): where the input ends inside the head, every
byte of it has been read and the next read is EndOfInput. -/
def fetchNext (s : State) : Fetched :=
  match decodeToken .cmd s.ls s.unread with
  | .ok (i, rest) => .token i { s with tokstart := s.ip, ip := s.ip + (s.unread.length - rest.length) }
  | .error _ =>
    .settled ({ s with tokstart := s.ip, ip := s.ip + s.unread.length }.decoderError .endOfInput)

/-- The Decoder's turn: a START or token step when it runs, nothing otherwise (40_decoder.md R120, 60_exceptions.md R276). -/
def fetchDecoder (s : State) : Fetched :=
  if decoderRuns s then
    match s.dph with
    | .first => fetchFirst s
    | .cmd => fetchNext s
  else .settled s

/-- What the next step runs. A reserved op code is a command that is not accepted (60_exceptions.md R266). A read of IN is a
step of its own (20_memory.md R63). With nothing at the port the Decoder has the turn (log 1). -/
def fetch (s : State) : Fetched :=
  match s.port with
  | [] => fetchDecoder s
  | .decoder :: rest => fetchDecoder { s with port := rest }
  | .readIn a :: rest => .settled ({ s with port := rest }.hostReadIn a)
  | .command op a b :: rest =>
    match decodeCommand op a b with
    | .ok i => .command i { s with port := rest }
    | .error _ => .settled { s with port := rest }.notAccepted

/-- What a step does after a token's meaning: the START step ends with `DPH <- CMD` unless an error was raised
(40_decoder.md R121). -/
def afterToken (ph : Phase) (o : Outcome) : Outcome :=
  match ph, o with
  | .first, .next t => if t.status = .error then .next t else .next { t with dph := .cmd }
  | .first, .fault r => .fault r
  | .first, .refused r => .refused r
  | .cmd, o => o

/-- Store bytes in a memory from address `a` on. -/
def storeAt (a : Nat) : List Byte → Memory → Memory
  | [], m => m
  | v :: vs, m => storeAt (a + 1) vs (insertAt a v m)

/-- A state in which the Decoder's next step reads the given bytes as its next token, at phase `ph` and literal state `ls`:
a decode call is running, IN holds the bytes from 0 on, and the Decoder has the turn. -/
def State.withToken (s : State) (ph : Phase) (ls : LitState) (bs : List Byte) : State :=
  { s with
    mode := .decode, status := .busy, dph := ph, ls := ls, ip := 0
    inMem := storeAt 0 bs s.inMem, inLen := bs.length, port := .decoder :: s.port }

end Sys2Proof.Machine
end

