-- ==== Sys2Proof/Machine/Step.lean ====
section
/-! DEFINITION. One step of the block: one command, one host read of IN or one Decoder step (00_scope.md R6, 20_memory.md R63). -/

namespace Sys2Proof.Machine

/-- One step. -/
def step (s : State) : Host.Outcome State Fault Refusal :=
  match fetch s with
  | .command i t => exec i t
  | .token i t => afterToken t.dph (exec i t)
  | .settled t => .next t

/-- `s` with a table word placed where the next step takes its instruction (logs 16 and 17): a command at the head of the port, or
a token at the start of IN in a running decode call. -/
def State.withFetchWord (s : State) (nbits w : Nat) : State :=
  let t := byteOf (w % 2 ^ nbits)
  match decodeCommand t (tableOperands nbits w).1 (tableOperands nbits w).2 with
  | .ok _ =>
    { s with port := .command t (tableOperands nbits w).1 (tableOperands nbits w).2 :: s.port }
  | .error _ => s.withToken (tableContext t).1 (tableContext t).2 (tableBytes nbits w)

end Sys2Proof.Machine
end

