-- ==== Sys2Proof/Safety.lean ====
section
/-! DEFINITION. The terms the claims use: when a command is accepted, what an illegal parse is, which token a match is
written as, what a flush writes, the invariant of the block, and runs of commands. Nothing here is used by the machine. -/

namespace Sys2Proof.Machine

/-! Room and input. -/

/-- The Sink takes `k` more bytes (43_sink.md R232). -/
abbrev State.roomFor (s : State) (k : Nat) : Prop := s.outLen + k ≤ s.cfg.outCap

/-- The input holds `k` more bytes (00_scope.md R11). -/
abbrev State.inputLeft (s : State) (k : Nat) : Prop := s.ip + k ≤ s.inLen

/-- The Decoder has the next step: nothing is presented at the port, which is `rest` afterwards (log 1). -/
abbrev State.decoderTurn (s : State) (rest : List Turn) : Prop :=
  (s.port = [] ∧ rest = []) ∨ s.port = .decoder :: rest

/-! Commands. -/

/-- When a command is accepted (60_exceptions.md R266). A token is no command and stands as accepted. -/
def Accepted (s : State) : Instr → Prop
  | .reset | .hostReadReg _ | .hostReadOut _ => True
  | .encStart _ | .decStart _ | .hostWriteIn _ _ | .hostSetInLen _ => s.status ≠ .busy
  | .encLit | .encMatch _ _ | .encEnd | .idxInsert _ | .idxLookup _ => s.mode = .encode ∧ s.status = .busy
  | .firstLit _ | .lit _ | .litx _ | .m1a _ _ | .m1b _ _ | .m2 _ _ _ | .m3 _ _ _ | .m3x _ _ _ | .m4 _ _ _ | .m4x _ _ _
  | .endMarker _ _ => True

/-- The five conditions under which `ENC_MATCH d, n` is an illegal parse, as 41_encoder.md R173 lists them. -/
def IllegalMatch (d n : Nat) (s : State) : Prop :=
  (d = 0 ∨ s.pos < d)
    ∨ 49151 < d
    ∨ (n < 2 ∨ s.inLen < s.pos + n)
    ∨ (n = 2 ∧ ¬ ((litStateAt s = 1 ∨ litStateAt s = 2 ∨ litStateAt s = 3) ∧ d ≤ 1024))
    ∨ ∃ i, i < n ∧ s.inByte (s.pos + i) ≠ s.inByte (s.pos + i - d)

/-- The token a legal `ENC_MATCH d, n` is written as, with an S field of 0: the first row of the table of 41_encoder.md
R174 that applies. -/
def chosenToken (d n ls : Nat) : Instr :=
  if n = 2 then .m1a d 0
  else if 3 ≤ n ∧ n ≤ 8 ∧ d ≤ 2048 then .m2 d n 0
  else if n = 3 ∧ 2049 ≤ d ∧ d ≤ 3072 ∧ ls = 4 then .m1b d 0
  else if d ≤ 16384 then (if n ≤ 33 then .m3 d n 0 else .m3x d n 0)
  else if n ≤ 9 then .m4 d n 0
  else .m4x d n 0

/-- The bytes of a token up to its literal bytes, by the layouts of 30_encoding.md. -/
def headBytes (i : Instr) : List Byte :=
  match encode i with
  | .token bs => bs
  | .command _ _ _ => []

/-- The token of a pending run of `len` literals that needs one: the first run as FIRSTLIT up to 238, a later run as LIT
up to 18, longer ones as LITX (41_encoder.md R180, R181). -/
def runToken (started : Bool) (len : Nat) : Instr :=
  if started = false ∧ len ≤ 238 then .firstLit len
  else if started = true ∧ len ≤ 18 then .lit len
  else .litx len

/-- What FlushLiterals and FlushHold append together when STARTED and HOLD_V agree (41_encoder.md R171, R180, R181): the
held bytes, the count of a run of 1 to 3 in the S field, and the run. -/
def flushBytes (s : State) : List Byte :=
  if s.started = false then
    if s.litCnt = 0 then [] else headBytes (runToken false s.litCnt) ++ s.pendingRun
  else if s.litCnt = 0 then [s.hold0, s.hold1]
  else if s.litCnt ≤ 3 then [s.hold0 ||| byteOf s.litCnt, s.hold1] ++ s.pendingRun
  else [s.hold0, s.hold1] ++ headBytes (runToken true s.litCnt) ++ s.pendingRun

/-! The invariant. -/

/-- OUT and OUT_LEN are unspecified: a decode call has ended in an error (93 U1). -/
def State.outputLost (s : State) : Prop := s.mode = .decode ∧ s.status = .error

/-- Storage: canonical memories within their capacities, chains within the geometry of LEVEL (10_state.md R21, R37,
R38). -/
structure StorageInv (s : State) : Prop where
  caps : s.cfg.valid
  inWf : Memory.wf s.inMem = true
  inBelow : ∀ e ∈ s.inMem, e.1 < s.cfg.inCap
  outWf : Memory.wf s.outMem = true
  outBelow : ∀ e ∈ s.outMem, e.1 < s.cfg.outCap
  bucketWf : Arena.wf s.bucket = true
  bucketBelow : ∀ e ∈ s.bucket, e.1 < 2 ^ hashBits s.level
  chainsFit : ∀ e ∈ s.bucket, e.2.length ≤ chainDepth s.level

/-- Registers: lengths within the capacities, every register within POS_W bits, error registers only in ERROR, MODE and
STATUS of one call, the unit that does not own the call at its reset values (10_state.md R21 to R37,
70_reset_and_hazards.md R282). -/
structure RegisterInv (s : State) : Prop where
  inLenFits : s.inLen ≤ s.cfg.inCap
  outLenFits : s.outLen ≤ s.cfg.outCap ∨ s.outputLost
  outLenWidth : s.outLen < 2 ^ 32
  expLenWidth : s.expLen < 2 ^ 32
  errposWidth : s.errpos < 2 ^ 32
  ipWidth : s.ip < 2 ^ 32
  tokstartWidth : s.tokstart < 2 ^ 32
  posWidth : s.pos < 2 ^ 32
  litCntFits : s.litCnt ≤ s.pos
  errorOnly : s.status = .error ↔ s.errcode ≠ .none
  errposOnly : s.status ≠ .error → s.errpos = 0
  idleOnly : s.status = .idle ↔ s.mode = .none
  decoderAtRest : s.mode ≠ .decode →
    s.ip = 0 ∧ s.tokstart = 0 ∧ s.ls = 0 ∧ s.dph = .first ∧ s.expLen = 0
  encoderAtRest : s.mode ≠ .encode →
    s.pos = 0 ∧ s.litCnt = 0 ∧ s.started = false ∧ s.hold0 = 0 ∧ s.hold1 = 0 ∧ s.holdV = false

/-- The running Decoder: IP within the input, the phase FIRST only at the very start (10_state.md R29 to R32). -/
structure DecoderInv (s : State) : Prop where
  ipFits : s.ip ≤ s.inLen
  tokstartFits : s.tokstart ≤ s.ip
  firstIsStart : s.dph = .first → s.ip = 0 ∧ s.ls = 0 ∧ s.outLen = 0

/-- The running Encoder: 10_state.md R41 (a) to (c), in the stronger form that HOLD_V and STARTED agree, and a held token
with an empty S field. -/
structure EncoderInv (s : State) : Prop where
  litCntFits : s.litCnt ≤ s.pos
  posFits : s.pos ≤ s.inLen
  heldIsStarted : s.holdV = s.started
  heldOpen : s.holdV = true → s.hold0.toNat % 4 = 0
  firstRunPending : s.started = false → s.litCnt = s.pos ∧ s.outLen = 0

/-- The invariant of the block. -/
structure Inv (s : State) : Prop where
  storage : StorageInv s
  registers : RegisterInv s
  decoder : decoderRuns s = true → DecoderInv s
  encoder : acceptsParse s = true → EncoderInv s

/-! Agreement of two states, for claims that one thing does not depend on another. -/

/-- What a running Decoder may look at is the same in both states (40_decoder.md R141): the valid input, EXP_LEN,
OUT_CAP, its own registers, and the output produced so far. -/
structure SameDecoding (s t : State) : Prop where
  outCap : s.cfg.outCap = t.cfg.outCap
  inLen : s.inLen = t.inLen
  input : ∀ a, a < s.inLen → s.inByte a = t.inByte a
  mode : s.mode = t.mode
  status : s.status = t.status
  errcode : s.errcode = t.errcode
  errpos : s.errpos = t.errpos
  expLen : s.expLen = t.expLen
  ip : s.ip = t.ip
  tokstart : s.tokstart = t.tokstart
  ls : s.ls = t.ls
  dph : s.dph = t.dph
  outLen : ¬ s.outputLost → s.outLen = t.outLen
  output : ¬ s.outputLost → ∀ a, a < s.outLen → s.outByte a = t.outByte a

/-! Runs. -/

/-- `k` steps, as long as each gives a next state. -/
def steps : Nat → State → Option State
  | 0, s => some s
  | k + 1, s =>
    match step s with
    | .next t => steps k t
    | .fault _ => none
    | .refused _ => none

/-- Carry out instructions one after another, as long as each gives a next state. -/
def runAll : List Instr → State → Option State
  | [], s => some s
  | i :: is, s =>
    match exec i s with
    | .next t => runAll is t
    | .fault _ => none
    | .refused _ => none

/-- The commands a matcher issues between ENC_START and ENC_END (00_scope.md R6). -/
def isParseCommand : Instr → Bool
  | .encLit | .encMatch _ _ | .idxInsert _ | .idxLookup _ => true
  | .firstLit _ | .lit _ | .litx _ | .m1a _ _ | .m1b _ _ | .m2 _ _ _ | .m3 _ _ _ | .m3x _ _ _ | .m4 _ _ _ | .m4x _ _ _
  | .endMarker _ _ | .encStart _ | .encEnd | .decStart _ | .hostWriteIn _ _ | .hostSetInLen _ | .hostReadOut _
  | .hostReadReg _ | .reset => false

/-- The distance of a match token and its length (30_encoding.md R88). -/
def matchOperands : Instr → Option (Nat × Nat × SField)
  | .m1a d sf => some (d, 2, sf)
  | .m1b d sf => some (d, 3, sf)
  | .m2 d n sf | .m3 d n sf | .m3x d n sf | .m4 d n sf | .m4x d n sf => some (d, n, sf)
  | .firstLit _ | .lit _ | .litx _ | .endMarker _ _ | .encStart _ | .encLit | .encMatch _ _ | .encEnd | .idxInsert _
  | .idxLookup _ | .decStart _ | .hostWriteIn _ _ | .hostSetInLen _ | .hostReadOut _ | .hostReadReg _ | .reset => none

/-- The length of a literal-run token (30_encoding.md R85). -/
def runLength : Instr → Option Nat
  | .firstLit len | .lit len | .litx len => some len
  | .m1a _ _ | .m1b _ _ | .m2 _ _ _ | .m3 _ _ _ | .m3x _ _ _ | .m4 _ _ _ | .m4x _ _ _ | .endMarker _ _ | .encStart _
  | .encLit | .encMatch _ _ | .encEnd | .idxInsert _ | .idxLookup _ | .decStart _ | .hostWriteIn _ _ | .hostSetInLen _
  | .hostReadOut _ | .hostReadReg _ | .reset => none

end Sys2Proof.Machine
end

