-- ==== Sys2Proof/Certificates/Slice0/Obligations.lean ====
section
/-! DEFINITION. The statements for the provers, each from numbered rules of spec/. Positions, lengths and distances are
naturals; `s` is any state unless a premise says otherwise. -/

open Sys2Proof Sys2Proof.Machine

/-! ## Reset and the start of a call -/

/-- R280: RESET is accepted in every state, sets every register to its reset value and every bucket slot to EMPTY, reports
no error, and leaves the contents of IN and OUT unspecified: each reads as the free values of a number drawn at this reset
(93 U2, log 5). -/
def Obligations.ResetSetsEveryRegister : Prop :=
  ∀ s : State, ∃ t : State, exec .reset s = .next t ∧
    t.mode = .none ∧ t.status = .idle ∧ t.errcode = .none ∧ t.errpos = 0 ∧ t.level = .fast ∧ t.expLen = 0 ∧
    t.ip = 0 ∧ t.tokstart = 0 ∧ t.ls = 0 ∧ t.dph = .first ∧
    t.pos = 0 ∧ t.litCnt = 0 ∧ t.started = false ∧ t.hold0 = 0 ∧ t.hold1 = 0 ∧ t.holdV = false ∧
    t.outLen = 0 ∧ t.inLen = 0 ∧ (∀ h k, t.slot h k = none) ∧
    (∀ a, t.inByte a = Config.freeInByte s.drawn a) ∧ (∀ a, t.outByte a = Config.freeOutByte s.drawn a)

/-- R176, R260, R282: ENC_START and DEC_START while no call is running set exactly the registers those rules list, the
other unit's among them; while one is running each is an IllegalCommand of it (R266). That DEC_START keeps LEVEL and
BUCKET (log 14), and the IllegalCommand OUT and OUT_LEN in a decode call (log 7), are the model's deductions (DEDUCED). -/
def Obligations.StartCommandsBeginACall : Prop :=
  ∀ (s : State) (a : Word),
    (s.status ≠ .busy →
      exec (.encStart a) s = .next { s with
        mode := .encode, status := .busy, errcode := .none, errpos := 0
        level := if a.getLsbD 0 then .best else .fast
        pos := 0, litCnt := 0, started := false, holdV := false, hold0 := 0, hold1 := 0, outLen := 0, bucket := []
        ip := 0, tokstart := 0, ls := 0, dph := .first, expLen := 0 } ∧
      exec (.decStart a) s = .next { s with
        mode := .decode, status := .busy, errcode := .none, errpos := 0, expLen := a.toNat
        ip := 0, tokstart := 0, ls := 0, dph := .first, outLen := 0
        pos := 0, litCnt := 0, started := false, hold0 := 0, hold1 := 0, holdV := false }) ∧
    (s.status = .busy →
      exec (.encStart a) s = .next (s.raise .illegalCommand 0) ∧
      exec (.decStart a) s = .next (s.raise .illegalCommand 0))

/-- R282, last sentence: two states between calls that agree on the capacities, IN, IN_LEN and the model's own fields are
the same state after ENC_START, but for the stale contents of OUT. -/
def Obligations.EncodeCallForgetsEarlierCalls : Prop :=
  ∀ (s t : State) (a : Word), s.status ≠ .busy → t.status ≠ .busy →
    s.cfg = t.cfg → s.inMem = t.inMem → s.inEpoch = t.inEpoch → s.inLen = t.inLen →
    s.port = t.port → s.answers = t.answers → s.drawn = t.drawn →
    ∃ s' t' : State, exec (.encStart a) s = .next s' ∧ exec (.encStart a) t = .next t' ∧
      s' = { t' with outMem := s.outMem, outEpoch := s.outEpoch }

/-! ## The host's commands -/

/-- R266: a command that is not accepted is IllegalCommand while BUSY, ends the call with ERRPOS 0 and changes nothing
else; otherwise it changes no state. A reserved op code is handled the same way by the step that takes it. An accepted
command raises no IllegalCommand. That an IllegalCommand which ends a decode call keeps OUT and OUT_LEN is no rule of the
spec but the model's deduction (DEDUCED, log 7). -/
def Obligations.UnacceptedCommandsAreIllegalOrIgnored : Prop :=
  (∀ (i : Instr) (s : State), ¬ Accepted s i →
    exec i s = .next (if s.status = .busy then { s with status := .error, errcode := .illegalCommand, errpos := 0 }
      else s)) ∧
  (∀ (s : State) (op : Byte) (a b : Word) (rest : List Turn),
    s.port = .command op a b :: rest →
    (op.toNat = 0x00 ∨ op.toNat = 0x07 ∨ op.toNat = 0x0D ∨ op.toNat = 0x0E ∨ 0x10 ≤ op.toNat) →
    step s = .next (if s.status = .busy then
        { s with port := rest, status := .error, errcode := .illegalCommand, errpos := 0 }
      else { s with port := rest })) ∧
  (∀ (i : Instr) (s : State), i.isToken = false → Accepted s i →
    ∃ t : State, exec i s = .next t ∧ (t.errcode = .illegalCommand → s.errcode = .illegalCommand))

/-- R262: HOST_WRITE_IN of a byte outside a call stores it at the index and nothing else, is refused with no effect past
IN_CAP, and is an IllegalCommand while BUSY (R266). An operand B that is no byte has a statement of its own.
That the IllegalCommand keeps OUT and OUT_LEN in a decode call is the model's deduction (DEDUCED, log 7). -/
def Obligations.HostWriteInStoresOneByte : Prop :=
  ∀ (s : State) (a b : Word),
    (s.status ≠ .busy → a.toNat < s.cfg.inCap → b.toNat < 256 →
      ∃ t : State, exec (.hostWriteIn a b) s = .next t ∧ t = { s with inMem := t.inMem } ∧
        ∀ j, (t.inByte j).toNat = if j = a.toNat then b.toNat else (s.inByte j).toNat) ∧
    (s.status ≠ .busy → s.cfg.inCap ≤ a.toNat → exec (.hostWriteIn a b) s = .next s) ∧
    (s.status = .busy → exec (.hostWriteIn a b) s = .next (s.raise .illegalCommand 0))

/-- The model's choice of log 9, no rule of the spec: HOST_WRITE_IN with an operand B above 255 still runs and stores some
byte, a free value, at the index, and nothing else but the model's own counter. -/
def Obligations.HostWriteInOfAWideOperandStoresSomeByte : Prop :=
  ∀ (s : State) (a b : Word), s.status ≠ .busy → a.toNat < s.cfg.inCap → 256 ≤ b.toNat →
    ∃ (t : State) (v : Byte), exec (.hostWriteIn a b) s = .next t ∧
      t = { s with inMem := t.inMem, drawn := s.drawn + 1 } ∧ ∀ j, t.inByte j = if j = a.toNat then v else s.inByte j

/-- R263: HOST_SET_IN_LEN outside a call sets IN_LEN up to IN_CAP, is refused above it, and is an IllegalCommand while
BUSY (R266), which in a decode call keeps OUT and OUT_LEN by the model's deduction (DEDUCED, log 7). -/
def Obligations.HostSetInLenWritesTheLength : Prop :=
  ∀ (s : State) (a : Word),
    (s.status ≠ .busy → a.toNat ≤ s.cfg.inCap → exec (.hostSetInLen a) s = .next { s with inLen := a.toNat }) ∧
    (s.status ≠ .busy → s.cfg.inCap < a.toNat → exec (.hostSetInLen a) s = .next s) ∧
    (s.status = .busy → exec (.hostSetInLen a) s = .next (s.raise .illegalCommand 0))

/-- R264: HOST_READ_OUT is always accepted and writes nothing: it returns `OUT[i]` below OUT_LEN when not BUSY, and some
byte otherwise (a free value, log 8; only the model's own counter moves). -/
def Obligations.HostReadOutReturnsAByte : Prop :=
  ∀ (s : State) (a : Word),
    (a.toNat < s.outLen → s.status ≠ .busy →
      exec (.hostReadOut a) s = .next { s with answers := .byte (s.outByte a.toNat) :: s.answers }) ∧
    (s.outLen ≤ a.toNat ∨ s.status = .busy →
      ∃ v : Byte, exec (.hostReadOut a) s = .next { s with answers := .byte v :: s.answers, drawn := s.drawn + 1 })

/-- R265, R102: HOST_READ_REG is always accepted, writes nothing and returns the register with that id, or 0 for an
unknown id. -/
def Obligations.HostReadRegReturnsTheRegister : Prop :=
  ∀ s : State,
    (∀ id v : Nat,
      (id, v) ∈ [(0, match s.mode with | .none => 0 | .encode => 1 | .decode => 2),
        (1, match s.status with | .idle => 0 | .busy => 1 | .done => 2 | .error => 3),
        (2, match s.errcode with
          | .none => 0 | .endOfInput => 1 | .corruptStream => 2 | .sizeMismatch => 3 | .outputOverrun => 4
          | .illegalParse => 5 | .illegalCommand => 6),
        (3, s.errpos), (4, match s.level with | .fast => 0 | .best => 1), (5, s.expLen), (6, s.ip), (7, s.tokstart),
        (8, s.ls.val), (9, match s.dph with | .first => 0 | .cmd => 1), (10, s.pos), (11, s.litCnt),
        (12, if s.started then 1 else 0), (13, s.hold0.toNat), (14, s.hold1.toNat), (15, if s.holdV then 1 else 0),
        (16, s.outLen), (17, s.inLen)] →
      exec (.hostReadReg (BitVec.ofNat 32 id)) s
        = .next { s with answers := .value (BitVec.ofNat 32 v) :: s.answers }) ∧
    (∀ a : Word, 18 ≤ a.toNat → exec (.hostReadReg a) s = .next { s with answers := .value 0 :: s.answers })

/-! ## The Hash Index -/

/-- R212, R213: the bucket of a position is the hash of its 4-byte prefix at FAST and of its 3-byte prefix at BEST, and is
one of the 2^14 buckets. -/
def Obligations.BucketIsTheHashOfThePrefix : Prop :=
  ∀ (s : State) (p : Nat),
    (s.level = .fast → bucketOf s p
      = (0x21 * ((((((s.inByte (p + 3)).toNat * 64) ^^^ (s.inByte (p + 2)).toNat) * 32 ^^^ (s.inByte (p + 1)).toNat) * 32)
          ^^^ (s.inByte p).toNat)) / 32 % 16384) ∧
    (s.level = .best → bucketOf s p
      = (0x21 * (((((s.inByte (p + 2)).toNat * 32) ^^^ (s.inByte (p + 1)).toNat) * 32)
          ^^^ (s.inByte p).toNat)) / 32 % 16384) ∧
    bucketOf s p < 2 ^ 14

/-- R214: an accepted IDX_INSERT whose prefix lies within the input puts the position at depth 0 of its bucket, moves every
other slot one deeper, drops what falls past CHAIN_DEPTH, and writes no other bucket and no other state; past the end it
has no effect. -/
def Obligations.IdxInsertPushesThePosition : Prop :=
  ∀ (s : State) (a : Word), s.mode = .encode → s.status = .busy →
    (a.toNat + (if s.level = .fast then 4 else 3) ≤ s.inLen →
      ∃ t : State, exec (.idxInsert a) s = .next t ∧ t = { s with bucket := t.bucket } ∧
        t.slot (bucketOf s a.toNat) 0 = some a.toNat ∧
        (∀ k, 1 ≤ k → k < (if s.level = .fast then 1 else 16) →
          t.slot (bucketOf s a.toNat) k = s.slot (bucketOf s a.toNat) (k - 1)) ∧
        (∀ k, (if s.level = .fast then 1 else 16) ≤ k → t.slot (bucketOf s a.toNat) k = none) ∧
        (∀ h k, h ≠ bucketOf s a.toNat → t.slot h k = s.slot h k)) ∧
    (s.inLen < a.toNat + (if s.level = .fast then 4 else 3) → exec (.idxInsert a) s = .next s)

/-- R215: an accepted IDX_LOOKUP returns the non-EMPTY slots of the position's bucket that lie before it, in slot order,
or the empty list past the input's end, and writes no state. -/
def Obligations.IdxLookupReturnsEarlierPositions : Prop :=
  ∀ (s : State) (a : Word), s.mode = .encode → s.status = .busy →
    exec (.idxLookup a) s = .next { s with
      answers := .positions (if a.toNat + (if s.level = .fast then 4 else 3) ≤ s.inLen then
          ((List.range (if s.level = .fast then 1 else 16)).filterMap
            (fun k => s.slot (bucketOf s a.toNat) k)).filter (fun q => q < a.toNat)
        else []) :: s.answers }

/-! ## The Token Encoder -/

/-- R177: an accepted ENC_LIT within the input extends the pending run by one byte and writes nothing else; past the input
it is an IllegalParse at POS. -/
def Obligations.EncLitExtendsThePendingRun : Prop :=
  ∀ s : State, s.mode = .encode → s.status = .busy →
    (s.pos < s.inLen → exec .encLit s = .next { s with litCnt := s.litCnt + 1, pos := s.pos + 1 }) ∧
    (s.inLen ≤ s.pos → exec .encLit s
      = .next { s with status := .error, errcode := .illegalParse, errpos := s.pos })

/-- R173: an accepted ENC_MATCH for which any of the five conditions holds is an IllegalParse at POS and writes nothing
else. -/
def Obligations.EncMatchRefusesAnIllegalParse : Prop :=
  ∀ (s : State) (a b : Word), s.mode = .encode → s.status = .busy → IllegalMatch a.toNat b.toNat s →
    exec (.encMatch a b) s = .next { s with status := .error, errcode := .illegalParse, errpos := s.pos }

/-- R174, R178: an accepted, legal ENC_MATCH with room in the Sink appends what FlushLiterals and FlushHold append and then
the token R174 chooses in the layout of 30_encoding.md, but for the token's last two bytes, which the hold register holds;
POS, LIT_CNT and STARTED move as R178 says and nothing else does. That OUT past the new OUT_LEN stays is the model's reading
(DEDUCED, log 23). -/
def Obligations.EncMatchWritesTheChosenToken : Prop :=
  ∀ (s : State) (a b : Word), s.mode = .encode → s.status = .busy → ¬ IllegalMatch a.toNat b.toNat s →
    s.holdV = s.started →
    s.outLen + (flushBytes s).length + (headBytes (chosenToken a.toNat b.toNat (litStateAt s))).length
      ≤ s.cfg.outCap + 2 →
    ∃ t : State, exec (.encMatch a b) s = .next t ∧
      t = { s with
        outMem := t.outMem, outLen := t.outLen, hold0 := t.hold0, hold1 := t.hold1, holdV := true
        litCnt := 0, started := true, pos := s.pos + b.toNat } ∧
      s.outLen ≤ t.outLen ∧
      t.outBytes s.outLen (t.outLen - s.outLen) ++ [t.hold0, t.hold1]
        = flushBytes s ++ headBytes (chosenToken a.toNat b.toNat (litStateAt s)) ∧
      ∀ j, j < s.outLen ∨ t.outLen ≤ j → t.outByte j = s.outByte j

/-- R182 to R186: what a legal ENC_MATCH leaves in the hold register and appends after the flush, class by class, as
numbers. -/
def Obligations.EncMatchEmitsTheClassBytes : Prop :=
  ∀ (s : State) (a b : Word) (d n : Nat), s.mode = .encode → s.status = .busy → d = a.toNat → n = b.toNat →
    ¬ IllegalMatch d n s → s.holdV = s.started →
    s.outLen + (flushBytes s).length + (headBytes (chosenToken d n (litStateAt s))).length ≤ s.cfg.outCap + 2 →
    ∃ (t : State) (emitted : List Byte), exec (.encMatch a b) s = .next t ∧ t.holdV = true ∧
      t.outLen = s.outLen + (flushBytes s).length + emitted.length ∧
      t.outBytes (s.outLen + (flushBytes s).length) emitted.length = emitted ∧
      (n = 2 → emitted = [] ∧ t.hold0.toNat = (d - 1) % 4 * 4 ∧ t.hold1.toNat = (d - 1) / 4) ∧
      (3 ≤ n → n ≤ 8 → d ≤ 2048 →
        emitted = [] ∧ t.hold0.toNat = (n - 1) * 32 + (d - 1) % 8 * 4 ∧ t.hold1.toNat = (d - 1) / 8) ∧
      (n = 3 → 2049 ≤ d → d ≤ 3072 → litStateAt s = 4 →
        emitted = [] ∧ t.hold0.toNat = (d - 2049) % 4 * 4 ∧ t.hold1.toNat = (d - 2049) / 4) ∧
      (d ≤ 16384 → n ≠ 2 → ¬ (n ≤ 8 ∧ d ≤ 2048) → ¬ (n = 3 ∧ d ≤ 3072 ∧ litStateAt s = 4) →
        emitted = (if n ≤ 33 then [byteOf (0x20 + (n - 2))] else 0x20 :: extBytes (n - 33)) ∧
        t.hold0.toNat = (d - 1) % 64 * 4 ∧ t.hold1.toNat = (d - 1) / 64) ∧
      (16385 ≤ d →
        emitted = (if n ≤ 9 then [byteOf (0x10 + (if 32768 ≤ d then 8 else 0) + (n - 2))]
          else byteOf (0x10 + (if 32768 ≤ d then 8 else 0)) :: extBytes (n - 9)) ∧
        t.hold0.toNat = (d - 16384) % 64 * 4 ∧ t.hold1.toNat = (d - 16384) / 64 % 256)

/-- R172, R174, R88: the token chosen for a legal ENC_MATCH exists in the format, carries that distance and length, and
may stand where the Decoder will read it, at the literal state LSat. -/
def Obligations.ChosenTokenSuitsTheDecoder : Prop :=
  ∀ (s : State) (d n : Nat) (ls : LitState), ¬ IllegalMatch d n s → ls.val = litStateAt s →
    (chosenToken d n (litStateAt s)).wf = true ∧
    matchOperands (chosenToken d n (litStateAt s)) = some (d, n, 0) ∧
    (chosenToken d n (litStateAt s)).fits .cmd ls = true

/-- R179, R187: an accepted ENC_END on a covered input with room in the Sink appends what the flushes append and the three
bytes `11 00 00`, ends the call DONE and writes nothing else but the pending and hold registers; on an input not covered
it is an IllegalParse at POS. That OUT past the new OUT_LEN stays is the model's reading (DEDUCED, log 23): R289 leaves it
open at the end of a call. -/
def Obligations.EncEndClosesTheStream : Prop :=
  ∀ s : State, s.mode = .encode → s.status = .busy →
    (s.pos = s.inLen → s.holdV = s.started → s.outLen + (flushBytes s).length + 3 ≤ s.cfg.outCap →
      ∃ t : State, exec .encEnd s = .next t ∧
        t = { s with
          outMem := t.outMem, outLen := s.outLen + (flushBytes s).length + 3, hold0 := t.hold0
          holdV := false, litCnt := 0, started := t.started, status := .done } ∧
        t.started = (s.started || decide (s.litCnt ≠ 0)) ∧
        t.hold0 = (if s.started = true ∧ 1 ≤ s.litCnt ∧ s.litCnt ≤ 3 then s.hold0 ||| byteOf s.litCnt else s.hold0) ∧
        t.outBytes s.outLen ((flushBytes s).length + 3) = flushBytes s ++ [0x11, 0x00, 0x00] ∧
        ∀ j, j < s.outLen ∨ t.outLen ≤ j → t.outByte j = s.outByte j) ∧
    (s.pos ≠ s.inLen → exec .encEnd s
      = .next { s with status := .error, errcode := .illegalParse, errpos := s.pos })

/-- R232, R252 for the Encoder: an accepted, legal ENC_MATCH or an ENC_END on a covered input without room in the Sink is
an OutputOverrun at POS: POS, MODE and the Decoder's registers keep their values, and the Sink is full with the bytes
appended so far after the bytes it held. -/
def Obligations.EncoderOverrunKeepsTheBytesSoFar : Prop :=
  ∀ (s : State) (i : Instr) (bs : List Byte), s.mode = .encode → s.status = .busy → s.holdV = s.started →
    s.outLen ≤ s.cfg.outCap →
    ((∃ a b : Word, i = .encMatch a b ∧ ¬ IllegalMatch a.toNat b.toNat s ∧
        bs = (flushBytes s ++ headBytes (chosenToken a.toNat b.toNat (litStateAt s))).take
          ((flushBytes s).length + (headBytes (chosenToken a.toNat b.toNat (litStateAt s))).length - 2))
      ∨ (i = .encEnd ∧ s.pos = s.inLen ∧ bs = flushBytes s ++ [0x11, 0x00, 0x00])) →
    s.cfg.outCap < s.outLen + bs.length →
    ∃ t : State, exec i s = .next t ∧
      t = { s with
        outMem := t.outMem, outLen := s.cfg.outCap, hold0 := t.hold0, holdV := t.holdV
        litCnt := t.litCnt, started := t.started
        status := .error, errcode := .outputOverrun, errpos := s.pos } ∧
      t.outBytes s.outLen (s.cfg.outCap - s.outLen) = bs.take (s.cfg.outCap - s.outLen) ∧
      ∀ j, j < s.outLen → t.outByte j = s.outByte j

/-- R175: the Encoder reads neither LEVEL nor BUCKET: with other values there it does the same. -/
def Obligations.EncoderIgnoresTheIndex : Prop :=
  ∀ (i : Instr) (s t : State) (l : Level) (b : Arena), (i = .encLit ∨ i = .encEnd ∨ ∃ x y, i = .encMatch x y) →
    exec i s = .next t →
    exec i { s with level := l, bucket := b } = .next { t with level := l, bucket := b }

/-! ## The token layouts -/

/-- R86, R87, R89: the two-byte match tokens are read from their bits. -/
def Obligations.TwoByteMatchesAreReadFromTheirBits : Prop :=
  ∀ (ls : LitState) (t b1 : Byte) (rest : List Byte),
    (t.toNat < 0x10 → ls ≠ 0 → ls ≠ 4 →
      decodeToken .cmd ls (t :: b1 :: rest)
        = .ok (.m1a (1 + t.toNat / 4 % 4 + 4 * b1.toNat) (Fin.ofNat 4 t.toNat), rest)) ∧
    (t.toNat < 0x10 → ls = 4 →
      decodeToken .cmd ls (t :: b1 :: rest)
        = .ok (.m1b (2049 + t.toNat / 4 % 4 + 4 * b1.toNat) (Fin.ofNat 4 t.toNat), rest)) ∧
    (0x40 ≤ t.toNat →
      decodeToken .cmd ls (t :: b1 :: rest)
        = .ok (.m2 (1 + t.toNat / 4 % 8 + 8 * b1.toNat) (t.toNat / 32 + 1) (Fin.ofNat 4 t.toNat), rest))

/-- R90, R91, R92, R94: the tokens with a distance word, inline and extended, are read from their bits; a word with
`H = 0` and a zero distance in the 0x10..0x1F class is END whatever its length and S bits. -/
def Obligations.DistanceWordTokensAreReadFromTheirBits : Prop :=
  ∀ (ls : LitState) (d0 d1 : Byte) (rest : List Byte) (w : Nat) (s : SField),
    w = (d0.toNat + 256 * d1.toNat) / 4 → s = Fin.ofNat 4 d0.toNat →
    (∀ f, 1 ≤ f → f ≤ 31 →
      decodeToken .cmd ls (byteOf (0x20 + f) :: d0 :: d1 :: rest) = .ok (.m3 (w + 1) (f + 2) s, rest)) ∧
    (∀ k, 1 ≤ k →
      decodeToken .cmd ls (0x20 :: (extBytes k ++ d0 :: d1 :: rest)) = .ok (.m3x (w + 1) (33 + k) s, rest)) ∧
    (∀ h f, h ≤ 1 → 1 ≤ f → f ≤ 7 →
      decodeToken .cmd ls (byteOf (0x10 + 8 * h + f) :: d0 :: d1 :: rest)
        = .ok (if h = 0 ∧ w = 0 then .endMarker (f + 2) s else .m4 (16384 + 16384 * h + w) (f + 2) s, rest)) ∧
    (∀ h k, h ≤ 1 → 1 ≤ k →
      decodeToken .cmd ls (byteOf (0x10 + 8 * h) :: (extBytes k ++ d0 :: d1 :: rest))
        = .ok (if h = 0 ∧ w = 0 then .endMarker (9 + k) s else .m4x (16384 + 16384 * h + w) (9 + k) s, rest))

/-- R93: WriteExt(k) is `⌈k/255⌉ - 1` zero bytes and a last byte in 1..255, and ReadExt(base) of those bytes returns
`base + k` and stops after them. -/
def Obligations.ReadExtUndoesWriteExt : Prop :=
  ∀ (base k : Nat) (rest : List Byte), 1 ≤ k →
    readExt base (extBytes k ++ rest) = some (base + k, rest) ∧
    ∃ (z : Nat) (r : Byte), extBytes k = List.replicate z 0 ++ [r] ∧ 1 ≤ r.toNat ∧ k = 255 * z + r.toNat

/-- R82, R97: no command byte is illegal: a token is rejected at DPH = CMD only when the bytes end inside it, every command
byte begins a token at every literal state, and at DPH = FIRST a byte is FIRSTLIT exactly from 0x12 on. -/
def Obligations.NoCommandByteIsIllegal : Prop :=
  (∀ (ls : LitState) (bs : List Byte) (r : Reject), decodeToken .cmd ls bs = .error r → r = .truncated) ∧
  (∀ (ls : LitState) (t : Byte), ∃ (bs : List Byte) (i : Instr), decodeToken .cmd ls (t :: bs) = .ok (i, [])) ∧
  (∀ (ls : LitState) (t : Byte) (bs : List Byte),
    (0x12 ≤ t.toNat → decodeToken .first ls (t :: bs) = .ok (.firstLit (t.toNat - 17), bs)) ∧
    (t.toNat ≤ 0x11 → decodeToken .first ls (t :: bs) = .error .notFirstRun))

/-- Decode undoes encode: every well-formed token, followed by any bytes, is read back from its encoding wherever it may
stand, with all its operands and nothing of what follows; every command is read back from its port word. -/
def Obligations.DecodeUndoesEncode : Prop :=
  (∀ (i : Instr) (ph : Phase) (ls : LitState) (rest : List Byte),
    i.isToken = true → i.wf = true → i.fits ph ls = true →
    decodeToken ph ls (headBytes i ++ rest) = .ok (i, rest)) ∧
  (∀ (i : Instr), i.isToken = false →
    ∃ (op : Byte) (a b : Word), encode i = .command op a b ∧ decodeCommand op a b = .ok i)

/-- Encode undoes decode: what the decoder reads is a well-formed token that may stand there, and the bytes it read are
exactly that token's encoding, so no two byte sequences are the same token and no bit is dropped. -/
def Obligations.EncodeUndoesDecode : Prop :=
  ∀ (ph : Phase) (ls : LitState) (bs : List Byte) (i : Instr) (rest : List Byte),
    decodeToken ph ls bs = .ok (i, rest) →
    i.isToken = true ∧ i.wf = true ∧ i.fits ph ls = true ∧ bs = headBytes i ++ rest

/-- Words written out bit by bit from 30_encoding.md, one of each family, decode to the instruction they stand for
(95_test_vectors.md V-D1, V-D3, V-D12, V-D18, V-D19, V-D22, V-D23, V-D25 and R101). -/
def Obligations.SpelledOutWordsDecode : Prop :=
  decodeToken .first 0 [0b00010100#8, 0x61] = .ok (.firstLit 3, [0x61]) ∧
  decodeToken .cmd 0 [0b00000001#8] = .ok (.lit 4, []) ∧
  decodeToken .cmd 2 [0b00000100#8, 0b00000000#8] = .ok (.m1a 2 0, []) ∧
  decodeToken .cmd 3 [0b01001000#8, 0b00000000#8] = .ok (.m2 3 3 0, []) ∧
  decodeToken .cmd 1 [0b00110001#8, 0b00000000#8, 0b00000000#8] = .ok (.m3 1 19 0, []) ∧
  decodeToken .cmd 1 [0b00100000#8, 0b00000001#8, 0b00000000#8, 0b00000000#8] = .ok (.m3x 1 34 0, []) ∧
  decodeToken .cmd 4 [0b00011011#8, 0b00000000#8, 0b00000000#8] = .ok (.m4 32768 5 0, []) ∧
  decodeToken .cmd 4 [0b00011000#8, 0b00011111#8, 0b00000000#8, 0b00000000#8] = .ok (.m4x 32768 40 0, []) ∧
  decodeToken .cmd 0 [0b00010001#8, 0b00000000#8, 0b00000000#8] = .ok (.endMarker 3 0, []) ∧
  decodeCommand 0b00000011#8 3 6 = .ok (.encMatch 3 6) ∧
  decodeCommand 0b00001100#8 16 0 = .ok (.hostReadReg 16) ∧
  decodeCommand 0b00000111#8 0 0 = .error (.reservedOp 7)

/-! ## The Token Decoder -/

/-- R120, R276: where the Decoder does not run, a step that takes no command changes nothing but the port's own list. -/
def Obligations.IdleBlockTakesNoStep : Prop :=
  ∀ (s : State) (rest : List Turn), s.decoderTurn rest → ¬ (s.mode = .decode ∧ s.status = .busy) →
    step s = .next { s with port := rest }

/-- A step runs the decoded instruction: a command at the head of the port in the state without it; a token of the running
Decoder with TOKSTART at the token and IP past its head, and after the first literal run `DPH <- CMD` unless an error
ended the call (R101, R121, R122, 60_exceptions.md R252; logs 1 and 13). -/
def Obligations.StepRunsTheDecodedInstruction : Prop :=
  (∀ (s : State) (op : Byte) (a b : Word) (rest : List Turn) (i : Instr),
    s.port = .command op a b :: rest → decodeCommand op a b = .ok i → step s = exec i { s with port := rest }) ∧
  (∀ (s : State) (rest : List Turn) (i : Instr) (more : List Byte),
    s.decoderTurn rest → s.mode = .decode → s.status = .busy → s.dph = .cmd →
    decodeToken .cmd s.ls (s.inBytes s.ip (s.inLen - s.ip)) = .ok (i, more) →
    step s = exec i { s with port := rest, tokstart := s.ip, ip := s.ip + (s.inLen - s.ip - more.length) }) ∧
  (∀ (s t : State) (rest : List Turn),
    s.decoderTurn rest → s.mode = .decode → s.status = .busy → s.dph = .first → s.inLen ≠ 0 →
    0x12 ≤ (s.inByte 0).toNat →
    exec (.firstLit ((s.inByte 0).toNat - 17)) { s with port := rest, tokstart := 0, ip := s.ip + 1 } = .next t →
    step s = .next (if t.status = .error then t else { t with dph := .cmd }))

/-- R121, without FIRSTLIT's own work: the START step on an empty stream is EndOfInput at 0, and on a first byte below 0x12
it consumes nothing and sets `DPH <- CMD`. -/
def Obligations.StartStepWithoutAFirstRun : Prop :=
  ∀ (s : State) (rest : List Turn),
    s.decoderTurn rest → s.mode = .decode → s.status = .busy → s.dph = .first →
    (s.inLen = 0 → step s = .next ({ s with port := rest, tokstart := 0 }.decoderError .endOfInput)) ∧
    (s.inLen ≠ 0 → (s.inByte 0).toNat ≤ 0x11 →
      step s = .next { s with port := rest, tokstart := 0, dph := .cmd })

/-- R93, R122: where the input ends inside a token's head, or before it, the step is EndOfInput with ERRPOS at the token
and IP at the end of the input. -/
def Obligations.TruncatedTokenIsEndOfInput : Prop :=
  ∀ (s : State) (rest : List Turn) (r : Reject),
    s.decoderTurn rest → s.mode = .decode → s.status = .busy → s.dph = .cmd → s.ip ≤ s.inLen →
    decodeToken .cmd s.ls (s.inBytes s.ip (s.inLen - s.ip)) = .error r →
    step s = .next ({ s with port := rest, tokstart := s.ip, ip := s.inLen }.decoderError .endOfInput)

/-- R26, R138, R252: a Decoder error sets STATUS, ERRCODE and ERRPOS (to TOKSTART); every register but OUT_LEN keeps its
value. OUT and OUT_LEN become free values (93 U1, log 6). -/
def Obligations.DecoderErrorKeepsTheOtherRegisters : Prop :=
  ∀ (s : State) (e : ErrCode),
    s.decoderError e = { s with
      status := .error, errcode := e, errpos := s.tokstart
      outMem := (s.decoderError e).outMem, outEpoch := (s.decoderError e).outEpoch
      outLen := (s.decoderError e).outLen, drawn := (s.decoderError e).drawn } ∧
    (∀ a, (s.decoderError e).outByte a = Config.freeOutByte s.drawn a) ∧
    (s.decoderError e).outLen = (Config.freeOutLen s.drawn).toNat

/-- R123, with R126 to R128 for LS: a literal-run token (FIRSTLIT, LIT, LITX) whose `L` bytes are in the input and fit the
Sink copies them in order, sets LS to `min(L, 4)` and changes nothing else; otherwise the first byte that is missing
(EndOfInput) or does not fit (OutputOverrun, after it has been read) ends the call, the input check first. That OUT past
the new OUT_LEN stays is the model's reading (DEDUCED, log 23). -/
def Obligations.LiteralRunTokensCopyTheirBytes : Prop :=
  ∀ (i : Instr) (len : Nat) (s : State), runLength i = some len → i.wf = true → s.outLen ≤ s.cfg.outCap →
    (s.inputLeft len → s.roomFor len →
      ∃ t : State, exec i s = .next t ∧
        t = { s with ip := s.ip + len, outLen := s.outLen + len, outMem := t.outMem, ls := t.ls } ∧
        t.ls.val = min len 4 ∧
        (∀ k, k < len → t.outByte (s.outLen + k) = s.inByte (s.ip + k)) ∧
        ∀ j, j < s.outLen ∨ t.outLen ≤ j → t.outByte j = s.outByte j) ∧
    (s.ip ≤ s.inLen → ¬ s.inputLeft len → s.roomFor (s.inLen - s.ip) →
      exec i s = .next ({ s with ip := s.inLen }.decoderError .endOfInput)) ∧
    (¬ s.roomFor len → s.inputLeft (s.cfg.outCap - s.outLen + 1) →
      exec i s = .next ({ s with ip := s.ip + (s.cfg.outCap - s.outLen) + 1 }.decoderError .outputOverrun))

/-- R124, R125, R234: a match token whose distance lies within the output and whose bytes and trailing literals fit appends
the last `d` bytes repeated to `n` bytes, then S literals, sets LS to S and changes nothing else. That OUT
past the new OUT_LEN stays is the model's reading (DEDUCED, log 23). -/
def Obligations.MatchTokensRepeatEarlierOutput : Prop :=
  ∀ (i : Instr) (d n : Nat) (sf : SField) (s : State), matchOperands i = some (d, n, sf) →
    1 ≤ d → d ≤ s.outLen → s.roomFor (n + sf.val) → s.inputLeft sf.val →
    ∃ t : State, exec i s = .next t ∧
      t = { s with ip := s.ip + sf.val, outLen := s.outLen + n + sf.val, outMem := t.outMem, ls := t.ls } ∧
      t.ls.val = sf.val ∧
      (∀ k, k < n → t.outByte (s.outLen + k) = s.outByte (s.outLen - d + k % d)) ∧
      (∀ k, k < sf.val → t.outByte (s.outLen + n + k) = s.inByte (s.ip + k)) ∧
      ∀ j, j < s.outLen ∨ t.outLen ≤ j → t.outByte j = s.outByte j

/-- R124, R136 for a match token: the look-behind check comes first and leaves every register as it is (CorruptStream),
then the copy (OutputOverrun), then the trailing literals, input check before output check. -/
def Obligations.MatchTokenErrorsComeInOrder : Prop :=
  ∀ (i : Instr) (d n : Nat) (sf : SField) (s : State), matchOperands i = some (d, n, sf) →
    1 ≤ d → s.outLen ≤ s.cfg.outCap →
    (s.outLen < d → exec i s = .next (s.decoderError .corruptStream)) ∧
    (d ≤ s.outLen → ¬ s.roomFor n → exec i s = .next (s.decoderError .outputOverrun)) ∧
    (d ≤ s.outLen → s.roomFor (n + (s.inLen - s.ip)) → s.ip ≤ s.inLen → ¬ s.inputLeft sf.val →
      exec i s = .next ({ s with ip := s.inLen }.decoderError .endOfInput)) ∧
    (d ≤ s.outLen → s.roomFor n → ¬ s.roomFor (n + sf.val) → s.inputLeft (s.cfg.outCap - s.outLen - n + 1) →
      exec i s = .next
        ({ s with ip := s.ip + (s.cfg.outCap - s.outLen - n) + 1 }.decoderError .outputOverrun))

/-- R140: END with EXP_LEN 0 or equal to OUT_LEN ends the call DONE and writes nothing else, whatever its length and S bits;
otherwise it is a SizeMismatch. -/
def Obligations.EndTokenChecksTheExpectedLength : Prop :=
  ∀ (n : Nat) (sf : SField) (s : State),
    (s.expLen = 0 ∨ s.outLen = s.expLen → exec (.endMarker n sf) s = .next { s with status := .done }) ∧
    (s.expLen ≠ 0 → s.outLen ≠ s.expLen → exec (.endMarker n sf) s = .next (s.decoderError .sizeMismatch))

/-- R141: every token step of the running Decoder consumes at least one byte of input or ends the call. -/
def Obligations.EveryTokenStepConsumesInput : Prop :=
  ∀ (s t : State) (rest : List Turn),
    s.decoderTurn rest → s.mode = .decode → s.status = .busy → s.dph = .cmd → s.outLen ≤ s.cfg.outCap →
    s.ip ≤ s.inLen → step s = .next t →
    (t.status = .done ∨ t.status = .error) ∨ (t.status = .busy ∧ s.ip < t.ip ∧ t.ip ≤ t.inLen ∧ t.inLen = s.inLen)

/-- R141, R288: a decode call left to the Decoder ends after at most `IN_LEN + 1` steps with DONE or ERROR. (A token step
that goes on consumes at least two bytes, so the bound holds although a START step may consume none.) -/
def Obligations.DecodeCallEndsWithinItsBound : Prop :=
  ∀ s : State, s.mode = .decode → s.status = .busy → s.dph = .first → s.ip = 0 → s.ls = 0 → s.outLen = 0 →
    s.port = [] →
    ∃ t : State, steps (s.inLen + 1) s = some t ∧ (t.status = .done ∨ t.status = .error)

/-- R141: a Decoder step is a function of the valid input, EXP_LEN, OUT_CAP and the Decoder's own state: two running
Decoders that agree on those agree on them after the step. After an error OUT and OUT_LEN are not compared (93 U1). -/
def Obligations.DecoderDependsOnNothingElse : Prop :=
  ∀ (s t s' t' : State) (r r' : List Turn), SameDecoding s t → s.mode = .decode → s.status = .busy →
    s.outLen ≤ s.cfg.outCap → (s.dph = .first → s.ip = 0) →
    s.decoderTurn r → t.decoderTurn r' → step s = .next s' → step t = .next t' → SameDecoding s' t'

/-! ## The whole machine -/

/-- The state after reset has the invariant; so has the state after power-on at any legal capacities. -/
def Obligations.InvariantHoldsAfterReset : Prop :=
  Inv State.reset ∧ ∀ p : Params, p.valid → Inv (State.powerOn p)

/-- Every step keeps the invariant: memories canonical and within their capacities, chains within the geometry, registers
within their widths and bounds, error registers only in ERROR, the idle unit at its reset values, IP within the input,
10_state.md R41 (a) to (c). -/
def Obligations.EveryStepKeepsTheInvariant : Prop :=
  ∀ s t : State, Inv s → step s = .next t → Inv t

/-- R22, R284: during a call no step but a RESET command writes IN or IN_LEN. -/
def Obligations.InputIsImmutableDuringACall : Prop :=
  ∀ s t : State, s.status = .busy → step s = .next t →
    (t.inLen = s.inLen ∧ ∀ a, t.inByte a = s.inByte a) ∨
      ∃ (op : Byte) (a b : Word) (rest : List Turn), s.port = .command op a b :: rest ∧ op.toNat = 0x0F

/-- R23, R27: MODE is written only by ENC_START (ENCODE), DEC_START (DECODE) and RESET (NONE), and LEVEL only by ENC_START
and RESET. -/
def Obligations.ModeAndLevelHaveTheirWriters : Prop :=
  ∀ (i : Instr) (s t : State), exec i s = .next t →
    (t.mode ≠ s.mode →
      ((∃ a, i = .encStart a) ∧ t.mode = .encode) ∨ ((∃ a, i = .decStart a) ∧ t.mode = .decode)
        ∨ (i = .reset ∧ t.mode = .none)) ∧
    (t.level ≠ s.level → (∃ a, i = .encStart a) ∨ i = .reset)

/-- R38, R218: BUCKET is written only by IDX_INSERT, ENC_START and RESET, and the Index's commands write no register of any
other unit and nothing of OUT. -/
def Obligations.BucketHasItsWriters : Prop :=
  ∀ (i : Instr) (s t : State), exec i s = .next t →
    (t.bucket ≠ s.bucket → (∃ a, i = .idxInsert a) ∨ (∃ a, i = .encStart a) ∨ i = .reset) ∧
    (∀ a, i = .idxInsert a ∨ i = .idxLookup a → Accepted s i →
      t = { s with bucket := t.bucket, answers := t.answers })

/-- R24, R250, R254: a call that has ended stays ended, with its error registers, its output and its registers, until a
start command or RESET: whatever else is presented, a step changes only IN, IN_LEN, the answers and the model's own
fields. -/
def Obligations.EndedCallWaitsForAStart : Prop :=
  ∀ s t : State, s.status ≠ .busy → step s = .next t →
    t = { s with inMem := t.inMem, inLen := t.inLen, answers := t.answers, drawn := t.drawn, port := t.port } ∨
      ∃ (op : Byte) (a b : Word) (rest : List Turn), s.port = .command op a b :: rest ∧
        (op.toNat = 0x01 ∨ op.toNat = 0x08 ∨ op.toNat = 0x0F)

/-- R42, R231: during a call the output only grows: after a step that leaves the call without a Decoder error, and is no
RESET, every byte the Sink held is still there. -/
def Obligations.OutputOnlyGrowsDuringACall : Prop :=
  ∀ s t : State, s.status = .busy → step s = .next t →
    (s.outLen ≤ t.outLen ∧ ∀ a, a < s.outLen → t.outByte a = s.outByte a) ∨
      (t.mode = .decode ∧ t.status = .error) ∨ (t.mode = .none ∧ t.status = .idle)

/-- The capacities are fixed, no instruction touches the port, and each returns at most one result: the model's own
conventions (00_scope.md R7, R20; logs 1, 2, 4 and 19). -/
def Obligations.InstructionsLeaveThePortAlone : Prop :=
  ∀ (i : Instr) (s t : State), exec i s = .next t →
    t.cfg = s.cfg ∧ t.port = s.port ∧ (t.answers = s.answers ∨ ∃ x, t.answers = x :: s.answers)

/-- No instruction ever faults or is refused: errors are next states (60_exceptions.md R250, R252; log 21). -/
def Obligations.EveryInstructionRuns : Prop :=
  ∀ (i : Instr) (s : State), ∃ t : State, exec i s = .next t

/-- R188, the round trip: for every parse the Encoder accepts, with index commands anywhere in it, a decode call on the
stream it wrote, with EXP_LEN the length of the input and room for it, ends DONE with the encode call's input as its output
and IP at the end of the stream. -/
def Obligations.EncodedStreamDecodesToItsInput : Prop :=
  ∀ (s t u : State) (a : Word) (parse : List Instr),
    s.status ≠ .busy → s.inLen < 2 ^ 32 → (∀ i ∈ parse, isParseCommand i = true) →
    runAll (.encStart a :: parse ++ [.encEnd]) s = some t → t.status = .done →
    u.status ≠ .busy → u.port = [] → u.inLen = t.outLen → (∀ k, k < t.outLen → u.inByte k = t.outByte k) →
    s.inLen ≤ u.cfg.outCap →
    ∃ u' v : State, exec (.decStart (BitVec.ofNat 32 s.inLen)) u = .next u' ∧
      steps (u.inLen + 1) u' = some v ∧
      v.status = .done ∧ v.outLen = s.inLen ∧ v.ip = u.inLen ∧ ∀ k, k < s.inLen → v.outByte k = s.inByte k

/-- R189, the size bound: a stream the Encoder finishes has at most `IN_LEN + ⌊IN_LEN/4⌋ + 4` bytes, whatever the parse. -/
def Obligations.EncodedStreamIsWithinTheSizeBound : Prop :=
  ∀ (s t : State) (a : Word) (parse : List Instr),
    s.status ≠ .busy → (∀ i ∈ parse, isParseCommand i = true) →
    runAll (.encStart a :: parse ++ [.encEnd]) s = some t → t.status = .done →
    t.outLen ≤ s.inLen + s.inLen / 4 + 4

/-! ## The host's read of IN -/

/-- R39, row IN: the host may read IN whatever STATUS is. The step of such a read answers `IN[a]` and changes nothing else;
past IN_CAP, where IN has no byte (R21), it answers some byte and changes nothing else but the model's own counter. That the
read is a turn of its own, that it is allowed during a call and up to IN_CAP, and what it answers past IN_CAP, is the
model's choice (DESIGN CHOICE, log 22). -/
def Obligations.HostReadOfInReturnsTheByte : Prop :=
  ∀ (s : State) (a : Word) (rest : List Turn), s.port = .readIn a :: rest →
    (a.toNat < s.cfg.inCap →
      step s = .next { s with port := rest, answers := .byte (s.inByte a.toNat) :: s.answers }) ∧
    (s.cfg.inCap ≤ a.toNat →
      ∃ v : Byte, step s = .next { s with port := rest, answers := .byte v :: s.answers, drawn := s.drawn + 1 })
end

