-- ==== Sys2Proof/Laws/State.lean ====
section
/-! SUPPORT. One lemma per field and named update of the state, so that no later proof unfolds a record update. -/

namespace Sys2Proof.Machine

/-! `raise`. -/

@[simp] theorem State.raise_cfg (e : ErrCode) (info : Nat) (s : State) : (s.raise e info).cfg = s.cfg := rfl
@[simp] theorem State.raise_inMem (e : ErrCode) (info : Nat) (s : State) : (s.raise e info).inMem = s.inMem := rfl
@[simp] theorem State.raise_inEpoch (e : ErrCode) (info : Nat) (s : State) : (s.raise e info).inEpoch = s.inEpoch := rfl
@[simp] theorem State.raise_inLen (e : ErrCode) (info : Nat) (s : State) : (s.raise e info).inLen = s.inLen := rfl
@[simp] theorem State.raise_mode (e : ErrCode) (info : Nat) (s : State) : (s.raise e info).mode = s.mode := rfl
@[simp] theorem State.raise_status (e : ErrCode) (info : Nat) (s : State) : (s.raise e info).status = .error := rfl
@[simp] theorem State.raise_errcode (e : ErrCode) (info : Nat) (s : State) : (s.raise e info).errcode = e := rfl
@[simp] theorem State.raise_errpos (e : ErrCode) (info : Nat) (s : State) : (s.raise e info).errpos = info := rfl
@[simp] theorem State.raise_level (e : ErrCode) (info : Nat) (s : State) : (s.raise e info).level = s.level := rfl
@[simp] theorem State.raise_expLen (e : ErrCode) (info : Nat) (s : State) : (s.raise e info).expLen = s.expLen := rfl
@[simp] theorem State.raise_ip (e : ErrCode) (info : Nat) (s : State) : (s.raise e info).ip = s.ip := rfl
@[simp] theorem State.raise_tokstart (e : ErrCode) (info : Nat) (s : State) : (s.raise e info).tokstart = s.tokstart := rfl
@[simp] theorem State.raise_ls (e : ErrCode) (info : Nat) (s : State) : (s.raise e info).ls = s.ls := rfl
@[simp] theorem State.raise_dph (e : ErrCode) (info : Nat) (s : State) : (s.raise e info).dph = s.dph := rfl
@[simp] theorem State.raise_pos (e : ErrCode) (info : Nat) (s : State) : (s.raise e info).pos = s.pos := rfl
@[simp] theorem State.raise_litCnt (e : ErrCode) (info : Nat) (s : State) : (s.raise e info).litCnt = s.litCnt := rfl
@[simp] theorem State.raise_started (e : ErrCode) (info : Nat) (s : State) : (s.raise e info).started = s.started := rfl
@[simp] theorem State.raise_hold0 (e : ErrCode) (info : Nat) (s : State) : (s.raise e info).hold0 = s.hold0 := rfl
@[simp] theorem State.raise_hold1 (e : ErrCode) (info : Nat) (s : State) : (s.raise e info).hold1 = s.hold1 := rfl
@[simp] theorem State.raise_holdV (e : ErrCode) (info : Nat) (s : State) : (s.raise e info).holdV = s.holdV := rfl
@[simp] theorem State.raise_outMem (e : ErrCode) (info : Nat) (s : State) : (s.raise e info).outMem = s.outMem := rfl
@[simp] theorem State.raise_outEpoch (e : ErrCode) (info : Nat) (s : State) : (s.raise e info).outEpoch = s.outEpoch := rfl
@[simp] theorem State.raise_outLen (e : ErrCode) (info : Nat) (s : State) : (s.raise e info).outLen = s.outLen := rfl
@[simp] theorem State.raise_bucket (e : ErrCode) (info : Nat) (s : State) : (s.raise e info).bucket = s.bucket := rfl
@[simp] theorem State.raise_port (e : ErrCode) (info : Nat) (s : State) : (s.raise e info).port = s.port := rfl
@[simp] theorem State.raise_answers (e : ErrCode) (info : Nat) (s : State) : (s.raise e info).answers = s.answers := rfl
@[simp] theorem State.raise_drawn (e : ErrCode) (info : Nat) (s : State) : (s.raise e info).drawn = s.drawn := rfl

/-! `loseOutput`. -/

@[simp] theorem State.loseOutput_cfg (s : State) : (s.loseOutput).cfg = s.cfg := rfl
@[simp] theorem State.loseOutput_inMem (s : State) : (s.loseOutput).inMem = s.inMem := rfl
@[simp] theorem State.loseOutput_inEpoch (s : State) : (s.loseOutput).inEpoch = s.inEpoch := rfl
@[simp] theorem State.loseOutput_inLen (s : State) : (s.loseOutput).inLen = s.inLen := rfl
@[simp] theorem State.loseOutput_mode (s : State) : (s.loseOutput).mode = s.mode := rfl
@[simp] theorem State.loseOutput_status (s : State) : (s.loseOutput).status = s.status := rfl
@[simp] theorem State.loseOutput_errcode (s : State) : (s.loseOutput).errcode = s.errcode := rfl
@[simp] theorem State.loseOutput_errpos (s : State) : (s.loseOutput).errpos = s.errpos := rfl
@[simp] theorem State.loseOutput_level (s : State) : (s.loseOutput).level = s.level := rfl
@[simp] theorem State.loseOutput_expLen (s : State) : (s.loseOutput).expLen = s.expLen := rfl
@[simp] theorem State.loseOutput_ip (s : State) : (s.loseOutput).ip = s.ip := rfl
@[simp] theorem State.loseOutput_tokstart (s : State) : (s.loseOutput).tokstart = s.tokstart := rfl
@[simp] theorem State.loseOutput_ls (s : State) : (s.loseOutput).ls = s.ls := rfl
@[simp] theorem State.loseOutput_dph (s : State) : (s.loseOutput).dph = s.dph := rfl
@[simp] theorem State.loseOutput_pos (s : State) : (s.loseOutput).pos = s.pos := rfl
@[simp] theorem State.loseOutput_litCnt (s : State) : (s.loseOutput).litCnt = s.litCnt := rfl
@[simp] theorem State.loseOutput_started (s : State) : (s.loseOutput).started = s.started := rfl
@[simp] theorem State.loseOutput_hold0 (s : State) : (s.loseOutput).hold0 = s.hold0 := rfl
@[simp] theorem State.loseOutput_hold1 (s : State) : (s.loseOutput).hold1 = s.hold1 := rfl
@[simp] theorem State.loseOutput_holdV (s : State) : (s.loseOutput).holdV = s.holdV := rfl
@[simp] theorem State.loseOutput_outMem (s : State) : (s.loseOutput).outMem = [] := rfl
@[simp] theorem State.loseOutput_outEpoch (s : State) : (s.loseOutput).outEpoch = s.drawn := rfl
@[simp] theorem State.loseOutput_outLen (s : State) : (s.loseOutput).outLen = (Config.freeOutLen s.drawn).toNat := rfl
@[simp] theorem State.loseOutput_bucket (s : State) : (s.loseOutput).bucket = s.bucket := rfl
@[simp] theorem State.loseOutput_port (s : State) : (s.loseOutput).port = s.port := rfl
@[simp] theorem State.loseOutput_answers (s : State) : (s.loseOutput).answers = s.answers := rfl
@[simp] theorem State.loseOutput_drawn (s : State) : (s.loseOutput).drawn = s.drawn + 1 := rfl

/-! `decoderError`. -/

@[simp] theorem State.decoderError_cfg (e : ErrCode) (s : State) : (s.decoderError e).cfg = s.cfg := rfl
@[simp] theorem State.decoderError_inMem (e : ErrCode) (s : State) : (s.decoderError e).inMem = s.inMem := rfl
@[simp] theorem State.decoderError_inEpoch (e : ErrCode) (s : State) : (s.decoderError e).inEpoch = s.inEpoch := rfl
@[simp] theorem State.decoderError_inLen (e : ErrCode) (s : State) : (s.decoderError e).inLen = s.inLen := rfl
@[simp] theorem State.decoderError_mode (e : ErrCode) (s : State) : (s.decoderError e).mode = s.mode := rfl
@[simp] theorem State.decoderError_status (e : ErrCode) (s : State) : (s.decoderError e).status = .error := rfl
@[simp] theorem State.decoderError_errcode (e : ErrCode) (s : State) : (s.decoderError e).errcode = e := rfl
@[simp] theorem State.decoderError_errpos (e : ErrCode) (s : State) : (s.decoderError e).errpos = s.tokstart := rfl
@[simp] theorem State.decoderError_level (e : ErrCode) (s : State) : (s.decoderError e).level = s.level := rfl
@[simp] theorem State.decoderError_expLen (e : ErrCode) (s : State) : (s.decoderError e).expLen = s.expLen := rfl
@[simp] theorem State.decoderError_ip (e : ErrCode) (s : State) : (s.decoderError e).ip = s.ip := rfl
@[simp] theorem State.decoderError_tokstart (e : ErrCode) (s : State) : (s.decoderError e).tokstart = s.tokstart := rfl
@[simp] theorem State.decoderError_ls (e : ErrCode) (s : State) : (s.decoderError e).ls = s.ls := rfl
@[simp] theorem State.decoderError_dph (e : ErrCode) (s : State) : (s.decoderError e).dph = s.dph := rfl
@[simp] theorem State.decoderError_pos (e : ErrCode) (s : State) : (s.decoderError e).pos = s.pos := rfl
@[simp] theorem State.decoderError_litCnt (e : ErrCode) (s : State) : (s.decoderError e).litCnt = s.litCnt := rfl
@[simp] theorem State.decoderError_started (e : ErrCode) (s : State) : (s.decoderError e).started = s.started := rfl
@[simp] theorem State.decoderError_hold0 (e : ErrCode) (s : State) : (s.decoderError e).hold0 = s.hold0 := rfl
@[simp] theorem State.decoderError_hold1 (e : ErrCode) (s : State) : (s.decoderError e).hold1 = s.hold1 := rfl
@[simp] theorem State.decoderError_holdV (e : ErrCode) (s : State) : (s.decoderError e).holdV = s.holdV := rfl
@[simp] theorem State.decoderError_outMem (e : ErrCode) (s : State) : (s.decoderError e).outMem = [] := rfl
@[simp] theorem State.decoderError_outEpoch (e : ErrCode) (s : State) : (s.decoderError e).outEpoch = s.drawn := rfl
@[simp] theorem State.decoderError_outLen (e : ErrCode) (s : State) : (s.decoderError e).outLen = (Config.freeOutLen s.drawn).toNat := rfl
@[simp] theorem State.decoderError_bucket (e : ErrCode) (s : State) : (s.decoderError e).bucket = s.bucket := rfl
@[simp] theorem State.decoderError_port (e : ErrCode) (s : State) : (s.decoderError e).port = s.port := rfl
@[simp] theorem State.decoderError_answers (e : ErrCode) (s : State) : (s.decoderError e).answers = s.answers := rfl
@[simp] theorem State.decoderError_drawn (e : ErrCode) (s : State) : (s.decoderError e).drawn = s.drawn + 1 := rfl

/-! `encoderError`. -/

@[simp] theorem State.encoderError_cfg (e : ErrCode) (s : State) : (s.encoderError e).cfg = s.cfg := rfl
@[simp] theorem State.encoderError_inMem (e : ErrCode) (s : State) : (s.encoderError e).inMem = s.inMem := rfl
@[simp] theorem State.encoderError_inEpoch (e : ErrCode) (s : State) : (s.encoderError e).inEpoch = s.inEpoch := rfl
@[simp] theorem State.encoderError_inLen (e : ErrCode) (s : State) : (s.encoderError e).inLen = s.inLen := rfl
@[simp] theorem State.encoderError_mode (e : ErrCode) (s : State) : (s.encoderError e).mode = s.mode := rfl
@[simp] theorem State.encoderError_status (e : ErrCode) (s : State) : (s.encoderError e).status = .error := rfl
@[simp] theorem State.encoderError_errcode (e : ErrCode) (s : State) : (s.encoderError e).errcode = e := rfl
@[simp] theorem State.encoderError_errpos (e : ErrCode) (s : State) : (s.encoderError e).errpos = s.pos := rfl
@[simp] theorem State.encoderError_level (e : ErrCode) (s : State) : (s.encoderError e).level = s.level := rfl
@[simp] theorem State.encoderError_expLen (e : ErrCode) (s : State) : (s.encoderError e).expLen = s.expLen := rfl
@[simp] theorem State.encoderError_ip (e : ErrCode) (s : State) : (s.encoderError e).ip = s.ip := rfl
@[simp] theorem State.encoderError_tokstart (e : ErrCode) (s : State) : (s.encoderError e).tokstart = s.tokstart := rfl
@[simp] theorem State.encoderError_ls (e : ErrCode) (s : State) : (s.encoderError e).ls = s.ls := rfl
@[simp] theorem State.encoderError_dph (e : ErrCode) (s : State) : (s.encoderError e).dph = s.dph := rfl
@[simp] theorem State.encoderError_pos (e : ErrCode) (s : State) : (s.encoderError e).pos = s.pos := rfl
@[simp] theorem State.encoderError_litCnt (e : ErrCode) (s : State) : (s.encoderError e).litCnt = s.litCnt := rfl
@[simp] theorem State.encoderError_started (e : ErrCode) (s : State) : (s.encoderError e).started = s.started := rfl
@[simp] theorem State.encoderError_hold0 (e : ErrCode) (s : State) : (s.encoderError e).hold0 = s.hold0 := rfl
@[simp] theorem State.encoderError_hold1 (e : ErrCode) (s : State) : (s.encoderError e).hold1 = s.hold1 := rfl
@[simp] theorem State.encoderError_holdV (e : ErrCode) (s : State) : (s.encoderError e).holdV = s.holdV := rfl
@[simp] theorem State.encoderError_outMem (e : ErrCode) (s : State) : (s.encoderError e).outMem = s.outMem := rfl
@[simp] theorem State.encoderError_outEpoch (e : ErrCode) (s : State) : (s.encoderError e).outEpoch = s.outEpoch := rfl
@[simp] theorem State.encoderError_outLen (e : ErrCode) (s : State) : (s.encoderError e).outLen = s.outLen := rfl
@[simp] theorem State.encoderError_bucket (e : ErrCode) (s : State) : (s.encoderError e).bucket = s.bucket := rfl
@[simp] theorem State.encoderError_port (e : ErrCode) (s : State) : (s.encoderError e).port = s.port := rfl
@[simp] theorem State.encoderError_answers (e : ErrCode) (s : State) : (s.encoderError e).answers = s.answers := rfl
@[simp] theorem State.encoderError_drawn (e : ErrCode) (s : State) : (s.encoderError e).drawn = s.drawn := rfl

/-! `push`. -/

@[simp] theorem State.push_cfg (v : Byte) (s : State) : (s.push v).cfg = s.cfg := rfl
@[simp] theorem State.push_inMem (v : Byte) (s : State) : (s.push v).inMem = s.inMem := rfl
@[simp] theorem State.push_inEpoch (v : Byte) (s : State) : (s.push v).inEpoch = s.inEpoch := rfl
@[simp] theorem State.push_inLen (v : Byte) (s : State) : (s.push v).inLen = s.inLen := rfl
@[simp] theorem State.push_mode (v : Byte) (s : State) : (s.push v).mode = s.mode := rfl
@[simp] theorem State.push_status (v : Byte) (s : State) : (s.push v).status = s.status := rfl
@[simp] theorem State.push_errcode (v : Byte) (s : State) : (s.push v).errcode = s.errcode := rfl
@[simp] theorem State.push_errpos (v : Byte) (s : State) : (s.push v).errpos = s.errpos := rfl
@[simp] theorem State.push_level (v : Byte) (s : State) : (s.push v).level = s.level := rfl
@[simp] theorem State.push_expLen (v : Byte) (s : State) : (s.push v).expLen = s.expLen := rfl
@[simp] theorem State.push_ip (v : Byte) (s : State) : (s.push v).ip = s.ip := rfl
@[simp] theorem State.push_tokstart (v : Byte) (s : State) : (s.push v).tokstart = s.tokstart := rfl
@[simp] theorem State.push_ls (v : Byte) (s : State) : (s.push v).ls = s.ls := rfl
@[simp] theorem State.push_dph (v : Byte) (s : State) : (s.push v).dph = s.dph := rfl
@[simp] theorem State.push_pos (v : Byte) (s : State) : (s.push v).pos = s.pos := rfl
@[simp] theorem State.push_litCnt (v : Byte) (s : State) : (s.push v).litCnt = s.litCnt := rfl
@[simp] theorem State.push_started (v : Byte) (s : State) : (s.push v).started = s.started := rfl
@[simp] theorem State.push_hold0 (v : Byte) (s : State) : (s.push v).hold0 = s.hold0 := rfl
@[simp] theorem State.push_hold1 (v : Byte) (s : State) : (s.push v).hold1 = s.hold1 := rfl
@[simp] theorem State.push_holdV (v : Byte) (s : State) : (s.push v).holdV = s.holdV := rfl
@[simp] theorem State.push_outMem (v : Byte) (s : State) : (s.push v).outMem = insertAt s.outLen v s.outMem := rfl
@[simp] theorem State.push_outEpoch (v : Byte) (s : State) : (s.push v).outEpoch = s.outEpoch := rfl
@[simp] theorem State.push_outLen (v : Byte) (s : State) : (s.push v).outLen = s.outLen + 1 := rfl
@[simp] theorem State.push_bucket (v : Byte) (s : State) : (s.push v).bucket = s.bucket := rfl
@[simp] theorem State.push_port (v : Byte) (s : State) : (s.push v).port = s.port := rfl
@[simp] theorem State.push_answers (v : Byte) (s : State) : (s.push v).answers = s.answers := rfl
@[simp] theorem State.push_drawn (v : Byte) (s : State) : (s.push v).drawn = s.drawn := rfl

/-! `hold`. -/

@[simp] theorem State.hold_cfg (b0 b1 : Nat) (s : State) : (s.hold b0 b1).cfg = s.cfg := rfl
@[simp] theorem State.hold_inMem (b0 b1 : Nat) (s : State) : (s.hold b0 b1).inMem = s.inMem := rfl
@[simp] theorem State.hold_inEpoch (b0 b1 : Nat) (s : State) : (s.hold b0 b1).inEpoch = s.inEpoch := rfl
@[simp] theorem State.hold_inLen (b0 b1 : Nat) (s : State) : (s.hold b0 b1).inLen = s.inLen := rfl
@[simp] theorem State.hold_mode (b0 b1 : Nat) (s : State) : (s.hold b0 b1).mode = s.mode := rfl
@[simp] theorem State.hold_status (b0 b1 : Nat) (s : State) : (s.hold b0 b1).status = s.status := rfl
@[simp] theorem State.hold_errcode (b0 b1 : Nat) (s : State) : (s.hold b0 b1).errcode = s.errcode := rfl
@[simp] theorem State.hold_errpos (b0 b1 : Nat) (s : State) : (s.hold b0 b1).errpos = s.errpos := rfl
@[simp] theorem State.hold_level (b0 b1 : Nat) (s : State) : (s.hold b0 b1).level = s.level := rfl
@[simp] theorem State.hold_expLen (b0 b1 : Nat) (s : State) : (s.hold b0 b1).expLen = s.expLen := rfl
@[simp] theorem State.hold_ip (b0 b1 : Nat) (s : State) : (s.hold b0 b1).ip = s.ip := rfl
@[simp] theorem State.hold_tokstart (b0 b1 : Nat) (s : State) : (s.hold b0 b1).tokstart = s.tokstart := rfl
@[simp] theorem State.hold_ls (b0 b1 : Nat) (s : State) : (s.hold b0 b1).ls = s.ls := rfl
@[simp] theorem State.hold_dph (b0 b1 : Nat) (s : State) : (s.hold b0 b1).dph = s.dph := rfl
@[simp] theorem State.hold_pos (b0 b1 : Nat) (s : State) : (s.hold b0 b1).pos = s.pos := rfl
@[simp] theorem State.hold_litCnt (b0 b1 : Nat) (s : State) : (s.hold b0 b1).litCnt = s.litCnt := rfl
@[simp] theorem State.hold_started (b0 b1 : Nat) (s : State) : (s.hold b0 b1).started = s.started := rfl
@[simp] theorem State.hold_hold0 (b0 b1 : Nat) (s : State) : (s.hold b0 b1).hold0 = byteOf b0 := rfl
@[simp] theorem State.hold_hold1 (b0 b1 : Nat) (s : State) : (s.hold b0 b1).hold1 = byteOf b1 := rfl
@[simp] theorem State.hold_holdV (b0 b1 : Nat) (s : State) : (s.hold b0 b1).holdV = true := rfl
@[simp] theorem State.hold_outMem (b0 b1 : Nat) (s : State) : (s.hold b0 b1).outMem = s.outMem := rfl
@[simp] theorem State.hold_outEpoch (b0 b1 : Nat) (s : State) : (s.hold b0 b1).outEpoch = s.outEpoch := rfl
@[simp] theorem State.hold_outLen (b0 b1 : Nat) (s : State) : (s.hold b0 b1).outLen = s.outLen := rfl
@[simp] theorem State.hold_bucket (b0 b1 : Nat) (s : State) : (s.hold b0 b1).bucket = s.bucket := rfl
@[simp] theorem State.hold_port (b0 b1 : Nat) (s : State) : (s.hold b0 b1).port = s.port := rfl
@[simp] theorem State.hold_answers (b0 b1 : Nat) (s : State) : (s.hold b0 b1).answers = s.answers := rfl
@[simp] theorem State.hold_drawn (b0 b1 : Nat) (s : State) : (s.hold b0 b1).drawn = s.drawn := rfl

/-! `answer`. -/

@[simp] theorem State.answer_cfg (x : Answer) (s : State) : (s.answer x).cfg = s.cfg := rfl
@[simp] theorem State.answer_inMem (x : Answer) (s : State) : (s.answer x).inMem = s.inMem := rfl
@[simp] theorem State.answer_inEpoch (x : Answer) (s : State) : (s.answer x).inEpoch = s.inEpoch := rfl
@[simp] theorem State.answer_inLen (x : Answer) (s : State) : (s.answer x).inLen = s.inLen := rfl
@[simp] theorem State.answer_mode (x : Answer) (s : State) : (s.answer x).mode = s.mode := rfl
@[simp] theorem State.answer_status (x : Answer) (s : State) : (s.answer x).status = s.status := rfl
@[simp] theorem State.answer_errcode (x : Answer) (s : State) : (s.answer x).errcode = s.errcode := rfl
@[simp] theorem State.answer_errpos (x : Answer) (s : State) : (s.answer x).errpos = s.errpos := rfl
@[simp] theorem State.answer_level (x : Answer) (s : State) : (s.answer x).level = s.level := rfl
@[simp] theorem State.answer_expLen (x : Answer) (s : State) : (s.answer x).expLen = s.expLen := rfl
@[simp] theorem State.answer_ip (x : Answer) (s : State) : (s.answer x).ip = s.ip := rfl
@[simp] theorem State.answer_tokstart (x : Answer) (s : State) : (s.answer x).tokstart = s.tokstart := rfl
@[simp] theorem State.answer_ls (x : Answer) (s : State) : (s.answer x).ls = s.ls := rfl
@[simp] theorem State.answer_dph (x : Answer) (s : State) : (s.answer x).dph = s.dph := rfl
@[simp] theorem State.answer_pos (x : Answer) (s : State) : (s.answer x).pos = s.pos := rfl
@[simp] theorem State.answer_litCnt (x : Answer) (s : State) : (s.answer x).litCnt = s.litCnt := rfl
@[simp] theorem State.answer_started (x : Answer) (s : State) : (s.answer x).started = s.started := rfl
@[simp] theorem State.answer_hold0 (x : Answer) (s : State) : (s.answer x).hold0 = s.hold0 := rfl
@[simp] theorem State.answer_hold1 (x : Answer) (s : State) : (s.answer x).hold1 = s.hold1 := rfl
@[simp] theorem State.answer_holdV (x : Answer) (s : State) : (s.answer x).holdV = s.holdV := rfl
@[simp] theorem State.answer_outMem (x : Answer) (s : State) : (s.answer x).outMem = s.outMem := rfl
@[simp] theorem State.answer_outEpoch (x : Answer) (s : State) : (s.answer x).outEpoch = s.outEpoch := rfl
@[simp] theorem State.answer_outLen (x : Answer) (s : State) : (s.answer x).outLen = s.outLen := rfl
@[simp] theorem State.answer_bucket (x : Answer) (s : State) : (s.answer x).bucket = s.bucket := rfl
@[simp] theorem State.answer_port (x : Answer) (s : State) : (s.answer x).port = s.port := rfl
@[simp] theorem State.answer_answers (x : Answer) (s : State) : (s.answer x).answers = x :: s.answers := rfl
@[simp] theorem State.answer_drawn (x : Answer) (s : State) : (s.answer x).drawn = s.drawn := rfl

/-! `answerFree`. -/

@[simp] theorem State.answerFree_cfg (s : State) : s.answerFree.cfg = s.cfg := rfl
@[simp] theorem State.answerFree_inMem (s : State) : s.answerFree.inMem = s.inMem := rfl
@[simp] theorem State.answerFree_inEpoch (s : State) : s.answerFree.inEpoch = s.inEpoch := rfl
@[simp] theorem State.answerFree_inLen (s : State) : s.answerFree.inLen = s.inLen := rfl
@[simp] theorem State.answerFree_mode (s : State) : s.answerFree.mode = s.mode := rfl
@[simp] theorem State.answerFree_status (s : State) : s.answerFree.status = s.status := rfl
@[simp] theorem State.answerFree_errcode (s : State) : s.answerFree.errcode = s.errcode := rfl
@[simp] theorem State.answerFree_errpos (s : State) : s.answerFree.errpos = s.errpos := rfl
@[simp] theorem State.answerFree_level (s : State) : s.answerFree.level = s.level := rfl
@[simp] theorem State.answerFree_expLen (s : State) : s.answerFree.expLen = s.expLen := rfl
@[simp] theorem State.answerFree_ip (s : State) : s.answerFree.ip = s.ip := rfl
@[simp] theorem State.answerFree_tokstart (s : State) : s.answerFree.tokstart = s.tokstart := rfl
@[simp] theorem State.answerFree_ls (s : State) : s.answerFree.ls = s.ls := rfl
@[simp] theorem State.answerFree_dph (s : State) : s.answerFree.dph = s.dph := rfl
@[simp] theorem State.answerFree_pos (s : State) : s.answerFree.pos = s.pos := rfl
@[simp] theorem State.answerFree_litCnt (s : State) : s.answerFree.litCnt = s.litCnt := rfl
@[simp] theorem State.answerFree_started (s : State) : s.answerFree.started = s.started := rfl
@[simp] theorem State.answerFree_hold0 (s : State) : s.answerFree.hold0 = s.hold0 := rfl
@[simp] theorem State.answerFree_hold1 (s : State) : s.answerFree.hold1 = s.hold1 := rfl
@[simp] theorem State.answerFree_holdV (s : State) : s.answerFree.holdV = s.holdV := rfl
@[simp] theorem State.answerFree_outMem (s : State) : s.answerFree.outMem = s.outMem := rfl
@[simp] theorem State.answerFree_outEpoch (s : State) : s.answerFree.outEpoch = s.outEpoch := rfl
@[simp] theorem State.answerFree_outLen (s : State) : s.answerFree.outLen = s.outLen := rfl
@[simp] theorem State.answerFree_bucket (s : State) : s.answerFree.bucket = s.bucket := rfl
@[simp] theorem State.answerFree_port (s : State) : s.answerFree.port = s.port := rfl
@[simp] theorem State.answerFree_answers (s : State) : s.answerFree.answers = .byte (Config.freeReadByte s.drawn) :: s.answers := rfl
@[simp] theorem State.answerFree_drawn (s : State) : s.answerFree.drawn = s.drawn + 1 := rfl

end Sys2Proof.Machine
end

