-- ==== Sys2Proof/Laws/Storage.lean ====
section
/-! SUPPORT. Sparse storage: a read after a write, every other key, and the canonical form kept. -/

namespace Sys2Proof.Machine

variable {α : Type}

theorem lookup_insertAt_self (k : Nat) (v : α) (m : List (Nat × α)) : lookup k (insertAt k v m) = some v := by
  induction m with
  | nil => simp [insertAt, lookup]
  | cons e rest ih =>
    obtain ⟨k', v'⟩ := e
    simp only [insertAt]
    split
    · simp [lookup]
    · split
      · simp [lookup]
      · simp [lookup, *]

theorem lookup_insertAt_ne {j k : Nat} (h : j ≠ k) (v : α) (m : List (Nat × α)) :
    lookup j (insertAt k v m) = lookup j m := by
  induction m with
  | nil => simp [insertAt, lookup, h]
  | cons e rest ih =>
    obtain ⟨k', v'⟩ := e
    simp only [insertAt]
    split
    · simp [lookup, h]
    · split
      · rename_i hk; subst hk; simp [lookup, h]
      · simp [lookup, ih]

/-- Reading any key after a write. -/
theorem lookup_insertAt (j k : Nat) (v : α) (m : List (Nat × α)) :
    lookup j (insertAt k v m) = if j = k then some v else lookup j m := by
  by_cases h : j = k
  · subst h; simp [lookup_insertAt_self]
  · simp [h, lookup_insertAt_ne h]

/-- The keys after a write are the old ones and the one written. -/
theorem mem_insertAt {k : Nat} {v : α} {m : List (Nat × α)} {e : Nat × α} (h : e ∈ insertAt k v m) :
    e = (k, v) ∨ e ∈ m := by
  induction m with
  | nil => simpa [insertAt] using h
  | cons e' rest ih =>
    obtain ⟨k', v'⟩ := e'
    simp only [insertAt] at h
    split at h
    · simpa using h
    · split at h
      · rename_i hk
        rcases List.mem_cons.1 h with rfl | h'
        · simp
        · simp [h']
      · rcases List.mem_cons.1 h with rfl | h'
        · simp
        · rcases ih h' with rfl | h'' <;> simp [*]

theorem rising_cons {k : Nat} {v : α} {m : List (Nat × α)} :
    rising ((k, v) :: m) = true ↔ (∀ e ∈ m, k < e.1) ∧ rising m = true := by
  simp [rising]

/-- A write keeps the keys rising. -/
theorem rising_insertAt (k : Nat) (v : α) {m : List (Nat × α)} (h : rising m = true) :
    rising (insertAt k v m) = true := by
  induction m with
  | nil => simp [insertAt, rising]
  | cons e rest ih =>
    obtain ⟨k', v'⟩ := e
    rw [rising_cons] at h
    simp only [insertAt]
    split
    · rename_i hk
      rw [rising_cons, rising_cons]
      refine ⟨?_, h⟩
      intro e he
      rcases List.mem_cons.1 he with rfl | he
      · exact hk
      · exact hk.trans (h.1 e he)
    · split
      · rename_i _ hk
        subst hk
        exact rising_cons.2 h
      · rename_i h1 h2
        rw [rising_cons]
        refine ⟨?_, ih h.2⟩
        intro e he
        rcases mem_insertAt he with rfl | he
        · simp only; omega
        · exact h.1 e he

/-- Every memory operation keeps the canonical form. -/
theorem Memory.wf_insertAt (a : Nat) (v : Byte) {m : Memory} (h : Memory.wf m = true) :
    Memory.wf (insertAt a v m) = true :=
  rising_insertAt a v h

/-- Storing a list of bytes keeps the canonical form. -/
theorem Memory.wf_storeAt (a : Nat) (vs : List Byte) {m : Memory} (h : Memory.wf m = true) :
    Memory.wf (storeAt a vs m) = true := by
  induction vs generalizing a m with
  | nil => exact h
  | cons v vs ih => exact ih (a + 1) (Memory.wf_insertAt a v h)

/-- Listing a chain that is not empty keeps the arena's canonical form. -/
theorem Arena.wf_insertAt (h : Nat) {c : List Nat} (hc : c ≠ []) {b : Arena} (hb : Arena.wf b = true) :
    Arena.wf (insertAt h c b) = true := by
  simp only [Arena.wf, Bool.and_eq_true, List.all_eq_true, decide_eq_true_eq] at hb ⊢
  refine ⟨rising_insertAt h c hb.1, ?_⟩
  intro e he
  rcases mem_insertAt he with rfl | he
  · exact hc
  · exact hb.2 e he

/-- The memories of the state after reset are in canonical form. -/
theorem reset_memories_wf : Memory.wf State.reset.inMem = true ∧ Memory.wf State.reset.outMem = true := by
  decide

/-! Blocks of bytes. -/

@[simp] theorem State.inBytes_length (s : State) (a n : Nat) : (s.inBytes a n).length = n := by
  induction n generalizing a with
  | zero => rfl
  | succ n ih => simp [State.inBytes, ih]

@[simp] theorem State.outBytes_length (s : State) (a n : Nat) : (s.outBytes a n).length = n := by
  induction n generalizing a with
  | zero => rfl
  | succ n ih => simp [State.outBytes, ih]

theorem State.inBytes_getElem (s : State) (a n : Nat) {i : Nat} (h : i < (s.inBytes a n).length) :
    (s.inBytes a n)[i] = s.inByte (a + i) := by
  induction n generalizing a i with
  | zero => simp at h
  | succ n ih =>
    cases i with
    | zero => rfl
    | succ i =>
      simp only [State.inBytes, List.getElem_cons_succ]
      rw [ih (a + 1) (by simpa using h)]
      congr 1; omega

theorem State.outBytes_getElem (s : State) (a n : Nat) {i : Nat} (h : i < (s.outBytes a n).length) :
    (s.outBytes a n)[i] = s.outByte (a + i) := by
  induction n generalizing a i with
  | zero => simp at h
  | succ n ih =>
    cases i with
    | zero => rfl
    | succ i =>
      simp only [State.outBytes, List.getElem_cons_succ]
      rw [ih (a + 1) (by simpa using h)]
      congr 1; omega

/-- Two states that read the same over a block have the same block. -/
theorem State.inBytes_congr {s t : State} {a n : Nat} (h : ∀ i, i < n → s.inByte (a + i) = t.inByte (a + i)) :
    s.inBytes a n = t.inBytes a n := by
  apply List.ext_getElem (by simp)
  intro i h1 h2
  rw [State.inBytes_getElem, State.inBytes_getElem]
  exact h i (by simpa using h1)

theorem State.inBytes_append (s : State) (a m n : Nat) :
    s.inBytes a (m + n) = s.inBytes a m ++ s.inBytes (a + m) n := by
  induction m generalizing a with
  | zero => simp [State.inBytes]
  | succ m ih =>
    rw [Nat.succ_add, State.inBytes, State.inBytes, ih]
    simp [Nat.add_assoc, Nat.add_comm 1 m]

theorem State.outBytes_append (s : State) (a m n : Nat) :
    s.outBytes a (m + n) = s.outBytes a m ++ s.outBytes (a + m) n := by
  induction m generalizing a with
  | zero => simp [State.outBytes]
  | succ m ih =>
    rw [Nat.succ_add, State.outBytes, State.outBytes, ih]
    simp [Nat.add_assoc, Nat.add_comm 1 m]

/-- IN reads the same where IN's list and epoch are the same. -/
theorem State.inByte_congr {s t : State} (h1 : s.inMem = t.inMem) (h2 : s.inEpoch = t.inEpoch) (a : Nat) :
    s.inByte a = t.inByte a := by
  simp [State.inByte, h1, h2]

/-- OUT reads the same where OUT's list and epoch are the same. -/
theorem State.outByte_congr {s t : State} (h1 : s.outMem = t.outMem) (h2 : s.outEpoch = t.outEpoch) (a : Nat) :
    s.outByte a = t.outByte a := by
  simp [State.outByte, h1, h2]

/-- Blocks of IN depend on IN alone. -/
theorem State.inBytes_of_inMem {s t : State} (h1 : s.inMem = t.inMem) (h2 : s.inEpoch = t.inEpoch) (a n : Nat) :
    s.inBytes a n = t.inBytes a n :=
  State.inBytes_congr fun _ _ => State.inByte_congr h1 h2 _

/-- Blocks of OUT depend on OUT alone. -/
theorem State.outBytes_of_outMem {s t : State} (h1 : s.outMem = t.outMem) (h2 : s.outEpoch = t.outEpoch) (a n : Nat) :
    s.outBytes a n = t.outBytes a n := by
  apply List.ext_getElem (by simp)
  intro i hs ht
  rw [State.outBytes_getElem, State.outBytes_getElem]
  exact State.outByte_congr h1 h2 _

end Sys2Proof.Machine
end

