-- ==== Sys2Proof/Laws/Work.lean ====
section
/-! SUPPORT. What each shared operation can do, said once: the Sink's appends, the Decoder's copies, the Encoder's
flushes. Later proofs cite these closed forms instead of unfolding the operations. -/

namespace Sys2Proof.Machine

@[simp] theorem Attempt.andThen_done (s : State) (f : State → Attempt) : (Attempt.done s).andThen f = f s := rfl

@[simp] theorem Attempt.andThen_failed (e : ErrCode) (s : State) (f : State → Attempt) :
    (Attempt.failed e s).andThen f = .failed e s := rfl

@[simp] theorem Attempt.closeToken_done (s : State) : (Attempt.done s).closeToken = .next s := rfl

@[simp] theorem Attempt.closeToken_failed (e : ErrCode) (s : State) :
    (Attempt.failed e s).closeToken = .next (s.decoderError e) := rfl

@[simp] theorem Attempt.closeCommand_done (s : State) : (Attempt.done s).closeCommand = .next s := rfl

@[simp] theorem Attempt.closeCommand_failed (e : ErrCode) (s : State) :
    (Attempt.failed e s).closeCommand = .next (s.encoderError e) := rfl

theorem Attempt.andThen_assoc (x : Attempt) (f g : State → Attempt) :
    (x.andThen f).andThen g = x.andThen fun s => (f s).andThen g := by
  cases x <;> rfl

/-- A carried-out chain is carried out in both parts. -/
theorem Attempt.andThen_eq_done {x : Attempt} {f : State → Attempt} {t : State} :
    x.andThen f = .done t ↔ ∃ s, x = .done s ∧ f s = .done t := by
  cases x <;> simp

/-- A chain fails in its first part, or in its second after the first was carried out. -/
theorem Attempt.andThen_eq_failed {x : Attempt} {f : State → Attempt} {e : ErrCode} {t : State} :
    x.andThen f = .failed e t ↔ x = .failed e t ∨ ∃ s, x = .done s ∧ f s = .failed e t := by
  cases x <;> simp

/-! Appending. -/

/-- Append a list of bytes, without the capacity check. -/
def State.pushAll (bs : List Byte) (s : State) : State :=
  { s with outMem := storeAt s.outLen bs s.outMem, outLen := s.outLen + bs.length }

@[simp] theorem State.pushAll_nil (s : State) : s.pushAll [] = s := rfl

theorem State.pushAll_cons (v : Byte) (vs : List Byte) (s : State) : s.pushAll (v :: vs) = (s.push v).pushAll vs := by
  simp [State.pushAll, State.push, storeAt, Nat.add_assoc, Nat.add_comm 1]

theorem State.pushAll_append (bs cs : List Byte) (s : State) : s.pushAll (bs ++ cs) = (s.pushAll bs).pushAll cs := by
  induction bs generalizing s with
  | nil => rfl
  | cons v vs ih => rw [List.cons_append, State.pushAll_cons, ih, ← State.pushAll_cons]

@[simp] theorem State.pushAll_outLen (bs : List Byte) (s : State) : (s.pushAll bs).outLen = s.outLen + bs.length := rfl
@[simp] theorem State.pushAll_cfg (bs : List Byte) (s : State) : (s.pushAll bs).cfg = s.cfg := rfl
@[simp] theorem State.pushAll_ip (bs : List Byte) (s : State) : (s.pushAll bs).ip = s.ip := rfl
@[simp] theorem State.pushAll_inLen (bs : List Byte) (s : State) : (s.pushAll bs).inLen = s.inLen := rfl
@[simp] theorem State.pushAll_pos (bs : List Byte) (s : State) : (s.pushAll bs).pos = s.pos := rfl
@[simp] theorem State.pushAll_litCnt (bs : List Byte) (s : State) : (s.pushAll bs).litCnt = s.litCnt := rfl
@[simp] theorem State.pushAll_inByte (bs : List Byte) (s : State) (a : Nat) : (s.pushAll bs).inByte a = s.inByte a := rfl

theorem State.inBytes_of_inByte {s t : State} (h : ∀ a, s.inByte a = t.inByte a) (a n : Nat) :
    s.inBytes a n = t.inBytes a n :=
  State.inBytes_congr fun i _ => h (a + i)

@[simp] theorem State.pushAll_inBytes (bs : List Byte) (s : State) (a n : Nat) :
    (s.pushAll bs).inBytes a n = s.inBytes a n :=
  State.inBytes_of_inByte (fun b => State.pushAll_inByte bs s b) a n

theorem State.outByte_push (v : Byte) (s : State) (a : Nat) :
    (s.push v).outByte a = if a = s.outLen then v else s.outByte a := by
  simp only [State.outByte, State.push_outMem, State.push_outEpoch, lookup_insertAt]
  split <;> simp

/-- OUT after an append: the appended bytes from OUT_LEN on, and everything else as before. -/
theorem State.outByte_pushAll (bs : List Byte) (s : State) (a : Nat) :
    (s.pushAll bs).outByte a
      = if h : s.outLen ≤ a ∧ a - s.outLen < bs.length then bs[a - s.outLen]'h.2 else s.outByte a := by
  induction bs generalizing s with
  | nil => simp
  | cons v vs ih =>
    rw [State.pushAll_cons, ih, State.push_outLen]
    by_cases h : a = s.outLen
    · subst h; simp [State.outByte_push]
    · by_cases h1 : s.outLen ≤ a ∧ a - s.outLen < (v :: vs).length
      · have h2 : s.outLen + 1 ≤ a ∧ a - (s.outLen + 1) < vs.length := by
          simp only [List.length_cons] at h1; omega
        rw [dif_pos h2, dif_pos h1]
        have h3 : a - s.outLen = (a - (s.outLen + 1)) + 1 := by omega
        simp [h3]
      · have h2 : ¬ (s.outLen + 1 ≤ a ∧ a - (s.outLen + 1) < vs.length) := by
          simp only [List.length_cons] at h1; omega
        rw [dif_neg h2, dif_neg h1, State.outByte_push, if_neg h]

/-- The appended block reads back as the list appended. -/
theorem State.outBytes_pushAll (bs : List Byte) (s : State) : (s.pushAll bs).outBytes s.outLen bs.length = bs := by
  apply List.ext_getElem (by simp)
  intro i h1 h2
  rw [State.outBytes_getElem, State.outByte_pushAll, dif_pos ⟨by omega, by simpa using h2⟩]
  simp

/-- Below OUT_LEN nothing changes. -/
theorem State.outByte_pushAll_lt (bs : List Byte) {s : State} {a : Nat} (h : a < s.outLen) :
    (s.pushAll bs).outByte a = s.outByte a := by
  rw [State.outByte_pushAll, dif_neg (by omega)]

/-- Past the appended bytes nothing changes. -/
theorem State.outByte_pushAll_ge (bs : List Byte) {s : State} {a : Nat} (h : s.outLen + bs.length ≤ a) :
    (s.pushAll bs).outByte a = s.outByte a := by
  rw [State.outByte_pushAll, dif_neg (by omega)]

/-- `SinkAppend` of a list: all of it where there is room, otherwise as much as there is room for and OutputOverrun. -/
theorem sinkAppendAll_eq (bs : List Byte) {s : State} (h : s.outLen ≤ s.cfg.outCap) :
    sinkAppendAll bs s
      = if s.roomFor bs.length then .done (s.pushAll bs)
        else .failed .outputOverrun (s.pushAll (bs.take (s.cfg.outCap - s.outLen))) := by
  induction bs generalizing s with
  | nil => simp [sinkAppendAll, h]
  | cons v vs ih =>
    simp only [sinkAppendAll, sinkAppend]
    by_cases hc : s.outLen = s.cfg.outCap
    · have : ¬ s.roomFor (v :: vs).length := by simp [State.roomFor]; omega
      rw [if_pos hc, if_neg this]; simp [hc]
    · rw [if_neg hc, Attempt.andThen_done, ih (by simp; omega)]
      have h1 : (s.push v).roomFor vs.length ↔ s.roomFor (v :: vs).length := by
        simp [State.roomFor, Nat.add_assoc, Nat.add_comm 1]
      simp only [h1]
      have h2 : s.cfg.outCap - s.outLen = (s.cfg.outCap - (s.push v).outLen) + 1 := by simp; omega
      rw [h2, List.take_succ_cons, State.pushAll_cons, State.pushAll_cons]; rfl

theorem sinkAppendAll_done {bs : List Byte} {s : State} (h : s.roomFor bs.length) :
    sinkAppendAll bs s = .done (s.pushAll bs) := by
  rw [sinkAppendAll_eq bs (by simp only [State.roomFor] at h; omega), if_pos h]

/-! The Decoder's copies. -/

/-- How many more bytes the input holds. -/
abbrev State.avail (s : State) : Nat := s.inLen - s.ip

/-- How many more bytes the Sink takes. -/
abbrev State.room (s : State) : Nat := s.cfg.outCap - s.outLen

/-- The literal copy: both checks pass for every byte, or the input ends first, or the Sink is full first (the byte that
did not fit has been read). -/
theorem copyLiterals_eq (n : Nat) {s : State} (h : s.outLen ≤ s.cfg.outCap) :
    copyLiterals n s
      = if n ≤ s.avail ∧ n ≤ s.room then .done ({ s with ip := s.ip + n }.pushAll (s.inBytes s.ip n))
        else if s.avail ≤ s.room then
          .failed .endOfInput ({ s with ip := s.ip + s.avail }.pushAll (s.inBytes s.ip s.avail))
        else
          .failed .outputOverrun ({ s with ip := s.ip + s.room + 1 }.pushAll (s.inBytes s.ip s.room)) := by
  induction n generalizing s with
  | zero => simp [copyLiterals, State.inBytes]
  | succ n ih =>
    simp only [copyLiterals, copyLiteral, sinkAppend]
    by_cases h1 : s.inLen ≤ s.ip
    · have h2 : ¬ (n + 1 ≤ s.avail ∧ n + 1 ≤ s.room) := by simp only [State.avail]; omega
      have h3 : s.avail = 0 := by simp only [State.avail]; omega
      rw [if_pos h1, if_neg h2]; simp [h3, State.inBytes]
    · rw [if_neg h1]
      by_cases h4 : s.outLen = s.cfg.outCap
      · have h2 : ¬ (n + 1 ≤ s.avail ∧ n + 1 ≤ s.room) := by simp only [State.room]; omega
        have h5 : ¬ s.avail ≤ s.room := by simp only [State.avail, State.room]; omega
        have h6 : s.room = 0 := by simp only [State.room]; omega
        rw [if_pos (by exact h4), if_neg h2, if_neg h5]; simp [h6, State.inBytes]
      · rw [if_neg (by exact h4), Attempt.andThen_done, ih (by simp; omega)]
        generalize hs1 : ({ s with ip := s.ip + 1 } : State).push (s.inByte s.ip) = s1
        have a1 : s.avail = s1.avail + 1 := by subst hs1; simp only [State.avail, State.push_ip, State.push_inLen]; omega
        have a2 : s.room = s1.room + 1 := by
          subst hs1; simp only [State.room, State.push_cfg, State.push_outLen]; omega
        have a3 : s1.ip = s.ip + 1 := by subst hs1; rfl
        have key : ∀ x m, ({ s1 with ip := x } : State).pushAll (s1.inBytes (s.ip + 1) m)
            = ({ s with ip := x } : State).pushAll (s.inBytes s.ip (m + 1)) := by
          intro x m
          have : s1.inBytes (s.ip + 1) m = s.inBytes (s.ip + 1) m := by
            subst hs1; exact State.inBytes_congr fun i _ => State.inByte_congr (by rfl) (by rfl) _
          rw [this, State.inBytes, State.pushAll_cons]; subst hs1; rfl
        simp only [a1, a2, a3, Nat.add_le_add_iff_right, Nat.add_assoc, Nat.add_comm 1, key]

/-- The bytes a match copy of distance `d` appends: the last `d` bytes repeated (43_sink.md R234). -/
def State.pattern (s : State) (d n : Nat) : List Byte :=
  (List.range n).map fun i => s.outByte (s.outLen - d + i % d)

@[simp] theorem State.pattern_length (s : State) (d n : Nat) : (s.pattern d n).length = n := by simp [State.pattern]

theorem State.pattern_take (s : State) (d : Nat) {m n : Nat} (h : m ≤ n) :
    (s.pattern d n).take m = s.pattern d m := by
  simp [State.pattern, ← List.map_take, List.take_range, Nat.min_eq_left h]

/-- The pattern after its first byte has been appended is the rest of the pattern. -/
theorem State.pattern_succ {s : State} {d : Nat} (h1 : 1 ≤ d) (h2 : d ≤ s.outLen) (n : Nat) :
    s.pattern d (n + 1) = sinkBack d s :: (s.push (sinkBack d s)).pattern d n := by
  apply List.ext_getElem (by simp)
  intro i hi1 hi2
  cases i with
  | zero => simp [State.pattern, sinkBack]
  | succ i =>
    simp only [State.pattern, List.getElem_map, List.getElem_range, List.getElem_cons_succ, State.push_outLen]
    rw [State.outByte_push]
    have hm : i % d < d := Nat.mod_lt _ h1
    by_cases hlast : i % d + 1 = d
    · have e : (i + 1) % d = 0 := by rw [← Nat.mod_add_mod, hlast, Nat.mod_self]
      rw [if_pos (by omega), e]; simp [sinkBack]
    · have e : (i + 1) % d = i % d + 1 := by rw [← Nat.mod_add_mod]; exact Nat.mod_eq_of_lt (by omega)
      rw [if_neg (by omega), e]; congr 1; omega

/-- The byte-serial copy (43_sink.md R234): the pattern, or as much of it as fits and OutputOverrun. -/
theorem copyBack_eq {d : Nat} (h1 : 1 ≤ d) (n : Nat) {s : State} (h2 : d ≤ s.outLen) (h : s.outLen ≤ s.cfg.outCap) :
    copyBack d n s
      = if n ≤ s.room then .done (s.pushAll (s.pattern d n))
        else .failed .outputOverrun (s.pushAll (s.pattern d s.room)) := by
  induction n generalizing s with
  | zero => simp [copyBack, State.pattern]
  | succ n ih =>
    simp only [copyBack, sinkAppend]
    by_cases hc : s.outLen = s.cfg.outCap
    · have : s.room = 0 := by simp only [State.room]; omega
      simp [hc, State.pattern]
    · rw [if_neg hc, Attempt.andThen_done, ih (by simp; omega) (by simp; omega)]
      have a2 : s.room = (s.push (sinkBack d s)).room + 1 := by
        simp only [State.room, State.push_cfg, State.push_outLen]; omega
      simp only [a2, Nat.add_le_add_iff_right, State.pattern_succ h1 h2, State.pushAll_cons]

/-- `CopyMatch` (40_decoder.md R124). -/
theorem copyMatch_eq {d : Nat} (h1 : 1 ≤ d) (n : Nat) {s : State} (h : s.outLen ≤ s.cfg.outCap) :
    copyMatch d n s
      = if s.outLen < d then .failed .corruptStream s
        else if n ≤ s.room then .done (s.pushAll (s.pattern d n))
        else .failed .outputOverrun (s.pushAll (s.pattern d s.room)) := by
  unfold copyMatch
  split
  · rfl
  · rw [copyBack_eq h1 n (by omega) h]

end Sys2Proof.Machine
end

