-- ==== Sys2Proof/Laws/Fetch.lean ====
section
/-! SUPPORT. What a step has to run, case by case, and what a step can do, said once. -/

namespace Sys2Proof.Machine

/-- The unread input does not depend on the port. -/
theorem State.unread_port (s : State) (rest : List Turn) :
    ({ s with port := rest } : State).unread = s.inBytes s.ip (s.inLen - s.ip) :=
  State.inBytes_of_inMem (by rfl) (by rfl) _ _

@[simp] theorem State.unread_length (s : State) : s.unread.length = s.inLen - s.ip := State.inBytes_length _ _ _

/-- A running Decoder runs whatever the port holds. -/
theorem decoderRuns_port {s : State} (rest : List Turn) :
    decoderRuns { s with port := rest } = decoderRuns s := rfl

theorem decoderRuns_iff (s : State) : decoderRuns s = true ↔ s.mode = .decode ∧ s.status = .busy := by
  simp [decoderRuns]

theorem acceptsParse_iff (s : State) : acceptsParse s = true ↔ s.mode = .encode ∧ s.status = .busy := by
  simp [acceptsParse]

theorem acceptsSetup_iff (s : State) : acceptsSetup s = true ↔ s.status ≠ .busy := by simp [acceptsSetup]

theorem fetch_command {s : State} {op : Byte} {a b : Word} {rest : List Turn} {i : Instr}
    (h : s.port = .command op a b :: rest) (hd : decodeCommand op a b = .ok i) :
    fetch s = .command i { s with port := rest } := by
  simp only [fetch, h, hd]

theorem fetch_reserved {s : State} {op : Byte} {a b : Word} {rest : List Turn} {r : Reject}
    (h : s.port = .command op a b :: rest) (hd : decodeCommand op a b = .error r) :
    fetch s = .settled ({ s with port := rest } : State).notAccepted := by
  simp only [fetch, h, hd]

/-- Everything the host's read of IN can do: an answer, and the model's own counter. -/
theorem State.hostReadIn_cases (a : Word) (s : State) :
    (a.toNat < s.cfg.inCap ∧ s.hostReadIn a = s.answer (.byte (s.inByte a.toNat))) ∨
      (s.cfg.inCap ≤ a.toNat ∧ s.hostReadIn a = s.answerFree) := by
  by_cases h : a.toNat < s.cfg.inCap
  · exact .inl ⟨h, if_pos h⟩
  · exact .inr ⟨by omega, if_neg h⟩

/-- The frame of the host's read of IN. -/
theorem State.hostReadIn_frame (a : Word) (s : State) :
    s.hostReadIn a = { s with answers := (s.hostReadIn a).answers, drawn := (s.hostReadIn a).drawn } := by
  rcases s.hostReadIn_cases a with ⟨-, h⟩ | ⟨-, h⟩ <;> rw [h] <;> rfl

theorem fetch_readIn {s : State} {a : Word} {rest : List Turn} (h : s.port = .readIn a :: rest) :
    fetch s = .settled (({ s with port := rest } : State).hostReadIn a) := by
  simp only [fetch, h]

theorem fetch_turn {s : State} {rest : List Turn} (h : s.decoderTurn rest) :
    fetch s = fetchDecoder { s with port := rest } := by
  rcases h with ⟨h, rfl⟩ | h
  · simp only [fetch, h]; rw [← h]
  · simp only [fetch, h]

theorem fetch_idle {s : State} {rest : List Turn} (h : s.decoderTurn rest) (hr : decoderRuns s = false) :
    fetch s = .settled { s with port := rest } := by
  rw [fetch_turn h, fetchDecoder, if_neg (by rw [decoderRuns_port, hr]; simp)]

theorem fetch_token {s : State} {rest : List Turn} {i : Instr} {more : List Byte} (h : s.decoderTurn rest)
    (hr : decoderRuns s = true) (hd : s.dph = .cmd)
    (ht : decodeToken .cmd s.ls (s.inBytes s.ip (s.inLen - s.ip)) = .ok (i, more)) :
    fetch s = .token i { s with port := rest, tokstart := s.ip, ip := s.ip + (s.inLen - s.ip - more.length) } := by
  rw [fetch_turn h, fetchDecoder, if_pos (by rw [decoderRuns_port, hr])]
  simp only [hd]
  have e := State.unread_port s rest
  simp only [hd] at e
  rw [fetchNext, e, ht]
  simp

theorem fetch_truncated {s : State} {rest : List Turn} {r : Reject} (h : s.decoderTurn rest)
    (hr : decoderRuns s = true) (hd : s.dph = .cmd)
    (ht : decodeToken .cmd s.ls (s.inBytes s.ip (s.inLen - s.ip)) = .error r) :
    fetch s = .settled
      (({ s with port := rest, tokstart := s.ip, ip := s.ip + (s.inLen - s.ip) } : State).decoderError .endOfInput) := by
  rw [fetch_turn h, fetchDecoder, if_pos (by rw [decoderRuns_port, hr])]
  simp only [hd]
  have e := State.unread_port s rest
  simp only [hd] at e
  rw [fetchNext, e, ht]
  simp

theorem fetch_emptyStream {s : State} {rest : List Turn} (h : s.decoderTurn rest) (hr : decoderRuns s = true)
    (hd : s.dph = .first) (h0 : s.inLen = 0) :
    fetch s = .settled (({ s with port := rest, tokstart := 0 } : State).decoderError .endOfInput) := by
  rw [fetch_turn h, fetchDecoder, if_pos (by rw [decoderRuns_port, hr])]
  simp only [hd]
  rw [fetchFirst, if_pos h0]

theorem fetch_firstRun {s : State} {rest : List Turn} (h : s.decoderTurn rest) (hr : decoderRuns s = true)
    (hd : s.dph = .first) (h0 : s.inLen ≠ 0) (hb : 0x12 ≤ (s.inByte 0).toNat) :
    fetch s = .token (.firstLit ((s.inByte 0).toNat - 17)) { s with port := rest, tokstart := 0, ip := s.ip + 1 } := by
  rw [fetch_turn h, fetchDecoder, if_pos (by rw [decoderRuns_port, hr])]
  simp only [hd]
  rw [fetchFirst, if_neg h0]
  have e : ∀ t : State, t.inByte 0 = s.inByte 0 →
      decodeToken .first s.ls [t.inByte 0] = .ok (.firstLit ((s.inByte 0).toNat - 17), []) := by
    intro t ht; rw [ht]; simp [decodeToken, hb]
  rw [e _ (by rfl)]

theorem fetch_noFirstRun {s : State} {rest : List Turn} (h : s.decoderTurn rest) (hr : decoderRuns s = true)
    (hd : s.dph = .first) (h0 : s.inLen ≠ 0) (hb : (s.inByte 0).toNat ≤ 0x11) :
    fetch s = .settled { s with port := rest, tokstart := 0, dph := .cmd } := by
  rw [fetch_turn h, fetchDecoder, if_pos (by rw [decoderRuns_port, hr])]
  simp only [hd]
  rw [fetchFirst, if_neg h0]
  have e : ∀ t : State, t.inByte 0 = s.inByte 0 → decodeToken .first s.ls [t.inByte 0] = .error .notFirstRun := by
    intro t ht; rw [ht]; simp [decodeToken, show ¬ 18 ≤ (s.inByte 0).toNat by omega]
  rw [e _ (by rfl)]

/-- Every way a step can go. -/
inductive StepCase (s : State) : Host.Outcome State Fault Refusal → Prop where
  /-- A command. -/
  | command (op : Byte) (a b : Word) (rest : List Turn) (i : Instr) (h : s.port = .command op a b :: rest)
      (hd : decodeCommand op a b = .ok i) : StepCase s (exec i { s with port := rest })
  /-- A reserved op code. -/
  | reserved (op : Byte) (a b : Word) (rest : List Turn) (r : Reject) (h : s.port = .command op a b :: rest)
      (hd : decodeCommand op a b = .error r) : StepCase s (.next ({ s with port := rest } : State).notAccepted)
  /-- The host's read of IN. -/
  | readIn (a : Word) (rest : List Turn) (h : s.port = .readIn a :: rest) :
      StepCase s (.next (({ s with port := rest } : State).hostReadIn a))
  /-- The Decoder does not run. -/
  | idle (rest : List Turn) (h : s.decoderTurn rest) (hr : decoderRuns s = false) :
      StepCase s (.next { s with port := rest })
  /-- The START step of an empty stream. -/
  | emptyStream (rest : List Turn) (h : s.decoderTurn rest) (hr : decoderRuns s = true) (hd : s.dph = .first)
      (h0 : s.inLen = 0) :
      StepCase s (.next (({ s with port := rest, tokstart := 0 } : State).decoderError .endOfInput))
  /-- The START step with a first run. -/
  | firstRun (rest : List Turn) (h : s.decoderTurn rest) (hr : decoderRuns s = true) (hd : s.dph = .first)
      (h0 : s.inLen ≠ 0) (hb : 0x12 ≤ (s.inByte 0).toNat) :
      StepCase s (afterToken .first
        (exec (.firstLit ((s.inByte 0).toNat - 17)) { s with port := rest, tokstart := 0, ip := s.ip + 1 }))
  /-- The START step without one. -/
  | noFirstRun (rest : List Turn) (h : s.decoderTurn rest) (hr : decoderRuns s = true) (hd : s.dph = .first)
      (h0 : s.inLen ≠ 0) (hb : (s.inByte 0).toNat ≤ 0x11) :
      StepCase s (.next { s with port := rest, tokstart := 0, dph := .cmd })
  /-- A token. -/
  | token (rest : List Turn) (i : Instr) (more : List Byte) (h : s.decoderTurn rest) (hr : decoderRuns s = true)
      (hd : s.dph = .cmd) (ht : decodeToken .cmd s.ls (s.inBytes s.ip (s.inLen - s.ip)) = .ok (i, more)) :
      StepCase s
        (exec i { s with port := rest, tokstart := s.ip, ip := s.ip + (s.inLen - s.ip - more.length) })
  /-- A token the input ends in. -/
  | truncated (rest : List Turn) (r : Reject) (h : s.decoderTurn rest) (hr : decoderRuns s = true) (hd : s.dph = .cmd)
      (ht : decodeToken .cmd s.ls (s.inBytes s.ip (s.inLen - s.ip)) = .error r) :
      StepCase s (.next
        (({ s with port := rest, tokstart := s.ip, ip := s.ip + (s.inLen - s.ip) } : State).decoderError .endOfInput))

/-- A step goes one of the ways of `StepCase`. -/
theorem step_cases (s : State) : StepCase s (step s) := by
  have turn : ∀ rest, s.decoderTurn rest → StepCase s (step s) := by
    intro rest h
    cases hr : decoderRuns s with
    | false => rw [step, fetch_idle h hr]; exact .idle rest h hr
    | true =>
      cases hd : s.dph with
      | first =>
        by_cases h0 : s.inLen = 0
        · rw [step, fetch_emptyStream h hr hd h0]; exact .emptyStream rest h hr hd h0
        · by_cases hb : 0x12 ≤ (s.inByte 0).toNat
          · rw [step, fetch_firstRun h hr hd h0 hb]
            simp only [hd]
            have := StepCase.firstRun rest h hr hd h0 hb
            simp only [hd] at this
            exact this
          · rw [step, fetch_noFirstRun h hr hd h0 (by omega)]; exact .noFirstRun rest h hr hd h0 (by omega)
      | cmd =>
        cases ht : decodeToken .cmd s.ls (s.inBytes s.ip (s.inLen - s.ip)) with
        | error r => rw [step, fetch_truncated h hr hd ht]; exact .truncated rest r h hr hd ht
        | ok p =>
          obtain ⟨i, more⟩ := p
          rw [step, fetch_token h hr hd ht]
          have := StepCase.token rest i more h hr hd ht
          simp only [hd, afterToken] at this ⊢
          exact this
  cases hp : s.port with
  | nil => exact turn [] (.inl ⟨hp, rfl⟩)
  | cons x rest =>
    cases x with
    | decoder => exact turn rest (.inr hp)
    | readIn a => rw [step, fetch_readIn hp]; exact .readIn a rest hp
    | command op a b =>
      cases hd : decodeCommand op a b with
      | ok i => rw [step, fetch_command hp hd]; exact .command op a b rest i hp hd
      | error r => rw [step, fetch_reserved hp hd]; exact .reserved op a b rest r hp hd

end Sys2Proof.Machine
end

