-- ==== Sys2Proof/Laws/Decode.lean ====
section
/-! SUPPORT. What the token decoder hands on: it reads at least one byte and leaves the rest, and what it reads is a
token. -/

namespace Sys2Proof.Machine

/-- ReadExt leaves the rest of its bytes (30_encoding.md R93). -/
theorem readExt_suffix {base : Nat} {bs : List Byte} {e : Nat} {rest : List Byte} (h : readExt base bs = some (e, rest)) :
    base < e ∧ ∃ pre, bs = pre ++ rest := by
  induction bs generalizing base with
  | nil => simp [readExt] at h
  | cons b bs ih =>
    simp only [readExt] at h
    split at h
    · obtain ⟨h1, pre, rfl⟩ := ih h
      exact ⟨by simp at h1; omega, b :: pre, rfl⟩
    · rename_i hb
      simp only [Option.some.injEq, Prod.mk.injEq] at h
      obtain ⟨rfl, rfl⟩ := h
      refine ⟨?_, [b], rfl⟩
      have : b.toNat ≠ 0 := fun h0 => hb (BitVec.eq_of_toNat_eq (by simpa using h0))
      omega

theorem readLen_suffix {v base : Nat} {bs : List Byte} {e : Nat} {rest : List Byte}
    (h : readLen v base bs = some (e, rest)) :
    (v = 0 → base < e) ∧ (v ≠ 0 → e = v) ∧ ∃ pre, bs = pre ++ rest := by
  simp only [readLen] at h
  split at h
  · rename_i hv
    exact ⟨fun _ => (readExt_suffix h).1, fun hn => absurd hv hn, (readExt_suffix h).2⟩
  · simp only [Option.some.injEq, Prod.mk.injEq] at h
    obtain ⟨rfl, rfl⟩ := h
    exact ⟨fun hv => absurd hv (by assumption), fun _ => rfl, [], rfl⟩

/-- What the decoder reads is a well-formed token, and the rest of the bytes is what it leaves; at least the command byte
is read. -/
theorem decodeToken_ok {ph : Phase} {ls : LitState} {bs : List Byte} {i : Instr} {rest : List Byte}
    (h : decodeToken ph ls bs = .ok (i, rest)) :
    i.isToken = true ∧ i.wf = true ∧ ∃ t pre, bs = t :: (pre ++ rest) := by
  cases bs with
  | nil => simp [decodeToken] at h
  | cons t bs =>
    have ht := t.isLt
    cases ph with
    | first =>
      simp only [decodeToken] at h
      split at h
      · simp only [Except.ok.injEq, Prod.mk.injEq] at h
        obtain ⟨rfl, rfl⟩ := h
        exact ⟨rfl, by simp [Instr.wf]; omega, t, [], rfl⟩
      · simp at h
    | cmd =>
      simp only [decodeToken] at h
      split at h
      · split at h
        · simp only [decodeRun] at h
          split at h
          · split at h
            · rename_i e r he
              simp only [Except.ok.injEq, Prod.mk.injEq] at h
              obtain ⟨rfl, rfl⟩ := h
              obtain ⟨h1, pre, rfl⟩ := readExt_suffix he
              exact ⟨rfl, by simp [Instr.wf]; omega, t, pre, rfl⟩
            · simp at h
          · rename_i h0
            simp only [Except.ok.injEq, Prod.mk.injEq] at h
            obtain ⟨rfl, rfl⟩ := h
            have : t.toNat ≠ 0 := fun h0' => h0 (BitVec.eq_of_toNat_eq (by simpa using h0'))
            exact ⟨rfl, by simp [Instr.wf]; omega, t, [], rfl⟩
        · simp only [decodeM1] at h
          split at h
          · simp at h
          · rename_i b1 r
            have := b1.isLt
            split at h
            all_goals
              simp only [Except.ok.injEq, Prod.mk.injEq] at h
              obtain ⟨rfl, rfl⟩ := h
              refine ⟨rfl, ?_, t, [b1], rfl⟩
              refine decide_eq_true ?_
              simp only [bitField, Config.m1aMaxDist, Config.m1bMinDist, Config.m1bMaxDist]
              omega
      · split at h
        · simp only [decodeM4] at h
          split at h
          · rename_i k d0 d1 r he
            obtain ⟨h1, h2, pre, rfl⟩ := readLen_suffix he
            have e0 := d0.isLt
            have e1 := d1.isLt
            split at h
            · simp only [Except.ok.injEq, Prod.mk.injEq] at h
              obtain ⟨rfl, rfl⟩ := h
              refine ⟨rfl, ?_, t, pre ++ [d0, d1], by simp⟩
              simp only [Instr.wf, decide_eq_true_eq]
              omega
            · split at h
              all_goals
                simp only [Except.ok.injEq, Prod.mk.injEq] at h
                obtain ⟨rfl, rfl⟩ := h
                refine ⟨rfl, ?_, t, pre ++ [d0, d1], by simp⟩
                simp only [Instr.wf, Config.m4MinDist, Config.m4MaxDist, Config.m4MaxInline, decide_eq_true_eq]
                simp only [bitField, le16] at *
                omega
          · simp at h
        · split at h
          · simp only [decodeM3] at h
            split at h
            · rename_i k d0 d1 r he
              obtain ⟨h1, h2, pre, rfl⟩ := readLen_suffix he
              have e0 := d0.isLt
              have e1 := d1.isLt
              split at h
              all_goals
                simp only [Except.ok.injEq, Prod.mk.injEq] at h
                obtain ⟨rfl, rfl⟩ := h
                refine ⟨rfl, ?_, t, pre ++ [d0, d1], by simp⟩
                simp only [Instr.wf, Config.m3MaxDist, Config.m3MaxInline, decide_eq_true_eq]
                simp only [bitField, le16] at *
                omega
            · simp at h
          · simp only [decodeM2] at h
            split at h
            · simp at h
            · rename_i b1 r
              have := b1.isLt
              simp only [Except.ok.injEq, Prod.mk.injEq] at h
              obtain ⟨rfl, rfl⟩ := h
              exact ⟨rfl, by simp [Instr.wf, bitField]; omega, t, [b1], rfl⟩

/-- A token read from the unread input begins before the input's end, and its head ends within the input. -/
theorem decodeToken_inBytes {ph : Phase} {s : State} {i : Instr} {rest : List Byte}
    (h : decodeToken ph s.ls (s.inBytes s.ip (s.inLen - s.ip)) = .ok (i, rest)) :
    rest.length < s.inLen - s.ip := by
  obtain ⟨-, -, t, pre, e⟩ := decodeToken_ok h
  have := congrArg List.length e
  simp at this
  omega

end Sys2Proof.Machine
end

