-- ==== Sys2Proof/Laws/Encoder.lean ====
section
/-! SUPPORT. The Encoder's parse check and flushes, said once. -/

namespace Sys2Proof.Machine

/-- Check 5 of 41_encoder.md R173 over a whole match. -/
theorem bytesRepeat_iff (s : State) (d p n : Nat) :
    bytesRepeat s d p n = true ↔ ∀ i, i < n → s.inByte (p + i) = s.inByte (p + i - d) := by
  induction n generalizing p with
  | zero => simp [bytesRepeat]
  | succ n ih =>
    simp only [bytesRepeat, Bool.and_eq_true, decide_eq_true_eq, ih]
    constructor
    · rintro ⟨h0, h⟩ i hi
      cases i with
      | zero => simpa using h0
      | succ i =>
        have := h i (by omega)
        rwa [show p + 1 + i = p + (i + 1) by omega] at this
    · intro h
      refine ⟨by simpa using h 0 (by omega), fun i hi => ?_⟩
      rw [show p + 1 + i = p + (i + 1) by omega]
      exact h (i + 1) (by omega)

/-- The parse check passes exactly when none of the five conditions of R173 holds. -/
theorem legalMatch_iff (d n : Nat) (s : State) : legalMatch d n s = true ↔ ¬ IllegalMatch d n s := by
  have shape : legalMatch d n s = true ↔
      ((((¬ d = 0 ∧ d ≤ s.pos) ∧ d ≤ 49151) ∧ (2 ≤ n ∧ s.pos + n ≤ s.inLen))
        ∧ (n ≠ 2 ∨ 1 ≤ litStateAt s ∧ litStateAt s ≤ 3 ∧ d ≤ 1024))
        ∧ ∀ i, i < n → s.inByte (s.pos + i) = s.inByte (s.pos + i - d) := by
    simp [legalMatch, bytesRepeat_iff]
  rw [shape, IllegalMatch]
  constructor
  · rintro ⟨⟨⟨⟨h1, h2⟩, h3⟩, h4⟩, h5⟩ (h | h | h | h | ⟨i, hi, h⟩)
    · omega
    · omega
    · omega
    · omega
    · exact h (h5 i hi)
  · intro h
    obtain ⟨h1, h2, h3, h4, h5⟩ : _ ∧ _ ∧ _ ∧ _ ∧ _ := by simpa only [not_or] using h
    push Not at h5
    exact ⟨⟨⟨⟨by omega, by omega⟩, by omega⟩, by omega⟩, h5⟩

/-! Flushing (41_encoder.md R171, R180, R181). -/

theorem flushHold_held {s : State} (h : s.holdV = true) :
    flushHold s = (sinkAppendAll [s.hold0, s.hold1] s).andThen fun t => .done { t with holdV := false } := by
  simp [flushHold, h]

theorem flushHold_empty {s : State} (h : s.holdV = false) : flushHold s = .done s := by simp [flushHold, h]

theorem headBytes_firstRun (len : Nat) : headBytes (runToken false len) = firstRunHead len := by
  simp only [runToken, firstRunHead, Config.firstMaxShort]
  split <;> rename_i h
  · rw [if_pos h.2]; rfl
  · rw [if_neg (by simp), if_neg (by simpa using h)]; rfl

theorem headBytes_laterRun (len : Nat) : headBytes (runToken true len) = laterRunHead len := by
  simp only [runToken, laterRunHead, Config.litMaxInline]
  rw [if_neg (by simp)]
  split <;> rename_i h
  · rw [if_pos h.2]; rfl
  · rw [if_neg (by simpa using h)]; rfl

/-- HOLD0 after a flush: a run of 1 to 3 after a match goes into its S field (R181). -/
def State.flushedHold0 (s : State) : Byte :=
  if s.started = true ∧ 1 ≤ s.litCnt ∧ s.litCnt ≤ 3 then s.hold0 ||| byteOf s.litCnt else s.hold0

/-- The state after FlushLiterals and FlushHold, where STARTED and HOLD_V agree and there is room. -/
def State.flushed (s : State) : State :=
  { s with
    hold0 := s.flushedHold0, holdV := false, litCnt := 0
    started := s.started || decide (s.litCnt ≠ 0) }.pushAll (flushBytes s)

/-- Two flush parts in a row, each of which appends: together they append both or run out of room in one. -/
theorem sinkAppendAll_append (bs cs : List Byte) {s : State} :
    sinkAppendAll (bs ++ cs) s = (sinkAppendAll bs s).andThen (sinkAppendAll cs) := by
  induction bs generalizing s with
  | nil => rfl
  | cons v vs ih =>
    simp only [List.cons_append, sinkAppendAll, Attempt.andThen_assoc]
    congr 1; funext t; exact ih

/-- `SinkAppend` of a list that does not fit: the Sink is filled with its first bytes. -/
theorem sinkAppendAll_failed {bs : List Byte} {s : State} (h : s.outLen ≤ s.cfg.outCap)
    (hr : ¬ s.roomFor bs.length) :
    sinkAppendAll bs s = .failed .outputOverrun (s.pushAll (bs.take (s.cfg.outCap - s.outLen))) := by
  rw [sinkAppendAll_eq bs h, if_neg hr]

theorem flushBytes_first {s : State} (hs : s.started = false) (hl : s.litCnt ≠ 0) :
    flushBytes s = firstRunHead s.litCnt ++ s.pendingRun := by
  simp [flushBytes, hs, hl, headBytes_firstRun]

theorem flushBytes_held {s : State} (hs : s.started = true) (hl : s.litCnt = 0) :
    flushBytes s = [s.hold0, s.hold1] := by
  simp [flushBytes, hs, hl]

theorem flushBytes_short {s : State} (hs : s.started = true) (hl : s.litCnt ≠ 0) (h3 : s.litCnt ≤ 3) :
    flushBytes s = [s.hold0 ||| byteOf s.litCnt, s.hold1] ++ s.pendingRun := by
  simp [flushBytes, hs, hl, h3]

theorem flushBytes_later {s : State} (hs : s.started = true) (hl : s.litCnt ≠ 0) (h3 : ¬ s.litCnt ≤ 3) :
    flushBytes s = [s.hold0, s.hold1] ++ (laterRunHead s.litCnt ++ s.pendingRun) := by
  simp [flushBytes, hs, hl, h3, headBytes_laterRun]

/-- FlushLiterals and FlushHold as one append of the flush bytes between two register updates (R171, R180, R181): with
room they are carried out. -/
theorem flush_done {s : State} (hv : s.holdV = s.started) (hr : s.roomFor (flushBytes s).length) :
    (flushLiterals s).andThen flushHold = .done s.flushed := by
  cases hs : s.started with
  | false =>
    rw [hs] at hv
    by_cases hl : s.litCnt = 0
    · have hf : s.flushed = s := by
        simp [State.flushed, flushBytes, hs, hl, State.flushedHold0]
        cases s; simp_all
      rw [hf]; simp [flushLiterals, hl, flushHold_empty hv]
    · have hfb := flushBytes_first hs hl
      rw [hfb] at hr
      rw [flushLiterals, if_neg hl, if_pos hs, flushFirstRun, sinkAppendAll_done hr]
      simp only [Attempt.andThen_done]
      rw [flushHold_empty (by exact hv)]
      simp [State.flushed, hfb, hs, hl, State.flushedHold0, State.pushAll, hv]
  | true =>
    rw [hs] at hv
    by_cases hl : s.litCnt = 0
    · have hfb := flushBytes_held hs hl
      rw [hfb] at hr
      simp only [flushLiterals, hl, if_true, Attempt.andThen_done]
      rw [flushHold_held hv, sinkAppendAll_done hr]
      simp [State.flushed, hfb, hs, hl, State.flushedHold0, State.pushAll]
    · by_cases h3 : s.litCnt ≤ 3
      · have hfb := flushBytes_short hs hl h3
        rw [hfb] at hr
        have hr1 : ({ s with hold0 := s.hold0 ||| byteOf s.litCnt } : State).roomFor
            [s.hold0 ||| byteOf s.litCnt, s.hold1].length := by
          simp only [State.roomFor, List.length_append] at hr ⊢; omega
        rw [flushLiterals, if_neg hl, if_neg (by simp [hs]), if_pos h3, flushShortRun,
          flushHold_held (by exact hv), sinkAppendAll_done hr1]
        simp only [Attempt.andThen_done]
        rw [sinkAppendAll_done (by
          simp only [State.roomFor, List.length_append] at hr ⊢
          simp only [State.pushAll_outLen, State.pushAll_cfg]; omega)]
        simp only [Attempt.andThen_done]
        rw [flushHold_empty (by rfl)]
        have h1 : 1 ≤ s.litCnt := by omega
        simp [State.flushed, hfb, hs, hl, h1, h3, State.flushedHold0, State.pushAll, storeAt, Nat.add_assoc]
        omega
      · have hfb := flushBytes_later hs hl h3
        rw [hfb] at hr
        rw [flushLiterals, if_neg hl, if_neg (by simp [hs]), if_neg h3, flushLaterRun,
          flushHold_held hv, sinkAppendAll_done (by
          simp only [State.roomFor, List.length_append] at hr ⊢; omega)]
        simp only [Attempt.andThen_done]
        rw [sinkAppendAll_done (by
          simp only [State.roomFor, List.length_append] at hr ⊢
          simp only [State.pushAll_outLen, State.pushAll_cfg]; omega)]
        simp only [Attempt.andThen_done]
        rw [flushHold_empty (by rfl)]
        simp [State.flushed, hfb, hs, hl, h3, State.flushedHold0, State.pushAll, storeAt]
        omega

end Sys2Proof.Machine
end

