-- ==== Sys2Proof/Laws/Emission.lean ====
section
/-! SUPPORT. The Encoder's emission in the token layouts of 30_encoding.md, and a whole ENC_MATCH or ENC_END. -/

namespace Sys2Proof.Machine

/-! Masks as remainders. -/

theorem and_three (x : Nat) : x &&& 3 = x % 4 := Nat.and_two_pow_sub_one_eq_mod x 2
theorem and_seven (x : Nat) : x &&& 7 = x % 8 := Nat.and_two_pow_sub_one_eq_mod x 3
theorem and_byteMask (x : Nat) : x &&& 0xFF = x % 256 := Nat.and_two_pow_sub_one_eq_mod x 8

/-! One class each (R182 to R186). -/

theorem emitM1a_bytes (d : Nat) : headBytes (.m1a d 0) = [byteOf (((d - 1) &&& 3) <<< 2), byteOf ((d - 1) >>> 2)] := by
  simp [headBytes, encode, and_three, Nat.shiftLeft_eq, Nat.shiftRight_eq_div_pow]

theorem emitM1b_bytes (d : Nat) :
    headBytes (.m1b d 0) = [byteOf (((d - 2049) &&& 3) <<< 2), byteOf ((d - 2049) >>> 2)] := by
  simp [headBytes, encode, and_three, Nat.shiftLeft_eq, Nat.shiftRight_eq_div_pow]

theorem emitM2_bytes (d n : Nat) :
    headBytes (.m2 d n 0)
      = [byteOf (((n - 1) <<< 5) ||| (((d - 1) &&& 7) <<< 2)), byteOf ((d - 1) >>> 3)] := by
  have h : (n - 1) <<< 5 ||| (((d - 1) % 8) <<< 2) = (n - 1) * 32 + (d - 1) % 8 * 4 := by
    rw [← Nat.shiftLeft_add_eq_or_of_lt (i := 5) (by rw [Nat.shiftLeft_eq]; omega)]
    simp [Nat.shiftLeft_eq]
  simp [headBytes, encode, and_seven, h, Nat.shiftRight_eq_div_pow]

/-- The distance bytes of `m` with S = 0 as shifts and masks (R94, R185, R186). -/
theorem distBytes_eq (m : Nat) :
    distBytes (m % 16384) 0 = [byteOf ((m <<< 2) &&& 0xFF), byteOf ((m >>> 6) &&& 0xFF)] := by
  simp only [distBytes, and_byteMask, Nat.shiftLeft_eq, Nat.shiftRight_eq_div_pow]
  have h1 : m % 16384 % 64 * 4 + (0 : SField).val = m * 2 ^ 2 % 256 := by
    simp; omega
  have h2 : m % 16384 / 64 = m / 2 ^ 6 % 256 := by omega
  rw [h1, h2]

theorem emitM3_bytes {d n : Nat} (h1 : 1 ≤ d) (h2 : d ≤ 16384) (h3 : 2 ≤ n) :
    headBytes (if n ≤ 33 then .m3 d n 0 else .m3x d n 0)
      = (if n ≤ Config.m3MaxInline then [byteOf (0x20 ||| (n - 2))] else 0x20 :: extBytes (n - Config.m3MaxInline))
        ++ [byteOf (((d - 1) <<< 2) &&& 0xFF), byteOf (((d - 1) >>> 6) &&& 0xFF)] := by
  rw [← distBytes_eq, Nat.mod_eq_of_lt (by omega)]
  simp only [Config.m3MaxInline]
  split
  · have h : 0x20 ||| (n - 2) = 0x20 + (n - 2) := by
      have := Nat.two_pow_add_eq_or_of_lt (i := 5) (b := n - 2) (by omega) 1
      simpa using this.symm
    simp [headBytes, encode, h]
  · simp [headBytes, encode]

theorem emitM4_bytes {d n : Nat} (h1 : 16385 ≤ d) (h2 : d ≤ 49151) (h3 : 2 ≤ n) :
    headBytes (if n ≤ 9 then .m4 d n 0 else .m4x d n 0)
      = (if n ≤ Config.m4MaxInline then [byteOf (0x10 ||| (((d - 16384) >>> 11) &&& 8) ||| (n - 2))]
          else byteOf (0x10 ||| (((d - 16384) >>> 11) &&& 8)) :: extBytes (n - Config.m4MaxInline))
        ++ [byteOf (((d - 16384) <<< 2) &&& 0xFF), byteOf (((d - 16384) >>> 6) &&& 0xFF)] := by
  have hh : ((d - 16384) >>> 11) &&& 8 = (d - 16384) / 16384 * 8 := by
    have e : (8 : Nat) = 2 ^ 3 := rfl
    rw [e, Nat.and_two_pow, Nat.testBit_shiftRight, Nat.testBit_eq_decide_div_mod_eq]
    have : (d - 16384) / 16384 = 0 ∨ (d - 16384) / 16384 = 1 := by omega
    rcases this with h | h <;> simp [h]
  have ht : (d - 16384) / 16384 ≤ 1 := by omega
  have hq : ∀ q, q ≤ 1 → 0x10 ||| q * 8 = 0x10 + q * 8 := by
    intro q hq; interval_cases q <;> rfl
  rw [← distBytes_eq, hh, hq _ ht]
  simp only [Config.m4MaxInline]
  split
  · have h : (0x10 + (d - 16384) / 16384 * 8) ||| (n - 2) = 0x10 + (d - 16384) / 16384 * 8 + (n - 2) := by
      have := Nat.two_pow_add_eq_or_of_lt (i := 3) (b := n - 2) (by omega) (2 + (d - 16384) / 16384)
      rw [show 2 ^ 3 * (2 + (d - 16384) / 16384) = 16 + (d - 16384) / 16384 * 8 by omega] at this
      exact this.symm
    rw [h]; rfl
  · rfl

/-- Emission in one form: the token R174 chooses, all but its last two bytes appended and those two held (R182 to R186). -/
theorem emitMatch_eq {d n : Nat} (ls : Nat) (h1 : 1 ≤ d) (h2 : d ≤ 49151) (h3 : 2 ≤ n) :
    ∃ (bs : List Byte) (b0 b1 : Nat), (∀ s, emitMatch d n ls s = emitHeld bs b0 b1 s) ∧
      headBytes (chosenToken d n ls) = bs ++ [byteOf b0, byteOf b1] := by
  simp only [emitMatch, chosenToken, Config.m2MinLen, Config.m2MaxLen, Config.m2MaxDist, Config.m1bMinDist,
    Config.m1bMaxDist, Config.m3MaxDist]
  split
  · exact ⟨[], _, _, fun _ => rfl, emitM1a_bytes d⟩
  split
  · exact ⟨[], _, _, fun _ => rfl, emitM2_bytes d n⟩
  split
  · exact ⟨[], _, _, fun _ => rfl, emitM1b_bytes d⟩
  split
  · exact ⟨_, _, _, fun _ => rfl, emitM3_bytes h1 (by assumption) h3⟩
  · exact ⟨_, _, _, fun _ => rfl, emitM4_bytes (by omega) h2 h3⟩

/-- The held bytes and then `bs`, without room for both: the failure is in one of the two appends. -/
theorem flushHold_append_failed {s : State} (bs : List Byte) (hv : s.holdV = true) (hc : s.outLen ≤ s.cfg.outCap)
    (hr : ¬ s.roomFor ([s.hold0, s.hold1] ++ bs).length) :
    ∃ v : Bool, (flushHold s).andThen (sinkAppendAll bs) = .failed .outputOverrun
      (({ s with holdV := v } : State).pushAll (([s.hold0, s.hold1] ++ bs).take (s.cfg.outCap - s.outLen))) := by
  simp only [State.roomFor, List.length_append, List.length_cons, List.length_nil] at hr
  rw [flushHold_held hv]
  by_cases h2 : s.roomFor [s.hold0, s.hold1].length
  · refine ⟨false, ?_⟩
    simp only [State.roomFor, List.length_cons, List.length_nil] at h2
    rw [sinkAppendAll_done (by simpa [State.roomFor] using h2), Attempt.andThen_done, Attempt.andThen_done,
      sinkAppendAll_failed (by simp only [State.pushAll_outLen, State.pushAll_cfg, List.length_cons, List.length_nil]; omega)
        (by simp only [State.roomFor, State.pushAll_outLen, State.pushAll_cfg, List.length_cons, List.length_nil]; omega)]
    have e : s.cfg.outCap - s.outLen = 2 + (s.cfg.outCap - (s.outLen + 2)) := by omega
    rw [e, List.cons_append, List.cons_append, List.nil_append, show ∀ k, 2 + k = k + 1 + 1 from fun k => by omega,
      List.take_succ_cons, List.take_succ_cons]
    simp [State.pushAll, storeAt, Nat.add_assoc]
    omega
  · refine ⟨true, ?_⟩
    rw [sinkAppendAll_failed hc h2, Attempt.andThen_failed, Attempt.andThen_failed]
    simp only [State.roomFor, List.length_cons, List.length_nil] at h2
    rw [List.take_append_of_le_length (by simp only [List.length_cons, List.length_nil]; omega)]
    congr 2
    cases s; simp_all

/-- A flush without room: OutputOverrun with the Sink filled by the first of the flush bytes; only the pending and hold
registers may have moved (43_sink.md R232, 60_exceptions.md R252). -/
theorem flush_failed {s : State} (hv : s.holdV = s.started) (hc : s.outLen ≤ s.cfg.outCap)
    (hr : ¬ s.roomFor (flushBytes s).length) :
    ∃ (h0 : Byte) (v : Bool) (c : Nat) (st : Bool),
      (flushLiterals s).andThen flushHold = .failed .outputOverrun
        (({ s with hold0 := h0, holdV := v, litCnt := c, started := st } : State).pushAll
          ((flushBytes s).take (s.cfg.outCap - s.outLen))) := by
  cases hs : s.started with
  | false =>
    rw [hs] at hv
    by_cases hl : s.litCnt = 0
    · exact absurd hr (by simpa [State.roomFor, flushBytes, hs, hl] using hc)
    · have hfb := flushBytes_first hs hl
      rw [hfb] at hr ⊢
      refine ⟨s.hold0, s.holdV, s.litCnt, s.started, ?_⟩
      rw [flushLiterals, if_neg hl, if_pos hs, flushFirstRun, sinkAppendAll_failed hc hr]
      rfl
  | true =>
    rw [hs] at hv
    by_cases hl : s.litCnt = 0
    · have hfb := flushBytes_held hs hl
      rw [hfb] at hr ⊢
      refine ⟨s.hold0, s.holdV, s.litCnt, s.started, ?_⟩
      rw [flushLiterals, if_pos hl, Attempt.andThen_done, flushHold_held hv, sinkAppendAll_failed hc hr]
      rfl
    · by_cases h3 : s.litCnt ≤ 3
      · have hfb := flushBytes_short hs hl h3
        rw [hfb] at hr ⊢
        obtain ⟨v, h⟩ := flushHold_append_failed (s := { s with hold0 := s.hold0 ||| byteOf s.litCnt }) s.pendingRun hv
          hc hr
        refine ⟨s.hold0 ||| byteOf s.litCnt, v, s.litCnt, s.started, ?_⟩
        rw [flushLiterals, if_neg hl, if_neg (by simp [hs]), if_pos h3, flushShortRun, h]
        rfl
      · have hfb := flushBytes_later hs hl h3
        rw [hfb] at hr ⊢
        obtain ⟨v, h⟩ := flushHold_append_failed (laterRunHead s.litCnt ++ s.pendingRun) hv hc hr
        refine ⟨s.hold0, v, s.litCnt, s.started, ?_⟩
        rw [flushLiterals, if_neg hl, if_neg (by simp [hs]), if_neg h3, flushLaterRun, h]
        rfl

/-- The flushes and then `bs`, without room for all of it: OutputOverrun with the Sink filled by the first of the bytes. -/
theorem flushed_append_failed {s : State} (bs : List Byte) (hv : s.holdV = s.started) (hc : s.outLen ≤ s.cfg.outCap)
    (hr : ¬ s.roomFor (flushBytes s ++ bs).length) :
    ∃ (h0 : Byte) (v : Bool) (c : Nat) (st : Bool),
      ((flushLiterals s).andThen flushHold).andThen (sinkAppendAll bs) = .failed .outputOverrun
        (({ s with hold0 := h0, holdV := v, litCnt := c, started := st } : State).pushAll
          ((flushBytes s ++ bs).take (s.cfg.outCap - s.outLen))) := by
  by_cases hf : s.roomFor (flushBytes s).length
  · rw [flush_done hv hf, Attempt.andThen_done, sinkAppendAll_failed]
    · refine ⟨s.flushedHold0, false, 0, s.started || decide (s.litCnt ≠ 0), ?_⟩
      rw [List.take_append, State.pushAll_append, List.take_of_length_le (l := flushBytes s)]
      · simp only [State.flushed, State.pushAll_cfg, State.pushAll_outLen, Nat.sub_sub]
      · simp only [State.roomFor] at hf; omega
    · simpa [State.flushed, State.roomFor] using hf
    · simp only [State.flushed, State.roomFor, State.pushAll_cfg, State.pushAll_outLen, List.length_append] at hr ⊢; omega
  · obtain ⟨h0, v, c, st, h⟩ := flush_failed hv hc hf
    refine ⟨h0, v, c, st, ?_⟩
    rw [h, Attempt.andThen_failed]
    simp only [State.roomFor] at hf
    rw [List.take_append_of_le_length (by omega)]

/-- A whole legal ENC_MATCH with room (R178): the flushes, the emitted bytes, the held bytes, the moved registers. -/
theorem encodeMatch_done {s : State} {d n : Nat} (h1 : 1 ≤ d) (h2 : d ≤ 49151) (h3 : 2 ≤ n) (hv : s.holdV = s.started)
    (hr : s.outLen + (flushBytes s).length + (headBytes (chosenToken d n (litStateAt s))).length ≤ s.cfg.outCap + 2) :
    ∃ (bs : List Byte) (b0 b1 : Nat), headBytes (chosenToken d n (litStateAt s)) = bs ++ [byteOf b0, byteOf b1] ∧
      encodeMatch d n s = .done { (s.flushed.pushAll bs).hold b0 b1 with pos := s.pos + n, started := true } := by
  obtain ⟨bs, b0, b1, he, hb⟩ := emitMatch_eq (litStateAt s) h1 h2 h3
  rw [hb, List.length_append] at hr
  refine ⟨bs, b0, b1, hb, ?_⟩
  simp only [List.length_cons, List.length_nil] at hr
  rw [encodeMatch, flush_done hv (by simp only [State.roomFor]; omega), Attempt.andThen_done, he, emitHeld,
    sinkAppendAll_done (by simp only [State.roomFor, State.flushed, State.pushAll_outLen, State.pushAll_cfg]; omega)]
  rfl

/-- A whole ENC_END on a covered input with room (R179). -/
theorem encodeEnd_done {s : State} (hv : s.holdV = s.started) (hr : s.roomFor ((flushBytes s).length + 3)) :
    encodeEnd s = .done { s.flushed.pushAll [0x11, 0x00, 0x00] with status := .done } := by
  simp only [State.roomFor] at hr
  rw [encodeEnd, flush_done hv (by simp only [State.roomFor]; omega), Attempt.andThen_done,
    sinkAppendAll_done (by
      simp only [State.roomFor, State.flushed, State.pushAll_outLen, State.pushAll_cfg, List.length_cons,
        List.length_nil]; omega)]
  rfl

end Sys2Proof.Machine
end

