-- ==== Sys2Proof/Laws/Exec.lean ====
section
/-! SUPPORT. `exec` on each instruction is that instruction's meaning. -/

namespace Sys2Proof.Machine

@[simp] theorem exec_firstLit (len : Nat) (s : State) : exec (.firstLit len) s = execFirstLit len s := rfl
@[simp] theorem exec_lit (len : Nat) (s : State) : exec (.lit len) s = execLit len s := rfl
@[simp] theorem exec_litx (len : Nat) (s : State) : exec (.litx len) s = execLitx len s := rfl
@[simp] theorem exec_m1a (d : Nat) (sf : SField) (s : State) : exec (.m1a d sf) s = execM1a d sf s := rfl
@[simp] theorem exec_m1b (d : Nat) (sf : SField) (s : State) : exec (.m1b d sf) s = execM1b d sf s := rfl
@[simp] theorem exec_m2 (d : Nat) (n : Nat) (sf : SField) (s : State) : exec (.m2 d n sf) s = execM2 d n sf s := rfl
@[simp] theorem exec_m3 (d : Nat) (n : Nat) (sf : SField) (s : State) : exec (.m3 d n sf) s = execM3 d n sf s := rfl
@[simp] theorem exec_m3x (d : Nat) (n : Nat) (sf : SField) (s : State) : exec (.m3x d n sf) s = execM3x d n sf s := rfl
@[simp] theorem exec_m4 (d : Nat) (n : Nat) (sf : SField) (s : State) : exec (.m4 d n sf) s = execM4 d n sf s := rfl
@[simp] theorem exec_m4x (d : Nat) (n : Nat) (sf : SField) (s : State) : exec (.m4x d n sf) s = execM4x d n sf s := rfl
@[simp] theorem exec_endMarker (n : Nat) (sf : SField) (s : State) : exec (.endMarker n sf) s = execEndMarker n sf s := rfl
@[simp] theorem exec_encStart (a : Word) (s : State) : exec (.encStart a) s = execEncStart a s := rfl
@[simp] theorem exec_encLit (s : State) : exec (.encLit) s = execEncLit s := rfl
@[simp] theorem exec_encMatch (a : Word) (b : Word) (s : State) : exec (.encMatch a b) s = execEncMatch a b s := rfl
@[simp] theorem exec_encEnd (s : State) : exec (.encEnd) s = execEncEnd s := rfl
@[simp] theorem exec_idxInsert (a : Word) (s : State) : exec (.idxInsert a) s = execIdxInsert a s := rfl
@[simp] theorem exec_idxLookup (a : Word) (s : State) : exec (.idxLookup a) s = execIdxLookup a s := rfl
@[simp] theorem exec_decStart (a : Word) (s : State) : exec (.decStart a) s = execDecStart a s := rfl
@[simp] theorem exec_hostWriteIn (a : Word) (b : Word) (s : State) : exec (.hostWriteIn a b) s = execHostWriteIn a b s := rfl
@[simp] theorem exec_hostSetInLen (a : Word) (s : State) : exec (.hostSetInLen a) s = execHostSetInLen a s := rfl
@[simp] theorem exec_hostReadOut (a : Word) (s : State) : exec (.hostReadOut a) s = execHostReadOut a s := rfl
@[simp] theorem exec_hostReadReg (a : Word) (s : State) : exec (.hostReadReg a) s = execHostReadReg a s := rfl
@[simp] theorem exec_reset (s : State) : exec (.reset) s = execReset s := rfl

end Sys2Proof.Machine
end

