-- ==== Sys2Proof/Laws/Frames.lean ====
section
/-! SUPPORT. What the work of a token or of an Encoder command may touch, whatever it does and from whatever state: the
unit's own registers, STATUS, and OUT, which only grows. -/

namespace Sys2Proof.Machine

/-- The state an attempt ends in, carried out or not. -/
def Attempt.state : Attempt → State
  | .done s => s
  | .failed _ s => s

/-- `t` differs from `s` at most in the registers a token or an Encoder command works on, and in OUT, which has only
grown. -/
structure Worked (s t : State) : Prop where
  frame : t = { s with
    ip := t.ip, ls := t.ls, pos := t.pos, litCnt := t.litCnt, started := t.started, hold0 := t.hold0, hold1 := t.hold1
    holdV := t.holdV, outMem := t.outMem, outLen := t.outLen, status := t.status }
  grows : s.outLen ≤ t.outLen
  keeps : ∀ a, a < s.outLen → t.outByte a = s.outByte a

theorem Worked.refl (s : State) : Worked s s := ⟨rfl, Nat.le_refl _, fun _ _ => rfl⟩

theorem Worked.trans {s t u : State} (h1 : Worked s t) (h2 : Worked t u) : Worked s u :=
  ⟨by rw [h2.frame, h1.frame], Nat.le_trans h1.grows h2.grows,
    fun a ha => (h2.keeps a (Nat.lt_of_lt_of_le ha h1.grows)).trans (h1.keeps a ha)⟩

/-- A change of the unit's own registers alone. -/
theorem Worked.registers {s t : State}
    (h : t = { s with
      ip := t.ip, ls := t.ls, pos := t.pos, litCnt := t.litCnt, started := t.started, hold0 := t.hold0, hold1 := t.hold1
      holdV := t.holdV, status := t.status }) : Worked s t := by
  refine ⟨by rw [h], by rw [h], fun a _ => ?_⟩
  rw [h]; rfl

theorem Worked.push (v : Byte) (s : State) : Worked s (s.push v) := by
  refine ⟨rfl, by simp, fun a ha => ?_⟩
  rw [State.outByte_push, if_neg (Nat.ne_of_lt ha)]

/-- Work after work. -/
theorem Worked.andThen {s : State} {x : Attempt} {f : State → Attempt} (hx : Worked s x.state)
    (hf : ∀ t, Worked t (f t).state) : Worked s (x.andThen f).state := by
  cases x with
  | done t => exact hx.trans (hf t)
  | failed e t => exact hx

theorem Worked.sinkAppend (v : Byte) (s : State) : Worked s (sinkAppend v s).state := by
  simp only [Machine.sinkAppend]
  split
  · exact .refl s
  · exact .push v s

theorem Worked.sinkAppendAll (bs : List Byte) (s : State) : Worked s (sinkAppendAll bs s).state := by
  induction bs generalizing s with
  | nil => exact .refl s
  | cons v vs ih => exact (Worked.sinkAppend v s).andThen fun t => ih t

theorem Worked.copyLiterals (n : Nat) (s : State) : Worked s (copyLiterals n s).state := by
  induction n generalizing s with
  | zero => exact .refl s
  | succ n ih =>
    refine Worked.andThen ?_ ih
    simp only [copyLiteral]
    split
    · exact .refl s
    · have h : Worked s { s with ip := s.ip + 1 } := .registers rfl
      exact h.trans (.sinkAppend _ _)

theorem Worked.copyBack (d n : Nat) (s : State) : Worked s (copyBack d n s).state := by
  induction n generalizing s with
  | zero => exact .refl s
  | succ n ih => exact (Worked.sinkAppend _ s).andThen ih

theorem Worked.copyMatch (d n : Nat) (s : State) : Worked s (copyMatch d n s).state := by
  simp only [Machine.copyMatch]
  split
  · exact .refl s
  · exact .copyBack d n s

theorem Worked.trail (sf : SField) (s : State) : Worked s (trail sf s).state :=
  (Worked.copyLiterals sf.val s).andThen fun _ => .registers rfl

theorem Worked.flushHold (s : State) : Worked s (flushHold s).state := by
  simp only [Machine.flushHold]
  split
  · exact (Worked.sinkAppendAll _ s).andThen fun _ => .registers rfl
  · exact .refl s

theorem Worked.flushLiterals (s : State) : Worked s (flushLiterals s).state := by
  simp only [Machine.flushLiterals]
  split
  · exact .refl s
  · split
    · exact (Worked.sinkAppendAll _ s).andThen fun _ => .registers rfl
    · split
      · have h : Worked s { s with hold0 := s.hold0 ||| byteOf s.litCnt } := .registers rfl
        exact ((h.trans (.flushHold _)).andThen fun t => .sinkAppendAll _ t).andThen fun _ => .registers rfl
      · exact ((Worked.flushHold s).andThen fun t => .sinkAppendAll _ t).andThen fun _ => .registers rfl

theorem Worked.emitHeld (bs : List Byte) (b0 b1 : Nat) (s : State) : Worked s (emitHeld bs b0 b1 s).state :=
  (Worked.sinkAppendAll bs s).andThen fun _ => .registers rfl

theorem Worked.emitMatch (d n ls : Nat) (s : State) : Worked s (emitMatch d n ls s).state := by
  simp only [Machine.emitMatch]
  repeat' split
  all_goals exact .emitHeld _ _ _ s

theorem Worked.encodeMatch (d n : Nat) (s : State) : Worked s (encodeMatch d n s).state :=
  (((Worked.flushLiterals s).andThen .flushHold).andThen fun t => .emitMatch d n (litStateAt s) t).andThen
    fun _ => .registers rfl

theorem Worked.encodeEnd (s : State) : Worked s (encodeEnd s).state :=
  (((Worked.flushLiterals s).andThen .flushHold).andThen fun t => .sinkAppendAll _ t).andThen fun _ => .registers rfl

/-- A token's meaning is work, closed by a Decoder error where a check fails. -/
theorem exec_token_worked {i : Instr} (h : i.isToken = true) (s : State) :
    ∃ t, Worked s t ∧ (exec i s = .next t ∨ ∃ e, exec i s = .next (t.decoderError e)) := by
  have close : ∀ x : Attempt, Worked s x.state →
      ∃ t, Worked s t ∧ (x.closeToken = .next t ∨ ∃ e, x.closeToken = .next (t.decoderError e)) := by
    intro x hx
    cases x with
    | done t => exact ⟨t, hx, .inl rfl⟩
    | failed e t => exact ⟨t, hx, .inr ⟨e, rfl⟩⟩
  have run : ∀ len, Worked s ((copyLiterals len s).andThen fun t => .done { t with ls := runLitState len }).state :=
    fun len => (Worked.copyLiterals len s).andThen fun _ => .registers rfl
  have mat : ∀ d n sf, Worked s ((copyMatch d n s).andThen (trail sf)).state :=
    fun d n sf => (Worked.copyMatch d n s).andThen fun t => .trail sf t
  cases i with
  | firstLit len => exact close _ (run len)
  | lit len => exact close _ (run len)
  | litx len => exact close _ (run len)
  | m1a d sf => exact close _ (mat d 2 sf)
  | m1b d sf => exact close _ (mat d 3 sf)
  | m2 d n sf => exact close _ (mat d n sf)
  | m3 d n sf => exact close _ (mat d n sf)
  | m3x d n sf => exact close _ (mat d n sf)
  | m4 d n sf => exact close _ (mat d n sf)
  | m4x d n sf => exact close _ (mat d n sf)
  | endMarker n sf =>
    simp only [exec_endMarker, execEndMarker]
    split
    · exact ⟨s, .refl s, .inr ⟨_, rfl⟩⟩
    · exact ⟨_, .registers rfl, .inl rfl⟩
  | encStart | encLit | encMatch | encEnd | idxInsert | idxLookup | decStart | hostWriteIn | hostSetInLen | hostReadOut
  | hostReadReg | reset => simp [Instr.isToken] at h

/-- A parse command's meaning is work, closed by an Encoder error where a check fails, or is not accepted. -/
theorem exec_parse_worked {i : Instr} (h : i = .encLit ∨ i = .encEnd ∨ ∃ a b, i = .encMatch a b) (s : State) :
    exec i s = .next s.notAccepted ∨
      ∃ t, Worked s t ∧ (exec i s = .next t ∨ ∃ e, exec i s = .next (t.encoderError e)) := by
  have close : ∀ x : Attempt, Worked s x.state →
      ∃ t, Worked s t ∧ (x.closeCommand = .next t ∨ ∃ e, x.closeCommand = .next (t.encoderError e)) := by
    intro x hx
    cases x with
    | done t => exact ⟨t, hx, .inl rfl⟩
    | failed e t => exact ⟨t, hx, .inr ⟨e, rfl⟩⟩
  rcases h with rfl | rfl | ⟨a, b, rfl⟩
  · simp only [exec_encLit, execEncLit]
    split
    · right
      split
      · exact ⟨s, .refl s, .inr ⟨_, rfl⟩⟩
      · exact ⟨_, .registers rfl, .inl rfl⟩
    · exact .inl rfl
  · simp only [exec_encEnd, execEncEnd]
    split
    · right
      split
      · exact ⟨s, .refl s, .inr ⟨_, rfl⟩⟩
      · exact close _ (.encodeEnd s)
    · exact .inl rfl
  · simp only [exec_encMatch, execEncMatch]
    split
    · right
      split
      · exact close _ (.encodeMatch _ _ s)
      · exact ⟨s, .refl s, .inr ⟨_, rfl⟩⟩
    · exact .inl rfl

end Sys2Proof.Machine
end

