-- ==== Sys2Proof/Laws/PerInstr.lean ====
section
/-! SUPPORT. Facts about every instruction, one lemma a constructor: the first byte of its encoding is one its row of
spec/opcode_table.json admits. -/

namespace Sys2Proof.Laws.RowPattern

/-- The first byte of an encoding: the command byte of a token, the op code of a command. -/
def firstByte : Code → Option Byte
  | .token bs => bs.head?
  | .command op _ _ => some op

/-- The bytes an instruction's row of spec/opcode_table.json admits, with the tests of its column "when". -/
def Admits : Instr → Nat → Prop
  | .firstLit _, t => 0x12 ≤ t
  | .lit _, t => 0x01 ≤ t ∧ t ≤ 0x0F
  | .litx _, t => t = 0x00
  | .m1a _ _, t | .m1b _ _, t => t ≤ 0x0F
  | .m2 _ _ _, t => 0x40 ≤ t
  | .m3 _ _ _, t => 0x21 ≤ t ∧ t ≤ 0x3F
  | .m3x _ _ _, t => t = 0x20
  | .m4 _ _ _, t => 0x10 ≤ t ∧ t ≤ 0x1F ∧ t % 8 ≠ 0
  | .m4x _ _ _, t => t = 0x10 ∨ t = 0x18
  | .endMarker _ _, t => 0x10 ≤ t ∧ t ≤ 0x17
  | .encStart _, t => t = 0x01
  | .encLit, t => t = 0x02
  | .encMatch _ _, t => t = 0x03
  | .encEnd, t => t = 0x04
  | .idxInsert _, t => t = 0x05
  | .idxLookup _, t => t = 0x06
  | .decStart _, t => t = 0x08
  | .hostWriteIn _ _, t => t = 0x09
  | .hostSetInLen _, t => t = 0x0A
  | .hostReadOut _, t => t = 0x0B
  | .hostReadReg _, t => t = 0x0C
  | .reset, t => t = 0x0F

/-- A well-formed instruction's encoding begins with a byte its row admits. -/
def Statement (i : Instr) : Prop :=
  i.wf = true → ∃ b, firstByte (encode i) = some b ∧ Admits i b.toNat

theorem toNat_byteOf (x : Nat) : (byteOf x).toNat = x % 256 := by simp [byteOf]

theorem firstLit (len : Nat) : Statement (.firstLit len) := by
  intro h
  simp [Instr.wf] at h
  exact ⟨_, rfl, by simp only [Admits, toNat_byteOf]; omega⟩

theorem lit (len : Nat) : Statement (.lit len) := by
  intro h
  simp [Instr.wf] at h
  exact ⟨_, rfl, by simp only [Admits, toNat_byteOf]; omega⟩

theorem litx (len : Nat) : Statement (.litx len) := by
  intro _; exact ⟨_, rfl, by simp [Admits]⟩

theorem m1a (d : Nat) (s : SField) : Statement (.m1a d s) := by
  intro h
  have := s.isLt
  simp [Instr.wf] at h
  exact ⟨_, rfl, by simp only [Admits, toNat_byteOf]; omega⟩

theorem m1b (d : Nat) (s : SField) : Statement (.m1b d s) := by
  intro h
  have := s.isLt
  simp [Instr.wf] at h
  exact ⟨_, rfl, by simp only [Admits, toNat_byteOf]; omega⟩

theorem m2 (d n : Nat) (s : SField) : Statement (.m2 d n s) := by
  intro h
  have := s.isLt
  simp [Instr.wf] at h
  exact ⟨_, rfl, by simp only [Admits, toNat_byteOf]; omega⟩

theorem m3 (d n : Nat) (s : SField) : Statement (.m3 d n s) := by
  intro h
  have := s.isLt
  simp [Instr.wf] at h
  exact ⟨_, rfl, by simp only [Admits, toNat_byteOf]; omega⟩

theorem m3x (d n : Nat) (s : SField) : Statement (.m3x d n s) := by
  intro _; exact ⟨_, rfl, by simp [Admits]⟩

theorem m4 (d n : Nat) (s : SField) : Statement (.m4 d n s) := by
  intro h
  have := s.isLt
  simp [Instr.wf] at h
  exact ⟨_, rfl, by simp only [Admits, toNat_byteOf]; omega⟩

theorem m4x (d n : Nat) (s : SField) : Statement (.m4x d n s) := by
  intro h
  have := s.isLt
  simp [Instr.wf] at h
  exact ⟨_, rfl, by simp only [Admits, toNat_byteOf]; omega⟩

theorem endMarker (n : Nat) (s : SField) : Statement (.endMarker n s) := by
  intro h
  simp only [Instr.wf, decide_eq_true_eq] at h
  simp only [encode, firstByte]
  split
  · exact ⟨_, rfl, by simp only [Admits, toNat_byteOf]; omega⟩
  · exact ⟨_, rfl, by simp [Admits]⟩

theorem encStart (a : Word) : Statement (.encStart a) := fun _ => ⟨_, rfl, rfl⟩

theorem encLit : Statement .encLit := fun _ => ⟨_, rfl, rfl⟩

theorem encMatch (a b : Word) : Statement (.encMatch a b) := fun _ => ⟨_, rfl, rfl⟩

theorem encEnd : Statement .encEnd := fun _ => ⟨_, rfl, rfl⟩

theorem idxInsert (a : Word) : Statement (.idxInsert a) := fun _ => ⟨_, rfl, rfl⟩

theorem idxLookup (a : Word) : Statement (.idxLookup a) := fun _ => ⟨_, rfl, rfl⟩

theorem decStart (a : Word) : Statement (.decStart a) := fun _ => ⟨_, rfl, rfl⟩

theorem hostWriteIn (a b : Word) : Statement (.hostWriteIn a b) := fun _ => ⟨_, rfl, rfl⟩

theorem hostSetInLen (a : Word) : Statement (.hostSetInLen a) := fun _ => ⟨_, rfl, rfl⟩

theorem hostReadOut (a : Word) : Statement (.hostReadOut a) := fun _ => ⟨_, rfl, rfl⟩

theorem hostReadReg (a : Word) : Statement (.hostReadReg a) := fun _ => ⟨_, rfl, rfl⟩

theorem reset : Statement .reset := fun _ => ⟨_, rfl, rfl⟩

end Sys2Proof.Laws.RowPattern
end

