-- ==== Sys2Proof/Laws/Tokens.lean ====
section
/-! SUPPORT. What a token's meaning can do, said once: append and consume, end in a Decoder error, or end the call. -/

namespace Sys2Proof.Machine

/-- Appended bytes do not outlive a Decoder error (93 U1). -/
theorem decoderError_pushAll (e : ErrCode) (s : State) (bs : List Byte) :
    (s.pushAll bs).decoderError e = s.decoderError e := rfl

theorem exec_literalRun {i : Instr} {len : Nat} (h : runLength i = some len) (s : State) :
    exec i s = literalRun len s := by
  cases i <;> simp [runLength] at h <;> subst h <;> rfl

theorem exec_matchToken {i : Instr} {d n : Nat} {sf : SField} (h : matchOperands i = some (d, n, sf)) (s : State) :
    exec i s = matchToken d n sf s := by
  cases i <;> simp [matchOperands] at h <;> obtain ⟨rfl, rfl, rfl⟩ := h <;> rfl

/-- A token is a literal run, a match, or END. -/
theorem token_kinds {i : Instr} (h : i.isToken = true) :
    (∃ len, runLength i = some len) ∨ (∃ d n sf, matchOperands i = some (d, n, sf)) ∨ ∃ n sf, i = .endMarker n sf := by
  cases i <;> simp [Instr.isToken] at h <;> simp [runLength, matchOperands]

/-- A well-formed match has a distance of at least 1 (30_encoding.md R88). -/
theorem wf_distance {i : Instr} {d n : Nat} {sf : SField} (h : matchOperands i = some (d, n, sf)) (hw : i.wf = true) :
    1 ≤ d := by
  cases i <;> simp [matchOperands] at h <;> obtain ⟨rfl, rfl, rfl⟩ := h <;> simp [Instr.wf] at hw <;> omega

/-- What a token's meaning can do. -/
inductive TokenCase (s : State) : Host.Outcome State Fault Refusal → Prop where
  /-- `k` literals are read and `bs` appended. -/
  | copied (k : Nat) (bs : List Byte) (l : LitState) (hk : k ≤ s.avail) (hr : bs.length ≤ s.room) :
      TokenCase s (.next (({ s with ip := s.ip + k, ls := l } : State).pushAll bs))
  /-- A check failed after `k` reads. -/
  | failed (k : Nat) (e : ErrCode) (hk : k ≤ s.avail) (he : e ≠ .none) :
      TokenCase s (.next (({ s with ip := s.ip + k } : State).decoderError e))
  /-- END. -/
  | ended : TokenCase s (.next { s with status := .done })

/-- The copies of a token on which the Sink is within its capacity. -/
theorem copyLiterals_cases (n : Nat) {s : State} (h : s.outLen ≤ s.cfg.outCap) :
    (∃ bs : List Byte, copyLiterals n s = .done (({ s with ip := s.ip + n } : State).pushAll bs) ∧ n ≤ s.avail ∧
      bs.length = n ∧ n ≤ s.room)
    ∨ ∃ (k : Nat) (e : ErrCode) (bs : List Byte), e ≠ .none ∧ k ≤ s.avail ∧
      copyLiterals n s = .failed e (({ s with ip := s.ip + k } : State).pushAll bs) := by
  rw [copyLiterals_eq n h]
  split
  · rename_i hh
    exact .inl ⟨_, rfl, hh.1, by simp, hh.2⟩
  · split
    · exact .inr ⟨s.avail, _, _, by simp, Nat.le_refl _, rfl⟩
    · exact .inr ⟨s.room + 1, _, _, by simp, by omega, rfl⟩

/-- A well-formed token goes one of the ways of `TokenCase`. -/
theorem token_cases {i : Instr} {s : State} (ht : i.isToken = true) (hw : i.wf = true) (hc : s.outLen ≤ s.cfg.outCap) :
    TokenCase s (exec i s) := by
  rcases token_kinds ht with ⟨len, h⟩ | ⟨d, n, sf, h⟩ | ⟨n, sf, rfl⟩
  · rw [exec_literalRun h, literalRun]
    rcases copyLiterals_cases len hc with ⟨bs, e, h1, h2, h3⟩ | ⟨k, er, bs, h1, h2, e⟩
    · rw [e]; exact .copied len bs (runLitState len) h1 (by omega)
    · rw [e]; exact .failed k er h2 h1
  · rw [exec_matchToken h, matchToken, copyMatch_eq (wf_distance h hw) n hc]
    split
    · exact .failed 0 _ (Nat.zero_le _) (by simp)
    · split
      · rename_i h1 h2
        have hc' : (s.pushAll (s.pattern d n)).outLen ≤ (s.pushAll (s.pattern d n)).cfg.outCap := by
          simp only [State.pushAll_outLen, State.pattern_length, State.pushAll_cfg]
          simp only [State.room] at h2; omega
        rw [Attempt.andThen_done, trail]
        rcases copyLiterals_cases sf.val hc' with ⟨bs, e, g1, g2, g3⟩ | ⟨k, er, bs, g1, g2, e⟩
        · rw [e]
          have := TokenCase.copied (s := s) sf.val (s.pattern d n ++ bs) (trailLitState sf) g1 (by
            simp only [List.length_append, State.pattern_length]
            simp only [State.room, State.pushAll_outLen, State.pattern_length, State.pushAll_cfg] at g3 h2 ⊢
            omega)
          rw [State.pushAll_append] at this
          exact this
        · rw [e]; exact .failed k er g2 g1
      · exact .failed 0 _ (Nat.zero_le _) (by simp)
  · simp only [exec_endMarker, execEndMarker]
    split
    · exact .failed 0 _ (Nat.zero_le _) (by simp)
    · exact .ended

end Sys2Proof.Machine
end

