-- ==== Sys2Proof/Tests/Slice0.lean ====
section
/-! SUPPORT. Tests of one step or one decoding each, expected results from 95_test_vectors.md and the worked examples of
the rules, and a witness for the premises of every statement. -/

namespace Sys2Proof.Tests

open Sys2Proof.Machine

/-! ## Ill-formed instructions are refused, one for each bound (30_encoding.md R85, R88) -/

theorem test_wf_firstLit : (Instr.firstLit 0).wf = false ∧ (Instr.firstLit 239).wf = false := by decide
theorem test_wf_lit : (Instr.lit 3).wf = false ∧ (Instr.lit 19).wf = false := by decide
theorem test_wf_litx : (Instr.litx 18).wf = false := by decide
theorem test_wf_m1a : (Instr.m1a 0 0).wf = false ∧ (Instr.m1a 1025 0).wf = false := by decide
theorem test_wf_m1b : (Instr.m1b 2048 0).wf = false ∧ (Instr.m1b 3073 0).wf = false := by decide
theorem test_wf_m2 : (Instr.m2 0 3 0).wf = false ∧ (Instr.m2 2049 3 0).wf = false ∧ (Instr.m2 1 2 0).wf = false ∧
    (Instr.m2 1 9 0).wf = false := by decide
theorem test_wf_m3 : (Instr.m3 0 3 0).wf = false ∧ (Instr.m3 16385 3 0).wf = false ∧ (Instr.m3 1 2 0).wf = false ∧
    (Instr.m3 1 34 0).wf = false := by decide
theorem test_wf_m3x : (Instr.m3x 0 34 0).wf = false ∧ (Instr.m3x 16385 34 0).wf = false ∧
    (Instr.m3x 1 33 0).wf = false := by decide
theorem test_wf_m4 : (Instr.m4 16384 3 0).wf = false ∧ (Instr.m4 49152 3 0).wf = false ∧
    (Instr.m4 16385 2 0).wf = false ∧ (Instr.m4 16385 10 0).wf = false := by decide
theorem test_wf_m4x : (Instr.m4x 16384 10 0).wf = false ∧ (Instr.m4x 49152 10 0).wf = false ∧
    (Instr.m4x 16385 9 0).wf = false := by decide
theorem test_wf_endMarker : (Instr.endMarker 2 0).wf = false := by decide

/-! ## Words written out from the encodings (30_encoding.md R85 to R95, R101) -/

theorem test_decode_firstLit : decodeToken .first 0 [0b11111111#8, 0x61] = .ok (.firstLit 238, [0x61]) := by decide
theorem test_decode_lit : decodeToken .cmd 0 [0b00001111#8, 0x61] = .ok (.lit 18, [0x61]) := by decide
theorem test_decode_litx : decodeToken .cmd 0 [0x00, 0x00, 0b00000001#8, 0x61] = .ok (.litx 274, [0x61]) := by decide
theorem test_decode_m1a : decodeToken .cmd 1 [0b00001101#8, 0b11111111#8] = .ok (.m1a 1024 1, []) := by decide
theorem test_decode_m1b : decodeToken .cmd 4 [0b00001110#8, 0b11111111#8] = .ok (.m1b 3072 2, []) := by decide
theorem test_decode_m2 : decodeToken .cmd 4 [0b11111111#8, 0b11111111#8] = .ok (.m2 2048 8 3, []) := by decide
theorem test_decode_m3 : decodeToken .cmd 0 [0b00111111#8, 0b11111110#8, 0b11111111#8] = .ok (.m3 16384 33 2, []) := by
  decide
theorem test_decode_m3x : decodeToken .cmd 0 [0x20, 0, 0, 0, 0xC9, 0b00000100#8, 0b00000001#8, 7]
    = .ok (.m3x 66 999 0, [7]) := by decide
theorem test_decode_m4 : decodeToken .cmd 0 [0b00011111#8, 0b11111100#8, 0b11111111#8] = .ok (.m4 49151 9 0, []) := by
  decide
theorem test_decode_m4x : decodeToken .cmd 0 [0b00010000#8, 0b00000100#8, 0x00, 0x11] = .ok (.m4x 17472 13 0, []) := by
  decide
theorem test_decode_endMarker : decodeToken .cmd 1 [0x10, 0, 0, 0, 0xFF, 0, 0] = .ok (.endMarker 1029 0, []) := by
  decide
theorem test_decode_encCommands : decodeCommand 0x01 1 7 = .ok (.encStart 1) ∧ decodeCommand 0x02 7 7 = .ok .encLit ∧
    decodeCommand 0x03 3 6 = .ok (.encMatch 3 6) ∧ decodeCommand 0x04 7 7 = .ok .encEnd := by decide
theorem test_decode_idxCommands : decodeCommand 0x05 4 7 = .ok (.idxInsert 4) ∧
    decodeCommand 0x06 4 7 = .ok (.idxLookup 4) := by decide
theorem test_decode_hostCommands : decodeCommand 0x08 9 7 = .ok (.decStart 9) ∧
    decodeCommand 0x09 5 0x55 = .ok (.hostWriteIn 5 0x55) ∧ decodeCommand 0x0A 9 7 = .ok (.hostSetInLen 9) ∧
    decodeCommand 0x0B 5 7 = .ok (.hostReadOut 5) ∧ decodeCommand 0x0C 16 7 = .ok (.hostReadReg 16) ∧
    decodeCommand 0x0F 7 7 = .ok .reset := by decide
theorem test_decode_reserved : decodeCommand 0x00 0 0 = .error (.reservedOp 0) ∧
    decodeCommand 0x10 0 0 = .error (.reservedOp 0x10) := by decide

/-! ## Small states -/

/-- An idle block of 64 bytes each way with the given input. -/
def loaded (bs : List Byte) : State :=
  { State.powerOn ⟨64, 64⟩ with inMem := storeAt 0 bs [], inLen := bs.length }

/-- A running decode call on the given input. -/
def decoding (bs : List Byte) : State := { loaded bs with mode := .decode, status := .busy }

/-- The same, past its START step: the next token begins at `ip` with literal state `l`, and `out` has been produced. -/
def decodingAt (bs : List Byte) (ip : Nat) (l : LitState) (out : List Byte) : State :=
  { decoding bs with dph := .cmd, ip := ip, ls := l, outMem := storeAt 0 out [], outLen := out.length }

/-- A running encode call on the given input, at position `pos` with `cnt` literals pending and nothing written. -/
def encoding (bs : List Byte) (pos cnt : Nat) : State :=
  { loaded bs with mode := .encode, status := .busy, pos := pos, litCnt := cnt }

/-- Ask something of the next state. -/
def onNext (o : Outcome) (p : State → Bool) : Bool :=
  match o with
  | .next t => p t
  | .fault _ => false
  | .refused _ => false

/-- The bytes produced so far. -/
def output (s : State) : List Byte := s.outBytes 0 s.outLen

/-! ## The Decoder, one step each (40_decoder.md; 95_test_vectors.md section 2) -/

/-- V-D1. -/
theorem test_firstLit : onNext (step (decoding [0x14, 0x61, 0x62, 0x63, 0x11, 0, 0])) (fun t =>
    output t = [0x61, 0x62, 0x63] ∧ t.ls = 3 ∧ t.ip = 4 ∧ t.tokstart = 0 ∧ t.dph = .cmd ∧ t.status = .busy) = true := by
  decide
/-- V-D35: the third literal is read before its append fails. -/
theorem test_firstLit_overrun : onNext (step { decoding [0x14, 0x61, 0x62, 0x63, 0x11, 0, 0] with cfg := ⟨64, 2⟩ })
    (fun t => t.status = .error ∧ t.errcode = .outputOverrun ∧ t.errpos = 0 ∧ t.ip = 4 ∧ t.ls = 0 ∧ t.dph = .first)
    = true := by decide
/-- R127's example. -/
theorem test_lit : onNext (step (decodingAt [0x01, 0x61, 0x62, 0x63, 0x64] 0 0 [])) (fun t =>
    output t = [0x61, 0x62, 0x63, 0x64] ∧ t.ls = 4 ∧ t.ip = 5) = true := by decide
/-- R128's example: `00 02` and 20 bytes. -/
theorem test_litx : onNext (step (decodingAt (0x00 :: 0x02 :: List.replicate 20 0x43) 0 0 [])) (fun t =>
    output t = List.replicate 20 0x43 ∧ t.ls = 4 ∧ t.ip = 22) = true := by decide
/-- V-D33's ending: a stream that ends in the extension bytes. -/
theorem test_litx_truncated : onNext (step (decodingAt [0x00, 0x00] 0 0 [])) (fun t =>
    t.errcode = .endOfInput ∧ t.errpos = 0 ∧ t.ip = 2 ∧ t.ls = 0) = true := by decide
/-- V-D4: `d = 2`, `S = 1`. -/
theorem test_m1a : onNext (step (decodingAt [0x13, 0x61, 0x62, 0x05, 0x00, 0x7A, 0x11] 3 2 [0x61, 0x62])) (fun t =>
    output t = [0x61, 0x62, 0x61, 0x62, 0x7A] ∧ t.ls = 1 ∧ t.ip = 6 ∧ t.tokstart = 3) = true := by decide
/-- V-D6: `d = 4` with two bytes of output. -/
theorem test_m1a_corrupt : onNext (step (decodingAt [0x13, 0x61, 0x62, 0x0C, 0x00, 0x11] 3 2 [0x61, 0x62])) (fun t =>
    t.errcode = .corruptStream ∧ t.errpos = 3 ∧ t.ip = 5 ∧ t.ls = 2) = true := by decide
/-- R130's example: OUT_LEN = 3000, `04 00` copies from distance 2050. -/
theorem test_m1b : onNext (step { decodingAt [0x04, 0x00] 0 4 [] with
      cfg := ⟨64, 3003⟩, outLen := 3000, outMem := [(950, 7), (951, 8), (952, 9)] }) (fun t =>
    t.outLen = 3003 ∧ t.outByte 3000 = 7 ∧ t.outByte 3001 = 8 ∧ t.outByte 3002 = 9 ∧ t.ls = 0) = true := by decide
/-- V-D13: `n = 8`, `d = 1`, an overlapping copy. -/
theorem test_m2_overlap : onNext (step (decodingAt [0x12, 0x61, 0xE0, 0x00] 2 1 [0x61])) (fun t =>
    output t = List.replicate 9 0x61 ∧ t.ls = 0 ∧ t.ip = 4) = true := by decide
/-- V-D14: `S = 2`. -/
theorem test_m2_trail : onNext (step (decodingAt [0x14, 0x61, 0x62, 0x63, 0x4A, 0x00, 0x78, 0x79] 4 3 [0x61, 0x62, 0x63]))
    (fun t => output t = [0x61, 0x62, 0x63, 0x61, 0x62, 0x63, 0x78, 0x79] ∧ t.ls = 2 ∧ t.ip = 8) = true := by decide
/-- R132's example. -/
theorem test_m3 : onNext (step (decodingAt [0x21, 0x00, 0x00] 0 1 [0x78])) (fun t =>
    output t = [0x78, 0x78, 0x78, 0x78] ∧ t.ls = 0 ∧ t.ip = 3) = true := by decide
/-- V-D34: D1 is missing. -/
theorem test_m3_truncated : onNext (step (decodingAt [0x12, 0x61, 0x31, 0x00] 2 1 [0x61])) (fun t =>
    t.errcode = .endOfInput ∧ t.errpos = 2 ∧ t.ip = 4 ∧ t.ls = 1) = true := by decide
/-- V-D19: `n = 34`. -/
theorem test_m3x : onNext (step (decodingAt [0x12, 0x61, 0x20, 0x01, 0x00, 0x00] 2 1 [0x61])) (fun t =>
    output t = List.replicate 35 0x61 ∧ t.ls = 0 ∧ t.ip = 6) = true := by decide
/-- R134's example: `11 04 00` copies 3 bytes from distance 16385. -/
theorem test_m4 : onNext (step { decodingAt [0x11, 0x04, 0x00] 0 4 [] with
      cfg := ⟨64, 20000⟩, outLen := 16385, outMem := [(0, 5), (1, 6), (2, 7)] }) (fun t =>
    t.outLen = 16388 ∧ t.outByte 16385 = 5 ∧ t.outByte 16387 = 7 ∧ t.ls = 0) = true := by decide
/-- V-D24: `d = 16385` with one byte of output. -/
theorem test_m4_corrupt : onNext (step (decodingAt [0x12, 0x61, 0x11, 0x04, 0x00] 2 1 [0x61])) (fun t =>
    t.errcode = .corruptStream ∧ t.errpos = 2 ∧ t.ip = 5) = true := by decide
/-- R135's example: `18 1F 00 00` copies 40 bytes from distance 32768. -/
theorem test_m4x : onNext (step { decodingAt [0x18, 0x1F, 0x00, 0x00] 0 4 [] with
      cfg := ⟨64, 40000⟩, outLen := 32768, outMem := [(0, 5), (39, 6)] }) (fun t =>
    t.outLen = 32808 ∧ t.outByte 32768 = 5 ∧ t.outByte 32807 = 6) = true := by decide
/-- V-D36: the range check fails before any byte is copied. -/
theorem test_m4x_corrupt : onNext (step (decodingAt [0x10, 0x04, 0x00, 0x11, 0x00, 0x00] 0 0 [])) (fun t =>
    t.errcode = .corruptStream ∧ t.errpos = 0 ∧ t.ip = 4) = true := by decide
/-- V-D25, and `S` bits ignored as in V-D27. -/
theorem test_endMarker : onNext (step (decodingAt [0x11, 0x01, 0x00] 0 0 [])) (fun t =>
    t.status = .done ∧ t.outLen = 0 ∧ t.ip = 3 ∧ t.errcode = .none) = true := by decide
/-- V-S4: EXP_LEN = 5 with nothing produced. -/
theorem test_endMarker_mismatch : onNext (step { decodingAt [0x11, 0x00, 0x00] 0 0 [] with expLen := 5 }) (fun t =>
    t.status = .error ∧ t.errcode = .sizeMismatch ∧ t.errpos = 0 ∧ t.ip = 3) = true := by decide
/-- V-D25: the START step of `11 00 00` consumes nothing. -/
theorem test_start_noFirstRun : onNext (step (decoding [0x11, 0x00, 0x00])) (fun t =>
    t.dph = .cmd ∧ t.ip = 0 ∧ t.status = .busy) = true := by decide
/-- V-D31: an empty stream. -/
theorem test_start_empty : onNext (step (decoding [])) (fun t =>
    t.status = .error ∧ t.errcode = .endOfInput ∧ t.errpos = 0 ∧ t.ip = 0) = true := by decide

/-! ## The Encoder (41_encoder.md; 95_test_vectors.md section 3) -/

/-- R176's example, at level BEST. -/
theorem test_encStart : onNext (exec (.encStart 3) { loaded [0x61] with outLen := 5, bucket := [(1, [0])] }) (fun t =>
    t.status = .busy ∧ t.mode = .encode ∧ t.level = .best ∧ t.pos = 0 ∧ t.outLen = 0 ∧ t.bucket = [] ∧ t.inLen = 1)
    = true := by decide
/-- R177. -/
theorem test_encLit : onNext (exec .encLit (encoding [0x61, 0x62, 0x63] 2 2)) (fun t =>
    t.pos = 3 ∧ t.litCnt = 3 ∧ t.outLen = 0) = true := by decide
/-- V-E33. -/
theorem test_encLit_pastEnd : onNext (exec .encLit (encoding [0x61] 1 1)) (fun t =>
    t.status = .error ∧ t.errcode = .illegalParse ∧ t.errpos = 1 ∧ t.pos = 1 ∧ t.litCnt = 1) = true := by decide
/-- P1, command 23: `abcabcabc`, ENC_MATCH 3, 6. -/
theorem test_encMatch : onNext (exec (.encMatch 3 6)
      (encoding [0x61, 0x62, 0x63, 0x61, 0x62, 0x63, 0x61, 0x62, 0x63] 3 3)) (fun t =>
    output t = [0x14, 0x61, 0x62, 0x63] ∧ t.hold0 = 0xA8 ∧ t.hold1 = 0 ∧ t.holdV = true ∧ t.pos = 9 ∧ t.litCnt = 0 ∧
      t.started = true) = true := by decide
/-- V-E32: check 5. -/
theorem test_encMatch_differs : onNext (exec (.encMatch 3 3) (encoding [0x61, 0x62, 0x63, 0x61, 0x62, 0x64] 3 3))
    (fun t => t.errcode = .illegalParse ∧ t.errpos = 3 ∧ t.outLen = 0 ∧ t.litCnt = 3) = true := by decide
/-- V-E9's end: a run of 2 goes into the S field of the held `6C 00`. -/
theorem test_encEnd : onNext (exec .encEnd { encoding [0x61, 0x62, 0x78, 0x79] 4 2 with
      started := true, holdV := true, hold0 := 0x6C }) (fun t =>
    output t = [0x6E, 0x00, 0x78, 0x79, 0x11, 0x00, 0x00] ∧ t.status = .done ∧ t.holdV = false) = true := by decide
/-- V-E35: OUT_CAP = 4. -/
theorem test_encEnd_overrun : onNext (exec .encEnd { encoding [0x61] 1 1 with cfg := ⟨64, 4⟩ }) (fun t =>
    output t = [0x12, 0x61, 0x11, 0x00] ∧ t.errcode = .outputOverrun ∧ t.errpos = 1 ∧ t.mode = .encode) = true := by
  decide

/-! ## The Hash Index (42_match_index.md; 95_test_vectors.md section 4) -/

/-- `abcdabcdabcd`. -/
def abcd3 : List Byte := [0x61, 0x62, 0x63, 0x64, 0x61, 0x62, 0x63, 0x64, 0x61, 0x62, 0x63, 0x64]

/-- R214's example. -/
theorem test_idxInsert : onNext (exec (.idxInsert 0) (encoding abcd3 0 0)) (fun t => t.bucket = [(11298, [0])]) = true := by
  decide
/-- V-I5: bucket 3106 at BEST, the third insert. -/
theorem test_idxInsert_best : onNext (exec (.idxInsert 8) { encoding abcd3 0 0 with
      level := .best, bucket := [(3106, [4, 0])] }) (fun t => t.bucket = [(3106, [8, 4, 0])]) = true := by decide
/-- V-I4. -/
theorem test_idxLookup : onNext (exec (.idxLookup 4) { encoding abcd3 0 0 with bucket := [(11298, [0])] }) (fun t =>
    t.answers = [.positions [0]]) = true := by decide
/-- V-I6. -/
theorem test_idxLookup_best : onNext (exec (.idxLookup 8) { encoding abcd3 0 0 with
      level := .best, bucket := [(3106, [8, 4, 0])] }) (fun t => t.answers = [.positions [4, 0]]) = true := by decide

/-! ## The host's commands (60_exceptions.md, 70_reset_and_hazards.md; 95_test_vectors.md section 5) -/

/-- V-H12. -/
theorem test_decStart : onNext (exec (.decStart 9) { loaded [] with
      mode := .encode, status := .done, pos := 9, started := true, hold0 := 0xA8, outLen := 9, bucket := [(1058, [3])] })
    (fun t => t.mode = .decode ∧ t.status = .busy ∧ t.expLen = 9 ∧ t.pos = 0 ∧ t.started = false ∧ t.hold0 = 0 ∧
      t.outLen = 0 ∧ t.bucket = [(1058, [3])]) = true := by decide
/-- V-H8: the encode call ends and MODE stays ENCODE. -/
theorem test_decStart_busy : onNext (exec (.decStart 0) (encoding [0x61] 0 0)) (fun t =>
    t.status = .error ∧ t.errcode = .illegalCommand ∧ t.errpos = 0 ∧ t.mode = .encode) = true := by decide
/-- R262, and the list stays in order. -/
theorem test_hostWriteIn : onNext (exec (.hostWriteIn 1 0x55) { loaded [] with inMem := [(0, 1), (3, 4)] }) (fun t =>
    t.inMem = [(0, 1), (1, 0x55), (3, 4)] ∧ t.inLen = 0) = true := by decide
/-- V-H4. -/
theorem test_hostWriteIn_busy : onNext (exec (.hostWriteIn 0 0) (decoding [0x12])) (fun t =>
    t.errcode = .illegalCommand ∧ t.status = .error ∧ t.inByte 0 = 0x12) = true := by decide
/-- V-H3: at IN_CAP = 64. -/
theorem test_hostSetInLen : onNext (exec (.hostSetInLen 65) (loaded [1])) (fun t => t = loaded [1]) = true ∧
    onNext (exec (.hostSetInLen 64) (loaded [1])) (fun t => t = { loaded [1] with inLen := 64 }) = true := by decide
/-- V-H10. -/
theorem test_hostReadOut : onNext (exec (.hostReadOut 0) { loaded [] with
      status := .done, outMem := [(0, 0x12)], outLen := 1 }) (fun t => t.answers = [.byte 0x12]) = true := by decide
/-- V-H9. -/
theorem test_hostReadReg : onNext (exec (.hostReadReg 1) { loaded [] with status := .done }) (fun t =>
      t.answers = [.value 2]) = true ∧
    onNext (exec (.hostReadReg 99) (loaded [])) (fun t => t.answers = [.value 0]) = true := by decide
/-- V-H11. -/
theorem test_reset : onNext (exec .reset (encoding [0x61] 1 1)) (fun t =>
    t.status = .idle ∧ t.mode = .none ∧ t.errcode = .none ∧ t.litCnt = 0 ∧ t.inLen = 0) = true := by decide
/-- 10_state.md R39, row IN: a byte that was loaded is read back, during a call too. -/
theorem test_readIn : onNext (step { loaded [0x61, 0x62] with port := [.readIn 1] }) (fun t =>
      t.answers = [.byte 0x62] ∧ t.port = []) = true ∧
    onNext (step { decoding [0x12, 0x61] with port := [.readIn 0] }) (fun t =>
      t.answers = [.byte 0x12] ∧ t.status = .busy ∧ t.ip = 0) = true := by decide
/-- V-H5 and V-H6: op 0x07. -/
theorem test_reservedOp : onNext (step { loaded [] with port := [.command 7 0 0] }) (fun t => t.status = .idle) = true ∧
    onNext (step { encoding [] 0 0 with port := [.command 7 0 0] }) (fun t => t.errcode = .illegalCommand) = true := by
  decide
/-- The host's table words: RESET, an M2 token and FIRSTLIT run as the first instruction after reset. -/
theorem test_tableWords : decodeTableWord 8 0x0F = some .reset ∧ decodeTableWord 8 0x40 = some (.m2 1 3 0) ∧
    decodeTableWord 8 0x12 = some (.firstLit 1) ∧ fetch (State.reset.withFetchWord 8 0x0F) = .command .reset State.reset := by
  decide

/-! ## Witnesses: the premises of each statement are met, each clause at a boundary of its range -/

theorem witness_startCommands : (loaded []).status ≠ .busy ∧ (encoding [] 0 0).status = .busy ∧
    (decoding []).status = .busy := by decide

/-- An ended encode call: what a later call must not see. -/
def ended : State :=
  { loaded [0x61] with mode := .encode, status := .done, pos := 1, started := true, hold0 := 3, outLen := 4, bucket := [(1, [0])] }

theorem witness_forgets : (loaded [0x61]).status ≠ .busy ∧ ended.status ≠ .busy ∧ (loaded [0x61]).cfg = ended.cfg ∧
    (loaded [0x61]).inMem = ended.inMem ∧ (loaded [0x61]).inEpoch = ended.inEpoch ∧ (loaded [0x61]).inLen = ended.inLen ∧
    (loaded [0x61]).port = ended.port ∧ (loaded [0x61]).answers = ended.answers ∧
    (loaded [0x61]).drawn = ended.drawn := by decide

theorem witness_notAccepted : ¬ Accepted (loaded []) .encLit ∧ ¬ Accepted (decoding []) (.idxInsert 0) ∧
    ¬ Accepted (encoding [] 0 0) (.hostWriteIn 0 0) := by simp [Accepted, loaded, decoding, encoding, State.powerOn]

theorem witness_accepted : Accepted (loaded []) (.hostWriteIn 0 0) ∧ Accepted (encoding [] 0 0) .encLit ∧
    Accepted (decoding []) .reset ∧ Instr.encLit.isToken = false := by
  simp [Accepted, loaded, encoding, State.powerOn, Instr.isToken]

theorem witness_reservedOps : ∀ op ∈ [0x00#8, 0x07, 0x0D, 0x0E, 0x10, 0xFF],
    ({ encoding [] 0 0 with port := [.command op 0 0] } : State).port = .command op 0 0 :: [] ∧
      (op.toNat = 0x00 ∨ op.toNat = 0x07 ∨ op.toNat = 0x0D ∨ op.toNat = 0x0E ∨ 0x10 ≤ op.toNat) := by decide

theorem witness_hostWriteIn : (loaded []).status ≠ .busy ∧ (63 : Word).toNat < (loaded []).cfg.inCap ∧
    (255 : Word).toNat < 256 ∧ (loaded []).cfg.inCap ≤ (64 : Word).toNat ∧ (decoding []).status = .busy := by decide

theorem witness_hostWriteIn_wide : (loaded []).status ≠ .busy ∧ (63 : Word).toNat < (loaded []).cfg.inCap ∧
    256 ≤ (256 : Word).toNat := by decide

theorem witness_hostSetInLen : (loaded []).status ≠ .busy ∧ (64 : Word).toNat ≤ (loaded []).cfg.inCap ∧
    (loaded []).cfg.inCap < (65 : Word).toNat ∧ (decoding []).status = .busy := by decide

theorem witness_hostReadOut : (3 : Word).toNat < ended.outLen ∧ ended.status ≠ .busy ∧ ended.outLen ≤ (4 : Word).toNat ∧
    (decoding []).status = .busy := by decide

theorem witness_hostReadReg : (17, ended.inLen) ∈ [(16, ended.outLen), (17, ended.inLen)] ∧ 18 ≤ (18 : Word).toNat := by
  decide

theorem witness_bucket : (loaded []).level = .fast ∧ ({ loaded [] with level := .best } : State).level = .best := by decide

/-- Position 8 is the last whose 4-byte prefix fits in 12 bytes, 9 the last whose 3-byte prefix does. -/
theorem witness_index : (encoding abcd3 0 0).mode = .encode ∧ (encoding abcd3 0 0).status = .busy ∧
    (8 : Word).toNat + 4 ≤ (encoding abcd3 0 0).inLen ∧ (encoding abcd3 0 0).inLen < (9 : Word).toNat + 4 ∧
    (9 : Word).toNat + 3 ≤ (encoding abcd3 0 0).inLen ∧ (encoding abcd3 0 0).inLen < (10 : Word).toNat + 3 := by decide

theorem witness_encLit : (encoding [0x61] 0 0).mode = .encode ∧ (encoding [0x61] 0 0).status = .busy ∧
    (encoding [0x61] 0 0).pos < (encoding [0x61] 0 0).inLen ∧ (encoding [0x61] 1 1).inLen ≤ (encoding [0x61] 1 1).pos := by
  decide

/-- The five conditions of 41_encoder.md R173, each at its boundary: V-E24, V-E25, V-E26, V-E27, V-E28, V-E29, V-E30, V-E31
and V-E32. -/
theorem witness_illegalMatch :
    IllegalMatch 0 2 (encoding abcd3 2 2) ∧ IllegalMatch 3 2 (encoding abcd3 2 2) ∧
    IllegalMatch 49152 3 { encoding [] 50000 50000 with inLen := 50003 } ∧ IllegalMatch 2 1 (encoding abcd3 2 2) ∧
    IllegalMatch 4 9 (encoding abcd3 4 4) ∧ IllegalMatch 4 2 (encoding abcd3 4 0) ∧ IllegalMatch 4 2 (encoding abcd3 4 4) ∧
    IllegalMatch 1025 2 { encoding [] 1028 1 with inLen := 1030 } ∧ IllegalMatch 3 3 (encoding abcd3 4 4) := by
  exact ⟨.inl (.inl rfl), .inl (.inr (by decide)), .inr (.inl (by decide)), .inr (.inr (.inl (.inl (by decide)))),
    .inr (.inr (.inl (.inr (by decide)))), .inr (.inr (.inr (.inl ⟨rfl, by decide⟩))),
    .inr (.inr (.inr (.inl ⟨rfl, by decide⟩))), .inr (.inr (.inr (.inl ⟨rfl, by decide⟩))),
    .inr (.inr (.inr (.inr ⟨0, by decide, by decide⟩)))⟩

/-- A running encode call about to take a match of `n` bytes at distance `d` after `cnt` literals, its bytes all equal. -/
def matching (d n cnt : Nat) : State :=
  { encoding [] d cnt with
    cfg := ⟨100000, 100000⟩, inLen := d + n, started := true, holdV := true
    inMem := storeAt d (List.replicate n 7) (storeAt 0 (List.replicate n 7) []) }

/-- All premises of a legal match with room, as one check. -/
def legalCase (d n cnt : Nat) : Bool :=
  (matching d n cnt).mode = .encode ∧ (matching d n cnt).status = .busy ∧ (BitVec.ofNat 32 d).toNat = d ∧
  (BitVec.ofNat 32 n).toNat = n ∧ legalMatch d n (matching d n cnt) ∧
  (matching d n cnt).holdV = (matching d n cnt).started ∧
  (matching d n cnt).outLen + (flushBytes (matching d n cnt)).length
    + (headBytes (chosenToken d n (litStateAt (matching d n cnt)))).length ≤ (matching d n cnt).cfg.outCap + 2

/-- Every class of 41_encoder.md R174 at the ends of its ranges: M1A, M2, M1B, M3, M3X, M4, M4X. -/
theorem witness_legalMatches :
    ∀ p ∈ [(1, 2, 1), (1024, 2, 3), (1, 3, 0), (2048, 8, 4), (2049, 3, 4), (3072, 3, 4), (2049, 3, 3), (3073, 3, 4),
      (1, 9, 0), (16384, 33, 0), (16384, 34, 0), (16385, 9, 0), (32767, 3, 0), (32768, 3, 0), (49151, 10, 0)],
      legalCase p.1 p.2.1 p.2.2 = true := by decide

theorem witness_encEnd : (encoding [0x61] 1 1).mode = .encode ∧ (encoding [0x61] 1 1).status = .busy ∧
    (encoding [0x61] 1 1).pos = (encoding [0x61] 1 1).inLen ∧ (encoding [0x61] 1 1).holdV = (encoding [0x61] 1 1).started ∧
    (encoding [0x61] 1 1).outLen + (flushBytes (encoding [0x61] 1 1)).length + 3 ≤ 5 ∧
    (encoding [0x61] 0 0).pos ≠ (encoding [0x61] 0 0).inLen := by decide

/-- V-E35 at ENC_END, and P1's ENC_MATCH with room for 3 of the 4 bytes it appends. -/
theorem witness_overrun : ({ encoding [0x61] 1 1 with cfg := ⟨64, 4⟩ } : State).cfg.outCap
      < 0 + (flushBytes (encoding [0x61] 1 1) ++ [0x11, 0x00, 0x00]).length ∧
    legalMatch 3 6 { encoding [0x61, 0x62, 0x63, 0x61, 0x62, 0x63, 0x61, 0x62, 0x63] 3 3 with cfg := ⟨64, 3⟩ } = true ∧
    3 < 0 + (flushBytes (encoding [0x61, 0x62, 0x63, 0x61, 0x62, 0x63, 0x61, 0x62, 0x63] 3 3)).length
      + (headBytes (chosenToken 3 6 3)).length - 2 := by decide

theorem witness_ignoresTheIndex : onNext (exec .encLit (encoding [0x61] 0 0)) (fun _ => true) = true ∧
    onNext (exec .encEnd (encoding [] 0 0)) (fun _ => true) = true ∧
    onNext (exec (.encMatch 1 2) (matching 1 2 1)) (fun t => t.status = .busy) = true := by decide

theorem witness_twoByteTokens : (0x0F#8).toNat < 0x10 ∧ (1 : LitState) ≠ 0 ∧ (3 : LitState) ≠ 4 ∧
    0x40 ≤ (0x40#8).toNat ∧ 0x40 ≤ (0xFF#8).toNat := by decide

theorem witness_distanceWord : (0 : Nat) = ((0x03#8).toNat + 256 * (0x00#8).toNat) / 4 ∧
    (3 : SField) = Fin.ofNat 4 (0x03#8).toNat ∧ (16383 : Nat) = ((0xFC#8).toNat + 256 * (0xFF#8).toNat) / 4 ∧
    1 ≤ 31 ∧ 31 ≤ 31 ∧ 1 ≤ 7 ∧ 7 ≤ 7 ∧ 1 ≤ 256 := by decide

/-- `WriteExt(1)`, `WriteExt(255)`, `WriteExt(256)` and V-E6's `Ext(966)` (R93). -/
theorem witness_extBytes : extBytes 1 = [1] ∧ extBytes 255 = [0xFF] ∧ extBytes 256 = [0, 1] ∧
    extBytes 966 = [0, 0, 0, 0xC9] := by decide

theorem witness_noIllegalByte : decodeToken .cmd 0 [] = .error .truncated ∧ 0x12 ≤ (0x12#8).toNat ∧
    (0x11#8).toNat ≤ 0x11 := by decide

/-- Every token class at an end of its ranges, at a place where it may stand. -/
theorem witness_tokens :
    ∀ p ∈ ([(.firstLit 1, .first, 0), (.firstLit 238, .first, 0), (.lit 4, .cmd, 0), (.lit 18, .cmd, 0),
        (.litx 19, .cmd, 0), (.m1a 1024 3, .cmd, 1), (.m1b 3072 0, .cmd, 4), (.m2 2048 8 3, .cmd, 4),
        (.m3 16384 33 0, .cmd, 2), (.m3x 1 34 1, .cmd, 3), (.m4 32768 9 0, .cmd, 0), (.m4x 49151 10 2, .cmd, 4),
        (.endMarker 3 0, .cmd, 0), (.endMarker 10 3, .cmd, 4)] : List (Instr × Phase × LitState)),
      p.1.isToken = true ∧ p.1.wf = true ∧ p.1.fits p.2.1 p.2.2 = true := by decide

theorem witness_commands : Instr.reset.isToken = false ∧ (Instr.encMatch 3 6).isToken = false := by decide

theorem witness_idle : (loaded []).decoderTurn [] ∧ ¬ ((loaded []).mode = .decode ∧ (loaded []).status = .busy) ∧
    ({ loaded [] with port := [.decoder, .command 0 0 0] } : State).decoderTurn [.command 0 0 0] := by decide

theorem witness_stepRuns_command : ({ loaded [] with port := [.command 0x0F 0 0] } : State).port
      = .command 0x0F 0 0 :: [] ∧ decodeCommand 0x0F 0 0 = .ok .reset := by decide

/-- M2 `48 00` as the next token of a running call. -/
def atM2 : State := decodingAt [0x14, 0x61, 0x62, 0x63, 0x48, 0x00, 0x11, 0, 0] 4 3 [0x61, 0x62, 0x63]

theorem witness_stepRuns_token : atM2.decoderTurn [] ∧ atM2.mode = .decode ∧ atM2.status = .busy ∧ atM2.dph = .cmd ∧
    decodeToken .cmd atM2.ls (atM2.inBytes atM2.ip (atM2.inLen - atM2.ip)) = .ok (.m2 3 3 0, [0x11, 0, 0]) := by decide

theorem witness_stepRuns_start : (decoding [0x12, 0x61]).decoderTurn [] ∧ (decoding [0x12, 0x61]).mode = .decode ∧
    (decoding [0x12, 0x61]).status = .busy ∧ (decoding [0x12, 0x61]).dph = .first ∧ (decoding [0x12, 0x61]).inLen ≠ 0 ∧
    0x12 ≤ ((decoding [0x12, 0x61]).inByte 0).toNat ∧
    onNext (exec (.firstLit (((decoding [0x12, 0x61]).inByte 0).toNat - 17))
      { decoding [0x12, 0x61] with tokstart := 0, ip := 1 }) (fun _ => true) = true := by decide

theorem witness_startStep : (decoding []).decoderTurn [] ∧ (decoding []).mode = .decode ∧ (decoding []).status = .busy ∧
    (decoding []).dph = .first ∧ (decoding []).inLen = 0 ∧ (decoding [0x11]).inLen ≠ 0 ∧
    ((decoding [0x11]).inByte 0).toNat ≤ 0x11 := by decide

/-- Truncated inside an extension (V-D33), and at the command byte. -/
theorem witness_truncated : (decodingAt [0x20, 0x00] 0 1 []).decoderTurn [] ∧ (decodingAt [0x20, 0x00] 0 1 []).ip ≤ 2 ∧
    decodeToken .cmd 1 ((decodingAt [0x20, 0x00] 0 1 []).inBytes 0 2) = .error .truncated ∧
    decodeToken .cmd 1 ((decodingAt [0x20, 0x00] 2 1 []).inBytes 2 0) = .error .truncated := by decide

/-- With a Sink of `cap` bytes. -/
def capped (cap : Nat) (s : State) : State := { s with cfg := ⟨64, cap⟩ }

/-- A LIT of 4 with input and room for exactly 4. -/
theorem witness_literalRun : runLength (.lit 4) = some 4 ∧ (Instr.lit 4).wf = true ∧
    (capped 4 (decodingAt [1, 2, 3, 4, 5] 1 0 [])).outLen ≤ 4 ∧
    (capped 4 (decodingAt [1, 2, 3, 4, 5] 1 0 [])).inputLeft 4 ∧
    (capped 4 (decodingAt [1, 2, 3, 4, 5] 1 0 [])).roomFor 4 := by decide

/-- The same with one byte of input missing and room for the rest. -/
theorem witness_literalRun_input : (decodingAt [1, 2, 3, 4] 1 0 []).ip ≤ (decodingAt [1, 2, 3, 4] 1 0 []).inLen ∧
    ¬ (capped 3 (decodingAt [1, 2, 3, 4] 1 0 [])).inputLeft 4 ∧
    (capped 3 (decodingAt [1, 2, 3, 4] 1 0 [])).roomFor (4 - 1) := by decide

/-- The same with one byte of room missing and input for the byte that does not fit. -/
theorem witness_literalRun_room : (capped 3 (decodingAt [1, 2, 3, 4, 5] 1 0 [])).outLen ≤ 3 ∧
    ¬ (capped 3 (decodingAt [1, 2, 3, 4, 5] 1 0 [])).roomFor 4 ∧
    (capped 3 (decodingAt [1, 2, 3, 4, 5] 1 0 [])).inputLeft (3 - 0 + 1) := by decide

/-- M2 `d = 3`, `n = 3`, `S = 2` with the farthest distance and exactly the room and input it needs. -/
theorem witness_matchToken : matchOperands (.m2 3 3 2) = some (3, 3, 2) ∧
    3 ≤ (capped 8 (decodingAt [9, 9] 0 3 [1, 2, 3])).outLen ∧
    (capped 8 (decodingAt [9, 9] 0 3 [1, 2, 3])).roomFor (3 + (2 : SField).val) ∧
    (capped 8 (decodingAt [9, 9] 0 3 [1, 2, 3])).inputLeft (2 : SField).val := by decide

/-- The same token with a distance one too large, and with no room for the last byte of the copy. -/
theorem witness_matchErrors_copy : (decodingAt [9, 9] 0 3 [1, 2]).outLen < 3 ∧
    (capped 5 (decodingAt [9, 9] 0 3 [1, 2, 3])).outLen ≤ 5 ∧ 3 ≤ (decodingAt [9, 9] 0 3 [1, 2, 3]).outLen ∧
    ¬ (capped 5 (decodingAt [9, 9] 0 3 [1, 2, 3])).roomFor 3 := by decide

/-- The same token with no input for its second literal, and with no room for it. -/
theorem witness_matchErrors_trail : (capped 7 (decodingAt [9] 0 3 [1, 2, 3])).roomFor (3 + (1 - 0)) ∧
    (decodingAt [9] 0 3 [1, 2, 3]).ip ≤ (decodingAt [9] 0 3 [1, 2, 3]).inLen ∧
    ¬ (capped 7 (decodingAt [9] 0 3 [1, 2, 3])).inputLeft (2 : SField).val ∧
    (capped 7 (decodingAt [9, 9] 0 3 [1, 2, 3])).roomFor 3 ∧
    ¬ (capped 7 (decodingAt [9, 9] 0 3 [1, 2, 3])).roomFor (3 + (2 : SField).val) ∧
    (capped 7 (decodingAt [9, 9] 0 3 [1, 2, 3])).inputLeft (7 - 3 - 3 + 1) := by decide

theorem witness_endMarker : (decodingAt [] 0 0 [1, 2]).expLen = 0 ∧
    ({ decodingAt [] 0 0 [1, 2] with expLen := 2 } : State).outLen = 2 ∧
    ({ decodingAt [] 0 0 [1, 2] with expLen := 3 } : State).outLen ≠ 3 := by decide

theorem witness_tokenStep : atM2.decoderTurn [] ∧ atM2.mode = .decode ∧ atM2.status = .busy ∧ atM2.dph = .cmd ∧
    atM2.outLen ≤ atM2.cfg.outCap ∧ atM2.ip ≤ atM2.inLen ∧ onNext (step atM2) (fun t => t.ip = 6) = true := by decide

theorem witness_decodeCall : (decoding [0x11, 0, 0]).mode = .decode ∧ (decoding [0x11, 0, 0]).status = .busy ∧
    (decoding [0x11, 0, 0]).dph = .first ∧ (decoding [0x11, 0, 0]).ip = 0 ∧ (decoding [0x11, 0, 0]).ls = 0 ∧
    (decoding [0x11, 0, 0]).outLen = 0 ∧ (decoding [0x11, 0, 0]).port = [] := by decide

/-- The same running Decoder with other bytes after its input, other Encoder and Index registers and another IN_CAP. -/
def atM2' : State :=
  { atM2 with
    cfg := ⟨99, 64⟩, inMem := insertAt 20 0x77 atM2.inMem, level := .best, pos := 5, bucket := [(3, [1])], drawn := 9
    port := [.decoder] }

theorem witness_sameDecoding : SameDecoding atM2 atM2' ∧ atM2.mode = .decode ∧ atM2.status = .busy ∧
    atM2.outLen ≤ atM2.cfg.outCap ∧ atM2.decoderTurn [] ∧ atM2'.decoderTurn [] ∧
    onNext (step atM2) (fun _ => true) = true ∧ onNext (step atM2') (fun _ => true) = true := by
  refine ⟨⟨by decide, by decide, by decide, by decide, by decide, by decide, by decide, by decide, by decide, by decide,
    by decide, by decide, fun _ => by decide, fun _ => by decide⟩, ?_⟩
  decide

theorem witness_params : Params.valid ⟨1, 1⟩ ∧ Params.valid ⟨2 ^ 32 - 1, 2 ^ 32 - 1⟩ := by decide

/-- A running encode call with a held token, a pending run and an index entry has the invariant. -/
def running : State :=
  { encoding [0x61, 0x61, 0x61, 0x61] 4 1 with
    started := true, holdV := true, hold0 := 0x40, outMem := [(0, 0x12), (1, 0x61)], outLen := 2, bucket := [(5, [0])] }

theorem witness_inv : Inv running ∧
    onNext (step running) (fun t => t.status = .busy) = true := by
  refine ⟨⟨⟨by decide, by decide, by decide, by decide, by decide, by decide, by decide, by decide⟩,
    ⟨by decide, .inl (by decide), by decide, by decide, by decide, by decide, by decide, by decide, by decide, by decide, by decide,
      by decide, by decide, by decide⟩, fun h => absurd h (by decide), fun _ => ⟨by decide, by decide, by decide, by decide, by decide⟩⟩, ?_⟩
  decide

theorem witness_busyStep : running.status = .busy ∧ onNext (step running) (fun _ => true) = true ∧
    atM2.status = .busy ∧ onNext (step atM2) (fun t => t.outLen = 6) = true := by decide

theorem witness_writers : onNext (exec (.decStart 0) (loaded [])) (fun t => t.mode ≠ (loaded []).mode) = true ∧
    onNext (exec (.encStart 1) (loaded [])) (fun t => t.level ≠ (loaded []).level) = true ∧
    onNext (exec (.idxInsert 0) (encoding abcd3 0 0)) (fun t => t.bucket ≠ (encoding abcd3 0 0).bucket) = true := by decide

theorem witness_acceptedIndex : Accepted (encoding abcd3 0 0) (.idxInsert 0) ∧
    Accepted (encoding abcd3 0 0) (.idxLookup 0) := ⟨⟨rfl, rfl⟩, ⟨rfl, rfl⟩⟩

theorem witness_endedCall : ended.status ≠ .busy ∧ onNext (step ended) (fun _ => true) = true ∧
    onNext (step { ended with port := [.command 9 0 1] }) (fun t => t.status = .done) = true := by decide

/-- `abcabcabc`, and the stream V-E3 writes for it. -/
def abc3 : State := loaded [0x61, 0x62, 0x63, 0x61, 0x62, 0x63, 0x61, 0x62, 0x63]
def abc3Stream : State := loaded [0x14, 0x61, 0x62, 0x63, 0xA8, 0x00, 0x11, 0x00, 0x00]

/-- V-E3's parse, with index commands in it. -/
def abc3Parse : List Instr := [.idxInsert 0, .encLit, .encLit, .encLit, .idxLookup 3, .encMatch 3 6]

theorem witness_roundTrip : abc3.status ≠ .busy ∧ abc3.inLen < 2 ^ 32 ∧
    (∀ i ∈ abc3Parse, isParseCommand i = true) ∧
    ((runAll (.encStart 0 :: abc3Parse ++ [.encEnd]) abc3).map fun t => (t.status, output t))
      = some (.done, [0x14, 0x61, 0x62, 0x63, 0xA8, 0x00, 0x11, 0x00, 0x00]) ∧
    abc3Stream.status ≠ .busy ∧ abc3Stream.port = [] ∧ abc3Stream.inLen = 9 ∧
    abc3Stream.inBytes 0 9 = [0x14, 0x61, 0x62, 0x63, 0xA8, 0x00, 0x11, 0x00, 0x00] ∧
    abc3.inLen ≤ abc3Stream.cfg.outCap := by decide

theorem witness_readIn : ({ loaded [] with port := [.readIn 0] } : State).port = .readIn 0 :: [] ∧
    (0 : Word).toNat < (loaded []).cfg.inCap ∧ (BitVec.ofNat 32 ((loaded []).cfg.inCap - 1)).toNat < (loaded []).cfg.inCap ∧
    (loaded []).cfg.inCap ≤ (BitVec.ofNat 32 (loaded []).cfg.inCap).toNat := by decide

end Sys2Proof.Tests
end

section
/-! SUPPORT. The capacities, the port and the answers under every instruction (00_scope.md R7, 10_state.md R20; logs 1, 2,
4 and 19). -/

namespace Sys2Proof.Machine

/-- `t` has the capacities and the port of `s`, and at most one answer more. -/
structure PortKept (s t : State) : Prop where
  cfg : t.cfg = s.cfg
  port : t.port = s.port
  answers : t.answers = s.answers ∨ ∃ x, t.answers = x :: s.answers

/-- The outcome is a next state that keeps the port. -/
def NextKeepsPort (s : State) (o : Outcome) : Prop := ∃ t, o = .next t ∧ PortKept s t

theorem PortKept.refl (s : State) : PortKept s s := ⟨rfl, rfl, .inl rfl⟩

theorem PortKept.notAccepted (s : State) : PortKept s s.notAccepted := by
  unfold State.notAccepted
  split
  · exact ⟨rfl, rfl, .inl rfl⟩
  · exact .refl s

theorem PortKept.answer (x : Answer) (s : State) : PortKept s (s.answer x) := ⟨rfl, rfl, .inr ⟨x, rfl⟩⟩

theorem PortKept.answerFree (s : State) : PortKept s s.answerFree := ⟨rfl, rfl, .inr ⟨_, rfl⟩⟩

/-- The work of a token or of an Encoder command has the three fields in its frame. -/
theorem Worked.portKept {s t : State} (h : Worked s t) : PortKept s t := by
  rw [h.frame]
  exact ⟨rfl, rfl, .inl rfl⟩

theorem PortKept.decoderError {s t : State} (h : PortKept s t) (e : ErrCode) : PortKept s (t.decoderError e) :=
  ⟨h.cfg, h.port, h.answers⟩

theorem PortKept.encoderError {s t : State} (h : PortKept s t) (e : ErrCode) : PortKept s (t.encoderError e) :=
  ⟨h.cfg, h.port, h.answers⟩

theorem PortKept.next {s t : State} (h : PortKept s t) : NextKeepsPort s (.next t) := ⟨t, rfl, h⟩

/-- A choice between two outcomes that keep the port. -/
theorem NextKeepsPort.ite {s : State} {c : Prop} [Decidable c] {o o' : Outcome} (h : NextKeepsPort s o)
    (h' : NextKeepsPort s o') : NextKeepsPort s (if c then o else o') := by
  split
  · exact h
  · exact h'

/-- A command that is refused where its condition fails (60_exceptions.md R266). -/
theorem NextKeepsPort.accepted {s : State} {c : Prop} [Decidable c] {o : Outcome} (h : NextKeepsPort s o) :
    NextKeepsPort s (if c then o else .next s.notAccepted) :=
  h.ite (PortKept.notAccepted s).next

theorem exec_token_keepsPort {i : Instr} (h : i.isToken = true) (s : State) : NextKeepsPort s (exec i s) := by
  obtain ⟨t, hw, ht | ⟨e, ht⟩⟩ := exec_token_worked h s
  · exact ⟨t, ht, hw.portKept⟩
  · exact ⟨_, ht, hw.portKept.decoderError e⟩

theorem exec_parse_keepsPort {i : Instr} (h : i = .encLit ∨ i = .encEnd ∨ ∃ a b, i = .encMatch a b) (s : State) :
    NextKeepsPort s (exec i s) := by
  obtain hn | ⟨t, hw, ht | ⟨e, ht⟩⟩ := exec_parse_worked h s
  · exact ⟨_, hn, .notAccepted s⟩
  · exact ⟨t, ht, hw.portKept⟩
  · exact ⟨_, ht, hw.portKept.encoderError e⟩

/-- Every instruction has a next state, and it keeps the port: tokens and parse commands by their frame, every other
command by the record it writes. -/
theorem exec_keepsPort (i : Instr) (s : State) : NextKeepsPort s (exec i s) := by
  cases i with
  | firstLit | lit | litx | m1a | m1b | m2 | m3 | m3x | m4 | m4x | endMarker => exact exec_token_keepsPort rfl s
  | encLit => exact exec_parse_keepsPort (.inl rfl) s
  | encEnd => exact exec_parse_keepsPort (.inr (.inl rfl)) s
  | encMatch a b => exact exec_parse_keepsPort (.inr (.inr ⟨a, b, rfl⟩)) s
  | encStart a => exact .accepted (PortKept.next ⟨rfl, rfl, .inl rfl⟩)
  | decStart a => exact .accepted (PortKept.next ⟨rfl, rfl, .inl rfl⟩)
  | idxInsert a => exact .accepted (.ite (PortKept.next ⟨rfl, rfl, .inl rfl⟩) (PortKept.refl s).next)
  | hostWriteIn a b => exact .accepted (.ite (PortKept.next ⟨rfl, rfl, .inl rfl⟩) (PortKept.refl s).next)
  | hostSetInLen a => exact .accepted (.ite (PortKept.next ⟨rfl, rfl, .inl rfl⟩) (PortKept.refl s).next)
  | idxLookup a => exact .accepted (PortKept.answer _ s).next
  | hostReadOut a => exact .ite (PortKept.answer _ s).next (PortKept.answerFree s).next
  | hostReadReg a => exact (PortKept.answer _ s).next
  | reset => exact PortKept.next ⟨rfl, rfl, .inl rfl⟩

/-- Settles O47: the next state `exec` gives is the one that keeps the port. -/
theorem instructionsLeaveThePortAlone : Obligations.InstructionsLeaveThePortAlone := by
  intro i s t ht
  obtain ⟨u, hu, hcfg, hport, hans⟩ := exec_keepsPort i s
  obtain rfl : u = t := Host.Outcome.next.inj (hu.symm.trans ht)
  exact ⟨hcfg, hport, hans⟩

end Sys2Proof.Machine
end

section
/-! SUPPORT. What a port word decodes to, and what an instruction can do, said once for all of them: one case per kind of
outcome, with the frame of tokens and parse commands and the exact next state of every other command. -/

namespace Sys2Proof.Machine

/-- A port word is read as the command its op code encodes (30_encoding.md R101). -/
theorem decodeCommand_ok {op : Byte} {a b : Word} {i : Instr} (h : decodeCommand op a b = .ok i) :
    i.isToken = false ∧ Laws.RowPattern.firstByte (encode i) = some op := by
  simp only [decodeCommand, ite_eq_iff, Except.ok.injEq, reduceCtorEq, and_false, or_false] at h
  iterate 11
    obtain ⟨rfl, rfl⟩ | ⟨-, h⟩ := h
    · exact ⟨rfl, rfl⟩
  obtain ⟨rfl, rfl⟩ := h
  exact ⟨rfl, rfl⟩

/-- An outcome that is a next state with `P`. -/
def Leads (P : State → Prop) (o : Outcome) : Prop := ∃ t, o = .next t ∧ P t

theorem Leads.next {P : State → Prop} {t : State} (h : P t) : Leads P (.next t) := ⟨t, rfl, h⟩

theorem Leads.ite {P : State → Prop} {c : Prop} [Decidable c] {o o' : Outcome} (h : c → Leads P o)
    (h' : ¬ c → Leads P o') : Leads P (if c then o else o') := by
  split
  · exact h ‹_›
  · exact h' ‹_›

theorem Leads.of_next {P : State → Prop} {o : Outcome} {t : State} (h : Leads P o) (ht : o = .next t) : P t := by
  obtain ⟨u, hu, hp⟩ := h
  obtain rfl : u = t := Host.Outcome.next.inj (hu.symm.trans ht)
  exact hp

/-- The commands that work on the parse (41_encoder.md R177 to R179). -/
def WorksOnParse (i : Instr) : Prop := i = .encLit ∨ i = .encEnd ∨ ∃ a b, i = .encMatch a b

/-- What an instruction can do: every next state of `exec`, by kind. The cases are an upper bound: `notAccepted`,
`ignored` and `answered` do not say for which instructions they occur. -/
inductive ExecCase (s : State) : Instr → State → Prop where
  /-- A command that is not accepted. -/
  | notAccepted (i : Instr) : ExecCase s i s.notAccepted
  /-- A command that is accepted and has no effect. -/
  | ignored (i : Instr) : ExecCase s i s
  /-- A token. -/
  | token (i : Instr) (t : State) (hi : i.isToken = true) (hw : Worked s t) : ExecCase s i t
  /-- A token on which a check fails. -/
  | tokenError (i : Instr) (t : State) (e : ErrCode) (hi : i.isToken = true) (hw : Worked s t) :
      ExecCase s i (t.decoderError e)
  /-- ENC_LIT, ENC_MATCH or ENC_END. -/
  | parse (i : Instr) (t : State) (hi : WorksOnParse i) (hm : acceptsParse s = true) (hw : Worked s t) : ExecCase s i t
  /-- One of those on which a check fails. -/
  | parseError (i : Instr) (t : State) (e : ErrCode) (hi : WorksOnParse i) (hm : acceptsParse s = true)
      (hw : Worked s t) : ExecCase s i (t.encoderError e)
  /-- ENC_START. -/
  | encStart (a : Word) (h : s.status ≠ .busy) : ExecCase s (.encStart a) { s with
      mode := .encode, status := .busy, errcode := .none, errpos := 0, level := levelOperand a
      pos := 0, litCnt := 0, started := false, holdV := false, hold0 := 0, hold1 := 0, outLen := 0, bucket := []
      ip := 0, tokstart := 0, ls := 0, dph := .first, expLen := 0 }
  /-- DEC_START. -/
  | decStart (a : Word) (h : s.status ≠ .busy) : ExecCase s (.decStart a) { s with
      mode := .decode, status := .busy, errcode := .none, errpos := 0, expLen := a.toNat
      ip := 0, tokstart := 0, ls := 0, dph := .first, outLen := 0
      pos := 0, litCnt := 0, started := false, hold0 := 0, hold1 := 0, holdV := false }
  /-- IDX_INSERT. -/
  | idxInsert (a : Word) (hm : acceptsParse s = true) : ExecCase s (.idxInsert a) { s with
      bucket := insertAt (bucketOf s a.toNat)
        (pushChain (chainDepth s.level) a.toNat (s.chain (bucketOf s a.toNat))) s.bucket }
  /-- HOST_WRITE_IN. -/
  | hostWriteIn (a b : Word) (v : Byte) (d : Nat) (h : s.status ≠ .busy) (ha : a.toNat < s.cfg.inCap) :
      ExecCase s (.hostWriteIn a b) { s with inMem := insertAt a.toNat v s.inMem, drawn := d }
  /-- HOST_SET_IN_LEN. -/
  | hostSetInLen (a : Word) (h : s.status ≠ .busy) (ha : a.toNat ≤ s.cfg.inCap) :
      ExecCase s (.hostSetInLen a) { s with inLen := a.toNat }
  /-- IDX_LOOKUP, HOST_READ_OUT or HOST_READ_REG: an answer. -/
  | answered (i : Instr) (as : List Answer) (d : Nat) : ExecCase s i { s with answers := as, drawn := d }
  /-- RESET. -/
  | reset : ExecCase s .reset { State.powerOn s.cfg with
      inEpoch := s.drawn, outEpoch := s.drawn, drawn := s.drawn + 1, port := s.port, answers := s.answers }

theorem exec_token_leads {i : Instr} (hi : i.isToken = true) (s : State) : Leads (ExecCase s i) (exec i s) := by
  obtain ⟨t, hw, ht | ⟨e, ht⟩⟩ := exec_token_worked hi s
  · exact ⟨t, ht, .token i t hi hw⟩
  · exact ⟨_, ht, .tokenError i t e hi hw⟩

/-- A parse command outside an encode call is not accepted (60_exceptions.md R266). -/
theorem exec_parse_notAccepted {i : Instr} (hi : WorksOnParse i) {s : State} (hm : ¬ acceptsParse s = true) :
    exec i s = .next s.notAccepted := by
  obtain rfl | rfl | ⟨a, b, rfl⟩ := hi
  · exact if_neg hm
  · exact if_neg hm
  · exact if_neg hm

theorem exec_parse_leads {i : Instr} (hi : WorksOnParse i) (s : State) : Leads (ExecCase s i) (exec i s) := by
  by_cases hm : acceptsParse s = true
  · obtain hn | ⟨t, hw, ht | ⟨e, ht⟩⟩ := exec_parse_worked hi s
    · exact ⟨_, hn, .notAccepted i⟩
    · exact ⟨t, ht, .parse i t hi hm hw⟩
    · exact ⟨_, ht, .parseError i t e hi hm hw⟩
  · exact ⟨_, exec_parse_notAccepted hi hm, .notAccepted i⟩

theorem exec_leads (i : Instr) (s : State) : Leads (ExecCase s i) (exec i s) := by
  have refused : ∀ i, Leads (ExecCase s i) (.next s.notAccepted) := fun i => .next (.notAccepted i)
  have idle : ∀ i, Leads (ExecCase s i) (.next s) := fun i => .next (.ignored i)
  have setup := (acceptsSetup_iff s).1
  cases i with
  | firstLit | lit | litx | m1a | m1b | m2 | m3 | m3x | m4 | m4x | endMarker => exact exec_token_leads rfl s
  | encLit => exact exec_parse_leads (.inl rfl) s
  | encEnd => exact exec_parse_leads (.inr (.inl rfl)) s
  | encMatch a b => exact exec_parse_leads (.inr (.inr ⟨a, b, rfl⟩)) s
  | encStart a => exact .ite (fun h => .next (.encStart a (setup h))) fun _ => refused _
  | decStart a => exact .ite (fun h => .next (.decStart a (setup h))) fun _ => refused _
  | idxInsert a =>
    exact .ite (fun h => .ite (fun _ => .next (.idxInsert a h)) fun _ => idle _) fun _ => refused _
  | hostWriteIn a b =>
    exact .ite (fun h => .ite (fun ha => .next (.hostWriteIn a b _ _ (setup h) ha)) fun _ => idle _) fun _ => refused _
  | hostSetInLen a =>
    exact .ite (fun h => .ite (fun ha => .next (.hostSetInLen a (setup h) ha)) fun _ => idle _) fun _ => refused _
  | idxLookup a => exact .ite (fun _ => .next (.answered _ _ _)) fun _ => refused _
  | hostReadOut a => exact .ite (fun _ => .next (.answered _ _ _)) fun _ => .next (.answered _ _ _)
  | hostReadReg a => exact .next (.answered _ _ _)
  | reset => exact .next .reset

/-- A next state of an instruction is one of the cases of `ExecCase`. -/
theorem exec_cases {i : Instr} {s t : State} (h : exec i s = .next t) : ExecCase s i t :=
  (exec_leads i s).of_next h

end Sys2Proof.Machine
end

section
/-! SUPPORT. The invariant under the shared operations: the model's own fields, the Sink, and the ways a call ends. -/

namespace Sys2Proof.Machine

/-- The invariant does not look at the port, the answers or the model's own counters. -/
theorem Inv.of_bookkeeping {s t : State} (h : Inv s) (ht : t = { s with
    inEpoch := t.inEpoch, outEpoch := t.outEpoch, port := t.port, answers := t.answers, drawn := t.drawn }) : Inv t := by
  rw [ht]
  exact ⟨{ h.storage with }, { h.registers with }, fun hr => { h.decoder hr with }, fun hr => { h.encoder hr with }⟩

/-- Between calls storage and registers are all there is to the invariant. -/
theorem Inv.of_notBusy {s : State} (hs : StorageInv s) (hr : RegisterInv s) (h : s.status ≠ .busy) : Inv s :=
  ⟨hs, hr, fun hd => absurd ((decoderRuns_iff s).1 hd).2 h, fun he => absurd ((acceptsParse_iff s).1 he).2 h⟩

theorem Inv.powerOn {p : Params} (h : p.valid) : Inv (State.powerOn p) := by
  refine .of_notBusy ?_ ?_ (by simp [State.powerOn])
  · constructor
    case caps => exact h
    all_goals simp [State.powerOn, Memory.wf, Arena.wf, rising]
  · constructor <;> simp [State.powerOn]

/-- During a call OUT_LEN is within OUT_CAP. -/
theorem RegisterInv.outLen_le {s : State} (h : RegisterInv s) (hb : s.status = .busy) : s.outLen ≤ s.cfg.outCap :=
  h.outLenFits.resolve_right fun hl => nomatch hb.symm.trans hl.2

theorem StorageInv.outCap_lt {s : State} (h : StorageInv s) : s.cfg.outCap < 2 ^ 32 := h.caps.2.2.2

theorem inLen_lt {s : State} (hs : StorageInv s) (hr : RegisterInv s) : s.inLen < 2 ^ 32 :=
  Nat.lt_of_le_of_lt hr.inLenFits hs.caps.2.1

/-- A call that runs has a unit that owns it (10_state.md R23, R24). -/
theorem RegisterInv.mode_of_busy {s : State} (h : RegisterInv s) (hb : s.status = .busy) : s.mode ≠ .none :=
  fun hm => nomatch hb.symm.trans (h.idleOnly.2 hm)

/-- A running call may end DONE (40_decoder.md R140, 41_encoder.md R179). -/
theorem Inv.done {s : State} (hs : StorageInv s) (hr : RegisterInv s) (hb : s.status = .busy) :
    Inv { s with status := .done } :=
  .of_notBusy { hs with }
    { hr with
      outLenFits := .inl (hr.outLen_le hb)
      errorOnly := ⟨fun h => (nomatch h), fun h => nomatch hb.symm.trans (hr.errorOnly.2 h)⟩
      errposOnly := fun _ => hr.errposOnly (by simp [hb])
      idleOnly := ⟨fun h => (nomatch h), fun h => absurd h (hr.mode_of_busy hb)⟩ }
    (by simp)

/-- A call that is not idle may end in an error (60_exceptions.md R252). -/
theorem Inv.raise {s : State} {e : ErrCode} {info : Nat} (hs : StorageInv s) (hr : RegisterInv s) (hm : s.mode ≠ .none)
    (he : e ≠ .none) (hi : info < 2 ^ 32) : Inv (s.raise e info) :=
  .of_notBusy { hs with }
    { hr with
      outLenFits := hr.outLenFits.imp_right fun h => ⟨h.1, rfl⟩
      errposWidth := hi
      errorOnly := ⟨fun _ => he, fun _ => rfl⟩
      errposOnly := fun h => absurd rfl h
      idleOnly := ⟨fun h => (nomatch h), fun h => absurd h hm⟩ }
    (by simp)

/-- The output of a decode call that has ended in an error may be lost (93 U1). -/
theorem Inv.loseOutput {s : State} (h : Inv s) (hl : s.outputLost) : Inv s.loseOutput :=
  .of_notBusy { h.storage with outWf := rfl, outBelow := fun _ he => nomatch he }
    { h.registers with outLenFits := .inr hl, outLenWidth := (Config.freeOutLen s.drawn).isLt }
    (by rw [show s.loseOutput.status = .error from hl.2]; simp)

theorem Inv.notAccepted {s : State} (h : Inv s) : Inv s.notAccepted := by
  unfold State.notAccepted
  split
  · rename_i hb
    exact .raise h.storage h.registers (h.registers.mode_of_busy hb) (by simp) (by norm_num)
  · exact h

/-- What the invariant says of the Sink: canonical contents within OUT_CAP (10_state.md R37). -/
structure SinkInv (s : State) : Prop where
  wf : Memory.wf s.outMem = true
  below : ∀ e ∈ s.outMem, e.1 < s.cfg.outCap
  fits : s.outLen ≤ s.cfg.outCap

theorem Inv.sink {s : State} (h : Inv s) (hb : s.status = .busy) : SinkInv s :=
  ⟨h.storage.outWf, h.storage.outBelow, h.registers.outLen_le hb⟩

/-- An append where there is room keeps the Sink's invariant (43_sink.md R232). -/
theorem SinkInv.push {s : State} (h : SinkInv s) (v : Byte) (hr : s.outLen ≠ s.cfg.outCap) : SinkInv (s.push v) where
  wf := Memory.wf_insertAt _ _ h.wf
  below e he := by
    obtain rfl | he := mem_insertAt he
    · exact Nat.lt_of_le_of_ne h.fits hr
    · exact h.below e he
  fits := Nat.lt_of_le_of_ne h.fits hr

theorem SinkInv.pushAll {s : State} (h : SinkInv s) (bs : List Byte) (hr : bs.length ≤ s.room) :
    SinkInv (s.pushAll bs) := by
  induction bs generalizing s with
  | nil => exact h
  | cons v vs ih =>
    simp only [State.room, List.length_cons] at hr
    rw [State.pushAll_cons]
    exact ih (h.push v (by omega)) (by simp only [State.room, State.push_cfg, State.push_outLen]; omega)

end Sys2Proof.Machine
end

section
/-! SUPPORT. The invariant under the Decoder's steps. -/

namespace Sys2Proof.Machine

/-- What holds of a decode call inside a step, where IP has moved and the phase has not. -/
structure Decoding (s : State) : Prop where
  storage : StorageInv s
  registers : RegisterInv s
  mode : s.mode = .decode
  ip : s.status = .busy → s.ip ≤ s.inLen ∧ s.tokstart ≤ s.ip

/-- At the end of a step a running Decoder is past its START step. -/
theorem Decoding.inv {s : State} (h : Decoding s) (hd : s.status = .busy → s.dph = .cmd) : Inv s := by
  refine ⟨h.storage, h.registers, fun hr => ?_, fun he => ?_⟩
  · have hb := ((decoderRuns_iff s).1 hr).2
    exact ⟨(h.ip hb).1, (h.ip hb).2, fun hf => nomatch hf.symm.trans (hd hb)⟩
  · exact nomatch h.mode.symm.trans ((acceptsParse_iff s).1 he).1

/-- The Decoder registers are free to move during a decode call. -/
theorem Decoding.of_registers {s : State} (h : Decoding s) {ip tokstart : Nat} (ls : LitState) (dph : Phase)
    (h1 : ip ≤ s.inLen) (h2 : tokstart ≤ ip) :
    Decoding { s with ip := ip, tokstart := tokstart, ls := ls, dph := dph } where
  storage := { h.storage with }
  registers :=
    have hi : s.inLen < 2 ^ 32 := inLen_lt h.storage h.registers
    { h.registers with
      ipWidth := Nat.lt_of_le_of_lt h1 hi
      tokstartWidth := Nat.lt_of_le_of_lt (h2.trans h1) hi
      decoderAtRest := fun hm => absurd h.mode hm }
  mode := h.mode
  ip _ := ⟨h1, h2⟩

/-- A Decoder error ends the call (40_decoder.md R138). -/
theorem Decoding.decoderError_inv {s : State} (h : Decoding s) {e : ErrCode} (he : e ≠ .none) :
    Inv (s.decoderError e) :=
  (Inv.raise h.storage h.registers (by simp [h.mode]) he h.registers.tokstartWidth).loseOutput ⟨h.mode, rfl⟩

theorem Inv.decoding_of_ended {s : State} (h : Inv s) (hm : s.mode = .decode) (hb : s.status ≠ .busy) : Decoding s :=
  ⟨h.storage, h.registers, hm, fun h' => absurd h' hb⟩

theorem Decoding.pushAll {s : State} (h : Decoding s) (hb : s.status = .busy) {bs : List Byte}
    (hr : bs.length ≤ s.room) : Decoding (s.pushAll bs) := by
  have hfits := h.registers.outLen_le hb
  have hk : SinkInv (s.pushAll bs) := SinkInv.pushAll ⟨h.storage.outWf, h.storage.outBelow, hfits⟩ bs hr
  exact
    { storage := { h.storage with outWf := hk.wf, outBelow := hk.below }
      registers := { h.registers with
        outLenFits := .inl hk.fits
        outLenWidth := Nat.lt_of_le_of_lt hk.fits h.storage.outCap_lt }
      mode := h.mode
      ip := h.ip }

/-- A token keeps what holds of a decode call, and the phase. -/
theorem exec_token_decoding {i : Instr} {s : State} (h : Decoding s) (hb : s.status = .busy) (ht : i.isToken = true)
    (hw : i.wf = true) : Leads (fun t => Decoding t ∧ t.dph = s.dph) (exec i s) := by
  obtain ⟨h1, h2⟩ := h.ip hb
  have moved : ∀ k ls, k ≤ s.avail → Decoding { s with ip := s.ip + k, ls := ls } := fun k ls hk =>
    h.of_registers ls s.dph (by simp only [State.avail] at hk; omega) (by omega)
  have hc := token_cases ht hw (h.registers.outLen_le hb)
  generalize exec i s = o at hc ⊢
  cases hc with
  | copied k bs l hk hr => exact .next ⟨(moved k l hk).pushAll hb hr, rfl⟩
  | failed k e hk he =>
    exact .next ⟨((moved k s.ls hk).decoderError_inv he).decoding_of_ended h.mode (by simp), rfl⟩
  | ended => exact .next ⟨(Inv.done h.storage h.registers hb).decoding_of_ended h.mode (by simp), rfl⟩

end Sys2Proof.Machine
end

section
/-! SUPPORT. The invariant under the Encoder's commands. -/

namespace Sys2Proof.Machine

/-- What a flush or an append of the Encoder does: it moves the pending and hold registers, pends no more literals than
before, and keeps the Sink's invariant. -/
structure Encoded (s t : State) : Prop where
  frame : t = { s with
    litCnt := t.litCnt, started := t.started, hold0 := t.hold0, hold1 := t.hold1, holdV := t.holdV
    outMem := t.outMem, outLen := t.outLen }
  litCnt : t.litCnt ≤ s.litCnt
  sink : SinkInv s → SinkInv t

theorem Encoded.refl (s : State) : Encoded s s := ⟨rfl, Nat.le_refl _, id⟩

theorem Encoded.trans {s t u : State} (h1 : Encoded s t) (h2 : Encoded t u) : Encoded s u :=
  ⟨by rw [h2.frame, h1.frame], h2.litCnt.trans h1.litCnt, fun h => h2.sink (h1.sink h)⟩

/-- A change of the pending and hold registers alone. -/
theorem Encoded.registers {s t : State} (h : t = { s with
    litCnt := t.litCnt, started := t.started, hold0 := t.hold0, hold1 := t.hold1, holdV := t.holdV })
    (hl : t.litCnt ≤ s.litCnt) : Encoded s t := by
  refine ⟨by rw [h], hl, fun hk => ?_⟩
  rw [h]; exact { hk with }

/-- An attempt of the Encoder: its work so far, and an error code where a check has failed. -/
def Attempt.Encodes (s : State) : Attempt → Prop
  | .done t => Encoded s t
  | .failed e t => Encoded s t ∧ e ≠ .none

theorem Attempt.Encodes.andThen {s : State} {x : Attempt} {f : State → Attempt} (hx : x.Encodes s)
    (hf : ∀ t, (f t).Encodes t) : (x.andThen f).Encodes s := by
  cases x with
  | failed e t => exact hx
  | done t =>
    have ht := hf t
    rw [Attempt.andThen_done]
    cases hft : f t with
    | done u => rw [hft] at ht; exact Encoded.trans hx ht
    | failed e u => rw [hft] at ht; exact ⟨Encoded.trans hx ht.1, ht.2⟩

theorem encodes_sinkAppend (v : Byte) (s : State) : (sinkAppend v s).Encodes s := by
  unfold sinkAppend
  split
  · exact ⟨.refl s, by simp⟩
  · rename_i hr
    exact ⟨rfl, Nat.le_refl _, fun h => h.push v hr⟩

theorem encodes_sinkAppendAll (bs : List Byte) (s : State) : (sinkAppendAll bs s).Encodes s := by
  induction bs generalizing s with
  | nil => exact .refl s
  | cons v vs ih => exact (encodes_sinkAppend v s).andThen ih

theorem encodes_flushHold (s : State) : (flushHold s).Encodes s := by
  unfold flushHold
  split
  · exact (encodes_sinkAppendAll _ s).andThen fun _ => Encoded.registers rfl (Nat.le_refl _)
  · exact Encoded.refl s

/-- Every flush ends with the pending run empty. -/
theorem Attempt.Encodes.noLiterals {s : State} {x : Attempt} (hx : x.Encodes s) (st : State → Bool) :
    (x.andThen fun t => .done { t with litCnt := 0, started := st t }).Encodes s :=
  hx.andThen fun _ => Encoded.registers rfl (Nat.zero_le _)

theorem encodes_flushLiterals (s : State) : (flushLiterals s).Encodes s := by
  unfold flushLiterals
  split
  · exact Encoded.refl s
  split
  · exact (encodes_sinkAppendAll _ s).noLiterals fun _ => true
  split
  · have h0 : (Attempt.done { s with hold0 := s.hold0 ||| byteOf s.litCnt }).Encodes s :=
      Encoded.registers rfl (Nat.le_refl _)
    exact ((h0.andThen encodes_flushHold).andThen (encodes_sinkAppendAll _)).noLiterals State.started
  · exact ((encodes_flushHold s).andThen (encodes_sinkAppendAll _)).noLiterals State.started

/-- The two flushes and an append, the common part of ENC_MATCH and ENC_END. -/
def flushAppend (bs : List Byte) (s : State) : Attempt :=
  ((flushLiterals s).andThen flushHold).andThen (sinkAppendAll bs)

theorem encodes_flushAppend (bs : List Byte) (s : State) : (flushAppend bs s).Encodes s :=
  ((encodes_flushLiterals s).andThen encodes_flushHold).andThen (encodes_sinkAppendAll bs)

theorem shiftLeft_mod_four (x k : Nat) : x <<< (k + 2) % 4 = 0 := by
  rw [Nat.shiftLeft_add, Nat.shiftLeft_eq]; exact Nat.mul_mod_left _ 4

theorem shiftLeft_and_mod_four (x m : Nat) : (x <<< 2 &&& m) % 4 = 0 := by
  rw [show 4 = 2 ^ 2 from rfl, Nat.and_mod_two_pow, shiftLeft_mod_four x 0, Nat.zero_and]

/-- The byte held first has an empty S field: each class emits it as a multiple of 4 (R182 to R186). -/
theorem emitMatch_held (d n ls : Nat) : ∃ (bs : List Byte) (b0 b1 : Nat), b0 % 4 = 0 ∧
    ∀ s, emitMatch d n ls s = emitHeld bs b0 b1 s := by
  unfold emitMatch
  split
  · exact ⟨_, _, _, shiftLeft_mod_four _ 0, fun _ => rfl⟩
  split
  · refine ⟨_, _, _, ?_, fun _ => rfl⟩
    rw [show 4 = 2 ^ 2 from rfl, Nat.or_mod_two_pow, shiftLeft_mod_four _ 3, shiftLeft_mod_four _ 0, Nat.zero_or]
  split
  · exact ⟨_, _, _, shiftLeft_mod_four _ 0, fun _ => rfl⟩
  split
  · exact ⟨_, _, _, shiftLeft_and_mod_four _ _, fun _ => rfl⟩
  · exact ⟨_, _, _, shiftLeft_and_mod_four _ _, fun _ => rfl⟩

/-- ENC_MATCH's work: the flushes and an append, then the held bytes and the moved position (R178). -/
theorem encodeMatch_eq (d n : Nat) (s : State) : ∃ (bs : List Byte) (b0 b1 : Nat), b0 % 4 = 0 ∧
    encodeMatch d n s = (flushAppend bs s).andThen fun t =>
      .done { t.hold b0 b1 with pos := t.pos + n, started := true } := by
  obtain ⟨bs, b0, b1, h0, he⟩ := emitMatch_held d n (litStateAt s)
  refine ⟨bs, b0, b1, h0, ?_⟩
  rw [encodeMatch, show emitMatch d n (litStateAt s) = emitHeld bs b0 b1 from funext he]
  simp only [flushAppend, emitHeld, Attempt.andThen_assoc, Attempt.andThen_done]
  rfl

/-- What holds of an encode call inside a command. -/
structure Encoding (s : State) : Prop where
  storage : StorageInv s
  registers : RegisterInv s
  sink : SinkInv s
  mode : s.mode = .encode
  busy : s.status = .busy

theorem Inv.encoding {s : State} (h : Inv s) (hm : acceptsParse s = true) : Encoding s :=
  have ⟨hmode, hb⟩ := (acceptsParse_iff s).1 hm
  ⟨h.storage, h.registers, h.sink hb, hmode, hb⟩

/-- The Encoder's flushes and appends keep storage and registers. -/
theorem Encoding.encoded {s t : State} (h : Encoding s) (hw : Encoded s t) : Encoding t := by
  have hk := hw.sink h.sink
  rw [hw.frame] at hk ⊢
  exact
    { storage := { h.storage with outWf := hk.wf, outBelow := hk.below }
      registers := { h.registers with
        outLenFits := .inl hk.fits
        outLenWidth := Nat.lt_of_le_of_lt hk.fits h.storage.outCap_lt
        litCntFits := hw.litCnt.trans h.registers.litCntFits
        encoderAtRest := fun hm => absurd h.mode hm }
      sink := hk
      mode := h.mode
      busy := h.busy }

theorem Encoding.encoderError_inv {s : State} (h : Encoding s) {e : ErrCode} (he : e ≠ .none) : Inv (s.encoderError e) :=
  .raise h.storage h.registers (by simp [h.mode]) he h.registers.posWidth

/-- A running Encoder whose own registers meet the invariant. -/
theorem Encoding.inv {s : State} (h : Encoding s) (he : EncoderInv s) : Inv s :=
  ⟨h.storage, h.registers, fun hd => (nomatch h.mode.symm.trans ((decoderRuns_iff s).1 hd).1), fun _ => he⟩

/-- The registers of the parse are free to move within the input during an encode call. -/
theorem Encoding.of_registers {s : State} (h : Encoding s) {pos litCnt : Nat} (started holdV : Bool) (hold0 hold1 : Byte)
    (hp : pos ≤ s.inLen) (hl : litCnt ≤ pos) : Encoding { s with
      pos := pos, litCnt := litCnt, started := started, hold0 := hold0, hold1 := hold1, holdV := holdV } where
  storage := { h.storage with }
  registers := { h.registers with
    posWidth := Nat.lt_of_le_of_lt hp (inLen_lt h.storage h.registers)
    litCntFits := hl
    encoderAtRest := fun hm => absurd h.mode hm }
  sink := { h.sink with }
  mode := h.mode
  busy := h.busy

/-- ENC_LIT (R177). -/
theorem exec_encLit_inv {s : State} (h : Inv s) : Leads Inv (exec .encLit s) := by
  refine .ite (fun hm => .ite (fun _ => .next ((h.encoding hm).encoderError_inv (by simp))) fun hp => .next ?_)
    fun _ => .next h.notAccepted
  obtain ⟨hlit, -, hheld, hopen, hfirst⟩ := h.encoder hm
  refine ((h.encoding hm).of_registers (pos := s.pos + 1) (litCnt := s.litCnt + 1) s.started s.holdV s.hold0 s.hold1
    (by omega) (by omega)).inv ⟨?_, ?_, hheld, hopen, fun hs => ⟨?_, (hfirst hs).2⟩⟩
  · exact Nat.succ_le_succ hlit
  · exact Nat.lt_of_not_le hp
  · exact congrArg (· + 1) (hfirst hs).1

/-- A legal match lies within the input (R173). -/
theorem legalMatch_within {d n : Nat} {s : State} (h : legalMatch d n s = true) : s.pos + n ≤ s.inLen := by
  rw [legalMatch_iff, IllegalMatch] at h
  omega

/-- ENC_MATCH (R178). -/
theorem exec_encMatch_inv {s : State} (h : Inv s) (a b : Word) : Leads Inv (exec (.encMatch a b) s) := by
  refine .ite (fun hm => .ite (fun hl => ?_) fun _ => .next ((h.encoding hm).encoderError_inv (by simp)))
    fun _ => .next h.notAccepted
  obtain ⟨bs, b0, b1, h0, he⟩ := encodeMatch_eq a.toNat b.toNat s
  have hw := encodes_flushAppend bs s
  rw [he]
  cases hx : flushAppend bs s with
  | failed e t =>
    rw [hx] at hw
    exact .next (((h.encoding hm).encoded hw.1).encoderError_inv hw.2)
  | done t =>
    rw [hx] at hw
    have hpos : t.pos = s.pos := by rw [hw.frame]
    have hin : t.inLen = s.inLen := by rw [hw.frame]
    have hwithin : t.pos + b.toNat ≤ t.inLen := by rw [hpos, hin]; exact legalMatch_within hl
    have ht := (h.encoding hm).encoded hw
    have hlit : t.litCnt ≤ t.pos + b.toNat := ht.registers.litCntFits.trans (Nat.le_add_right _ _)
    have hopen : (byteOf b0).toNat % 4 = 0 := by
      simp only [byteOf, BitVec.toNat_ofNat]; omega
    exact .next ((ht.of_registers true true (byteOf b0) (byteOf b1) hwithin hlit).inv
      ⟨hlit, hwithin, rfl, fun _ => hopen, fun hs => nomatch hs⟩)

/-- ENC_END (R179). -/
theorem exec_encEnd_inv {s : State} (h : Inv s) : Leads Inv (exec .encEnd s) := by
  refine .ite (fun hm => .ite (fun _ => .next ((h.encoding hm).encoderError_inv (by simp))) fun _ => ?_)
    fun _ => .next h.notAccepted
  have hw := encodes_flushAppend [0x11, 0x00, 0x00] s
  rw [show encodeEnd s = (flushAppend [0x11, 0x00, 0x00] s).andThen fun t => .done { t with status := .done } from rfl]
  cases hx : flushAppend [0x11, 0x00, 0x00] s with
  | failed e t =>
    rw [hx] at hw
    exact .next (((h.encoding hm).encoded hw.1).encoderError_inv hw.2)
  | done t =>
    rw [hx] at hw
    have ht := (h.encoding hm).encoded hw
    exact .next (.done ht.storage ht.registers ht.busy)

theorem exec_parse_inv {i : Instr} (hi : WorksOnParse i) {s : State} (h : Inv s) : Leads Inv (exec i s) := by
  obtain rfl | rfl | ⟨a, b, rfl⟩ := hi
  · exact exec_encLit_inv h
  · exact exec_encEnd_inv h
  · exact exec_encMatch_inv h a b

end Sys2Proof.Machine
end

section
/-! The invariant under the other commands and under a whole step. -/

namespace Sys2Proof.Machine

/-- ENC_START begins an encode call with nothing written (R176). -/
theorem encStart_inv {s : State} (h : Inv s) (a : Word) : Inv { s with
    mode := .encode, status := .busy, errcode := .none, errpos := 0, level := levelOperand a
    pos := 0, litCnt := 0, started := false, holdV := false, hold0 := 0, hold1 := 0, outLen := 0, bucket := []
    ip := 0, tokstart := 0, ls := 0, dph := .first, expLen := 0 } := by
  refine Encoding.inv ⟨?_, ?_, ⟨h.storage.outWf, h.storage.outBelow, Nat.zero_le _⟩, rfl, rfl⟩
    ⟨Nat.le_refl _, Nat.zero_le _, rfl, fun hv => (nomatch hv), fun _ => ⟨rfl, rfl⟩⟩
  · exact { h.storage with
      bucketWf := rfl, bucketBelow := fun _ he => (nomatch he), chainsFit := fun _ he => (nomatch he) }
  · constructor
    case inLenFits => exact h.registers.inLenFits
    all_goals simp

/-- DEC_START begins a decode call at the first byte (R260). -/
theorem decStart_inv {s : State} (h : Inv s) (a : Word) : Inv { s with
    mode := .decode, status := .busy, errcode := .none, errpos := 0, expLen := a.toNat
    ip := 0, tokstart := 0, ls := 0, dph := .first, outLen := 0
    pos := 0, litCnt := 0, started := false, hold0 := 0, hold1 := 0, holdV := false } := by
  refine ⟨{ h.storage with }, ?_, fun _ => ⟨Nat.zero_le _, Nat.le_refl _, fun _ => ⟨rfl, rfl, rfl⟩⟩,
    fun he => nomatch ((acceptsParse_iff _).1 he).1⟩
  constructor
  case inLenFits => exact h.registers.inLenFits
  case expLenWidth => exact a.isLt
  all_goals simp

theorem bucketOf_lt (s : State) (p : Nat) : bucketOf s p < 2 ^ hashBits s.level :=
  Nat.lt_of_le_of_lt Nat.and_le_right (Nat.sub_lt (Nat.two_pow_pos _) Nat.one_pos)

theorem chainDepth_pos (l : Level) : 0 < chainDepth l := by cases l <;> decide

theorem pushChain_ne_nil {depth : Nat} (h : 0 < depth) (p : Nat) (chain : List Nat) : pushChain depth p chain ≠ [] := by
  simp [pushChain]; omega

theorem pushChain_length_le (depth p : Nat) (chain : List Nat) : (pushChain depth p chain).length ≤ depth :=
  List.length_take_le _ _

/-- IDX_INSERT keeps the chains within the geometry of LEVEL (R214). -/
theorem idxInsert_inv {s : State} (h : Inv s) (p : Nat) : Inv { s with
    bucket := insertAt (bucketOf s p) (pushChain (chainDepth s.level) p (s.chain (bucketOf s p))) s.bucket } := by
  refine ⟨{ h.storage with bucketWf := ?_, bucketBelow := ?_, chainsFit := ?_ }, { h.registers with },
    fun hr => { h.decoder hr with }, fun hr => { h.encoder hr with }⟩
  · exact Arena.wf_insertAt _ (pushChain_ne_nil (chainDepth_pos _) _ _) h.storage.bucketWf
  · intro e he
    obtain rfl | he := mem_insertAt he
    · exact bucketOf_lt s p
    · exact h.storage.bucketBelow e he
  · intro e he
    obtain rfl | he := mem_insertAt he
    · exact pushChain_length_le _ _ _
    · exact h.storage.chainsFit e he

/-- HOST_WRITE_IN keeps IN within IN_CAP (R262). -/
theorem hostWriteIn_inv {s : State} (h : Inv s) {a : Nat} (v : Byte) (d : Nat) (ha : a < s.cfg.inCap) :
    Inv { s with inMem := insertAt a v s.inMem, drawn := d } := by
  refine ⟨{ h.storage with inWf := Memory.wf_insertAt a v h.storage.inWf, inBelow := ?_ }, { h.registers with },
    fun hr => { h.decoder hr with }, fun hr => { h.encoder hr with }⟩
  intro e he
  obtain rfl | he := mem_insertAt he
  · exact ha
  · exact h.storage.inBelow e he

/-- A command keeps the invariant. -/
theorem exec_command_inv {i : Instr} (hi : i.isToken = false) {s : State} (h : Inv s) : Leads Inv (exec i s) := by
  by_cases hp : WorksOnParse i
  · exact exec_parse_inv hp h
  obtain ⟨t, ht, hc⟩ := exec_leads i s
  refine ⟨t, ht, ?_⟩
  cases hc with
  | notAccepted => exact h.notAccepted
  | ignored => exact h
  | token _ _ hi' | tokenError _ _ _ hi' => exact nomatch hi.symm.trans hi'
  | parse _ _ hp' | parseError _ _ _ hp' => exact absurd hp' hp
  | encStart a => exact encStart_inv h a
  | decStart a => exact decStart_inv h a
  | idxInsert a => exact idxInsert_inv h a.toNat
  | hostWriteIn a b v d _ ha => exact hostWriteIn_inv h v d ha
  | hostSetInLen a hb ha => exact .of_notBusy { h.storage with } { h.registers with inLenFits := ha } hb
  | answered => exact h.of_bookkeeping rfl
  | reset => exact (Inv.powerOn h.storage.caps).of_bookkeeping rfl

/-- The Decoder at its turn, its port entry taken and its registers moved within the input. -/
theorem Inv.decoding {s : State} (h : Inv s) (hr : decoderRuns s = true) (rest : List Turn) {ip tokstart : Nat}
    (dph : Phase) (h1 : ip ≤ s.inLen) (h2 : tokstart ≤ ip) :
    Decoding { s with port := rest, ip := ip, tokstart := tokstart, dph := dph } :=
  have hs : Decoding { s with port := rest } :=
    { storage := { h.storage with }
      registers := { h.registers with }
      mode := ((decoderRuns_iff s).1 hr).1
      ip := fun _ => ⟨(h.decoder hr).ipFits, (h.decoder hr).tokstartFits⟩ }
  hs.of_registers s.ls dph h1 h2

/-- The START step ends past the phase FIRST, unless in an error (40_decoder.md R121). -/
theorem afterToken_first_inv {s : State} {o : Outcome} (h : Leads (fun t => Decoding t ∧ t.dph = s.dph) o) :
    Leads Inv (afterToken .first o) := by
  obtain ⟨t, rfl, ht, -⟩ := h
  exact .ite (fun he => .next (ht.inv fun hb => nomatch he.symm.trans hb)) fun _ =>
    .next (Decoding.inv { ht with storage := { ht.storage with }, registers := { ht.registers with
      decoderAtRest := fun hm => absurd ht.mode hm } } fun _ => rfl)

theorem firstLit_wf {b : Byte} (h : 0x12 ≤ b.toNat) : (Instr.firstLit (b.toNat - 17)).wf = true := by
  have := b.isLt
  simp only [Instr.wf, Config.firstMaxShort, decide_eq_true_eq]; omega

/-- Every step keeps the invariant: commands by what they do, the Decoder's steps as steps of a decode call whose IP stays
within the input. -/
theorem step_inv {s : State} (h : Inv s) : Leads Inv (step s) := by
  have port : ∀ rest, Inv { s with port := rest } := fun rest => h.of_bookkeeping rfl
  have hc := step_cases s
  generalize step s = o at hc ⊢
  cases hc with
  | command op a b rest i hp hd => exact exec_command_inv (decodeCommand_ok hd).1 (port rest)
  | reserved op a b rest r hp hd => exact .next (port rest).notAccepted
  | readIn a rest hp =>
    rw [State.hostReadIn_frame]
    exact .next ((port rest).of_bookkeeping rfl)
  | idle rest ht hr => exact .next (port rest)
  | emptyStream rest ht hr hd h0 =>
    exact .next ((h.decoding hr rest s.dph (h.decoder hr).ipFits (Nat.zero_le _)).decoderError_inv (by simp))
  | firstRun rest ht hr hd h0 hb =>
    have hip := ((h.decoder hr).firstIsStart hd).1
    exact afterToken_first_inv (exec_token_decoding
      (h.decoding hr rest s.dph (by omega) (Nat.zero_le _)) ((decoderRuns_iff s).1 hr).2 rfl (firstLit_wf hb))
  | noFirstRun rest ht hr hd h0 hb =>
    exact .next ((h.decoding hr rest .cmd (h.decoder hr).ipFits (Nat.zero_le _)).inv fun _ => rfl)
  | token rest i more ht hr hd hdec =>
    obtain ⟨hi, hw, -⟩ := decodeToken_ok hdec
    have hip := (h.decoder hr).ipFits
    have hhead : s.ip + (s.inLen - s.ip - more.length) ≤ s.inLen := by omega
    obtain ⟨t, he, hs, hph⟩ := exec_token_decoding
      (h.decoding hr rest s.dph hhead (Nat.le_add_right _ _)) ((decoderRuns_iff s).1 hr).2 hi hw
    exact ⟨t, he, hs.inv fun _ => hph.trans hd⟩
  | truncated rest r ht hr hd hdec =>
    have hip := (h.decoder hr).ipFits
    exact .next ((h.decoding hr rest s.dph (by omega) (Nat.le_add_right _ _)).decoderError_inv (by simp))

/-- Settles O41: the next state of a step is the one `step_inv` gives. -/
theorem everyStepKeepsTheInvariant : Obligations.EveryStepKeepsTheInvariant :=
  fun _ _ h ht => (step_inv h).of_next ht

end Sys2Proof.Machine
end

section
/-! SUPPORT. Who writes what: each register the statements name, under every instruction and every step. -/

namespace Sys2Proof.Machine

theorem Worked.inMem_eq {s t : State} (h : Worked s t) : t.inMem = s.inMem := by rw [h.frame]
theorem Worked.inEpoch_eq {s t : State} (h : Worked s t) : t.inEpoch = s.inEpoch := by rw [h.frame]
theorem Worked.inLen_eq {s t : State} (h : Worked s t) : t.inLen = s.inLen := by rw [h.frame]
theorem Worked.mode_eq {s t : State} (h : Worked s t) : t.mode = s.mode := by rw [h.frame]
theorem Worked.level_eq {s t : State} (h : Worked s t) : t.level = s.level := by rw [h.frame]
theorem Worked.bucket_eq {s t : State} (h : Worked s t) : t.bucket = s.bucket := by rw [h.frame]

/-- A command that is not accepted writes STATUS, ERRCODE and ERRPOS at most. -/
theorem State.notAccepted_frame (s : State) : s.notAccepted = { s with
    status := s.notAccepted.status, errcode := s.notAccepted.errcode, errpos := s.notAccepted.errpos } := by
  unfold State.notAccepted
  split <;> rfl

@[simp] theorem State.notAccepted_mode (s : State) : s.notAccepted.mode = s.mode := by rw [notAccepted_frame]
@[simp] theorem State.notAccepted_level (s : State) : s.notAccepted.level = s.level := by rw [notAccepted_frame]
@[simp] theorem State.notAccepted_bucket (s : State) : s.notAccepted.bucket = s.bucket := by rw [notAccepted_frame]

theorem State.notAccepted_of_notBusy {s : State} (h : s.status ≠ .busy) : s.notAccepted = s := if_neg h

/-- The writers of MODE (10_state.md R23). -/
theorem exec_mode {i : Instr} {s t : State} (h : exec i s = .next t) : t.mode = s.mode ∨
    ((∃ a, i = .encStart a) ∧ t.mode = .encode) ∨ ((∃ a, i = .decStart a) ∧ t.mode = .decode)
      ∨ (i = .reset ∧ t.mode = .none) := by
  cases exec_cases h with
  | notAccepted => exact .inl s.notAccepted_mode
  | token _ _ _ hw | tokenError _ _ _ _ hw | parse _ _ _ _ hw | parseError _ _ _ _ _ hw => exact .inl hw.mode_eq
  | ignored | idxInsert | hostWriteIn | hostSetInLen | answered => exact .inl rfl
  | encStart a => exact .inr (.inl ⟨⟨a, rfl⟩, rfl⟩)
  | decStart a => exact .inr (.inr (.inl ⟨⟨a, rfl⟩, rfl⟩))
  | reset => exact .inr (.inr (.inr ⟨rfl, rfl⟩))

/-- The writers of LEVEL (10_state.md R27; DEC_START is none of them, log 14). -/
theorem exec_level {i : Instr} {s t : State} (h : exec i s = .next t) :
    t.level = s.level ∨ (∃ a, i = .encStart a) ∨ i = .reset := by
  cases exec_cases h with
  | notAccepted => exact .inl s.notAccepted_level
  | token _ _ _ hw | tokenError _ _ _ _ hw | parse _ _ _ _ hw | parseError _ _ _ _ _ hw => exact .inl hw.level_eq
  | ignored | decStart | idxInsert | hostWriteIn | hostSetInLen | answered => exact .inl rfl
  | encStart a => exact .inr (.inl ⟨a, rfl⟩)
  | reset => exact .inr (.inr rfl)

/-- The writers of BUCKET (10_state.md R38, 42_match_index.md R218). -/
theorem exec_bucket {i : Instr} {s t : State} (h : exec i s = .next t) :
    t.bucket = s.bucket ∨ (∃ a, i = .idxInsert a) ∨ (∃ a, i = .encStart a) ∨ i = .reset := by
  cases exec_cases h with
  | notAccepted => exact .inl s.notAccepted_bucket
  | token _ _ _ hw | tokenError _ _ _ _ hw | parse _ _ _ _ hw | parseError _ _ _ _ _ hw => exact .inl hw.bucket_eq
  | ignored | decStart | hostWriteIn | hostSetInLen | answered => exact .inl rfl
  | idxInsert a => exact .inr (.inl ⟨a, rfl⟩)
  | encStart a => exact .inr (.inr (.inl ⟨a, rfl⟩))
  | reset => exact .inr (.inr (.inr rfl))

/-- Settles O43: a register that has changed is not the same, so its writer is one of the others. -/
theorem modeAndLevelHaveTheirWriters : Obligations.ModeAndLevelHaveTheirWriters :=
  fun _ _ _ h => ⟨(exec_mode h).resolve_left, (exec_level h).resolve_left⟩

/-- An accepted index command writes BUCKET and the answers at most (42_match_index.md R216, R218). -/
theorem exec_index_frame {i : Instr} {s : State} {a : Word} (hi : i = .idxInsert a ∨ i = .idxLookup a)
    (hm : acceptsParse s = true) :
    Leads (fun t => t = { s with bucket := t.bucket, answers := t.answers }) (exec i s) := by
  obtain rfl | rfl := hi
  · exact .ite (fun _ => .ite (fun _ => .next rfl) fun _ => .next rfl) fun hn => absurd hm hn
  · exact .ite (fun _ => .next rfl) fun hn => absurd hm hn

theorem accepted_index {i : Instr} {s : State} {a : Word} (hi : i = .idxInsert a ∨ i = .idxLookup a)
    (h : Accepted s i) : acceptsParse s = true := by
  obtain rfl | rfl := hi
  · exact (acceptsParse_iff s).2 h
  · exact (acceptsParse_iff s).2 h

/-- Settles O44: the writers of BUCKET, and the frame of the Index's commands. -/
theorem bucketHasItsWriters : Obligations.BucketHasItsWriters :=
  fun _ _ _ h => ⟨(exec_bucket h).resolve_left,
    fun _ hi ha => (exec_index_frame hi (accepted_index hi ha)).of_next h⟩

/-- `t` has the input of `s`: IN_LEN, and IN's list and epoch. -/
structure InputKept (s t : State) : Prop where
  inLen : t.inLen = s.inLen
  inMem : t.inMem = s.inMem
  inEpoch : t.inEpoch = s.inEpoch

theorem InputKept.inByte {s t : State} (h : InputKept s t) (a : Nat) : t.inByte a = s.inByte a :=
  State.inByte_congr h.inMem h.inEpoch a

theorem InputKept.refl (s : State) : InputKept s s := ⟨rfl, rfl, rfl⟩

theorem InputKept.notAccepted (s : State) : InputKept s s.notAccepted := by
  rw [State.notAccepted_frame]; exact ⟨rfl, rfl, rfl⟩

theorem Worked.inputKept {s t : State} (h : Worked s t) : InputKept s t := ⟨h.inLen_eq, h.inMem_eq, h.inEpoch_eq⟩

/-- While BUSY only RESET writes the input (10_state.md R22). -/
theorem exec_busy_input {i : Instr} {s t : State} (hb : s.status = .busy) (h : exec i s = .next t) :
    InputKept s t ∨ i = .reset := by
  cases exec_cases h with
  | notAccepted => exact .inl (.notAccepted s)
  | token _ _ _ hw | parse _ _ _ _ hw => exact .inl hw.inputKept
  | tokenError _ _ _ _ hw | parseError _ _ _ _ _ hw => exact .inl { hw.inputKept with }
  | encStart _ hn | decStart _ hn | hostWriteIn _ _ _ _ hn | hostSetInLen _ hn => exact absurd hb hn
  | ignored | idxInsert | answered => exact .inl ⟨rfl, rfl, rfl⟩
  | reset => exact .inr rfl

/-- `t` holds every byte of the output of `s`. -/
structure OutputKept (s t : State) : Prop where
  grows : s.outLen ≤ t.outLen
  keeps : ∀ a, a < s.outLen → t.outByte a = s.outByte a

theorem OutputKept.refl (s : State) : OutputKept s s := ⟨Nat.le_refl _, fun _ _ => rfl⟩

theorem OutputKept.notAccepted (s : State) : OutputKept s s.notAccepted := by
  rw [State.notAccepted_frame]; exact { OutputKept.refl s with }

/-- While BUSY a command other than RESET keeps the output (43_sink.md R231). -/
theorem exec_busy_output {i : Instr} {s t : State} (hi : i.isToken = false) (hb : s.status = .busy)
    (h : exec i s = .next t) : OutputKept s t ∨ (t.mode = .none ∧ t.status = .idle) := by
  cases exec_cases h with
  | notAccepted => exact .inl (.notAccepted s)
  | token _ _ hi' | tokenError _ _ _ hi' => exact nomatch hi.symm.trans hi'
  | parse _ _ _ _ hw | parseError _ _ _ _ _ hw => exact .inl ⟨hw.grows, hw.keeps⟩
  | encStart _ hn | decStart _ hn | hostWriteIn _ _ _ _ hn | hostSetInLen _ hn => exact absurd hb hn
  | ignored | idxInsert | answered => exact .inl { OutputKept.refl s with }
  | reset => exact .inr ⟨rfl, rfl⟩

/-- Between calls a command writes IN, IN_LEN, the answers and the model's own fields at most, unless it starts a call or
resets (60_exceptions.md R254, R266). -/
theorem exec_notBusy_frame {i : Instr} {s t : State} (hi : i.isToken = false) (hn : s.status ≠ .busy)
    (h : exec i s = .next t) :
    t = { s with inMem := t.inMem, inLen := t.inLen, answers := t.answers, drawn := t.drawn, port := t.port }
      ∨ (∃ a, i = .encStart a) ∨ (∃ a, i = .decStart a) ∨ i = .reset := by
  cases exec_cases h with
  | notAccepted => rw [State.notAccepted_of_notBusy hn]; exact .inl rfl
  | token _ _ hi' | tokenError _ _ _ hi' => exact nomatch hi.symm.trans hi'
  | parse _ _ _ hm | parseError _ _ _ _ hm | idxInsert _ hm => exact absurd ((acceptsParse_iff s).1 hm).2 hn
  | ignored | hostWriteIn | hostSetInLen | answered => exact .inl rfl
  | encStart a => exact .inr (.inl ⟨a, rfl⟩)
  | decStart a => exact .inr (.inr (.inl ⟨a, rfl⟩))
  | reset => exact .inr (.inr (.inr rfl))

/-! A whole step. -/

/-- What a step of the running Decoder keeps: the input, MODE, and, unless it ends in an error, the output. -/
structure DecoderStep (s t : State) : Prop where
  input : InputKept s t
  mode : t.mode = s.mode
  output : OutputKept s t ∨ t.status = .error

theorem Worked.decoderStep {s t : State} (h : Worked s t) : DecoderStep s t :=
  ⟨h.inputKept, h.mode_eq, .inl ⟨h.grows, h.keeps⟩⟩

theorem DecoderStep.decoderError {s t : State} (h : DecoderStep s t) (e : ErrCode) :
    DecoderStep s (t.decoderError e) :=
  ⟨{ h.input with }, h.mode, .inr rfl⟩

theorem DecoderStep.refl (s : State) : DecoderStep s s := ⟨.refl s, rfl, .inl (.refl s)⟩

/-- What precedes a token's meaning takes the port entry and moves Decoder registers alone. -/
theorem DecoderStep.of_moved {s t : State} {rest : List Turn} {ip tokstart : Nat} {dph : Phase}
    (h : DecoderStep { s with port := rest, ip := ip, tokstart := tokstart, dph := dph } t) : DecoderStep s t :=
  ⟨{ h.input with }, h.mode, h.output.imp_left fun ho => { ho with }⟩

theorem exec_token_decoderStep {i : Instr} (hi : i.isToken = true) (s : State) :
    Leads (DecoderStep s) (exec i s) := by
  obtain ⟨t, hw, ht | ⟨e, ht⟩⟩ := exec_token_worked hi s
  · exact ⟨t, ht, hw.decoderStep⟩
  · exact ⟨_, ht, hw.decoderStep.decoderError e⟩

theorem afterToken_first_decoderStep {s : State} {o : Outcome} (h : Leads (DecoderStep s) o) :
    Leads (DecoderStep s) (afterToken .first o) := by
  obtain ⟨t, rfl, ht⟩ := h
  exact .ite (fun _ => .next ht) fun _ =>
    .next ⟨{ ht.input with }, ht.mode, ht.output.imp_left fun ho => { ho with }⟩

/-- Everything a step can do, by who acts: a command, a reserved op code, nobody, or the running Decoder. -/
inductive StepEffect (s : State) : State → Prop where
  /-- A command of the port. -/
  | command (op : Byte) (a b : Word) (rest : List Turn) (i : Instr) (t : State) (hp : s.port = .command op a b :: rest)
      (hd : decodeCommand op a b = .ok i) (h : exec i { s with port := rest } = .next t) : StepEffect s t
  /-- A reserved op code, which is not accepted. -/
  | reserved (rest : List Turn) : StepEffect s ({ s with port := rest } : State).notAccepted
  /-- The host's read of IN, or a turn the Decoder has no use for. -/
  | bookkeeping (t : State) (h : t = { s with port := t.port, answers := t.answers, drawn := t.drawn }) : StepEffect s t
  /-- A step of the running Decoder. -/
  | decoder (t : State) (hr : decoderRuns s = true) (h : DecoderStep s t) : StepEffect s t

theorem step_leads (s : State) : Leads (StepEffect s) (step s) := by
  have ran : ∀ {rest ip tokstart dph o}, decoderRuns s = true →
      Leads (DecoderStep { s with port := rest, ip := ip, tokstart := tokstart, dph := dph }) o →
      Leads (StepEffect s) o := fun hr ⟨t, ho, ht⟩ => ⟨t, ho, .decoder t hr ht.of_moved⟩
  have hc := step_cases s
  generalize step s = o at hc ⊢
  cases hc with
  | command op a b rest i hp hd =>
    obtain ⟨t, ht, -⟩ := exec_leads i { s with port := rest }
    exact ⟨t, ht, .command op a b rest i t hp hd ht⟩
  | reserved op a b rest r hp hd => exact .next (.reserved rest)
  | readIn a rest hp =>
    rw [State.hostReadIn_frame]
    exact .next (.bookkeeping _ rfl)
  | idle rest ht hr => exact .next (.bookkeeping _ rfl)
  | emptyStream rest ht hr | truncated rest _ ht hr => exact ran hr (.next ((DecoderStep.refl _).decoderError _))
  | firstRun rest ht hr => exact ran hr (afterToken_first_decoderStep (exec_token_decoderStep rfl _))
  | noFirstRun rest ht hr => exact ran hr (.next (.refl _))
  | token rest i more ht hr hd hdec => exact ran hr (exec_token_decoderStep (decodeToken_ok hdec).1 _)

/-- The op code of a command that has been read from the port (30_encoding.md R101). -/
theorem opCode_of_decodeCommand {op k : Byte} {a b : Word} {i : Instr} (hd : decodeCommand op a b = .ok i)
    (hk : Laws.RowPattern.firstByte (encode i) = some k) : op.toNat = k.toNat :=
  congrArg BitVec.toNat (Option.some.inj ((decodeCommand_ok hd).2.symm.trans hk))

/-- Settles O42: of the ways a step can go, only a RESET command writes the input of a call. -/
theorem inputIsImmutableDuringACall : Obligations.InputIsImmutableDuringACall := by
  intro s t hb ht
  cases (step_leads s).of_next ht with
  | command op a b rest i _ hp hd h =>
    obtain hk | rfl := exec_busy_input (s := { s with port := rest }) hb h
    · exact .inl ⟨hk.inLen, hk.inByte⟩
    · exact .inr ⟨op, a, b, rest, hp, opCode_of_decodeCommand hd rfl⟩
  | reserved rest =>
    have hk := InputKept.notAccepted { s with port := rest }
    exact .inl ⟨hk.inLen, hk.inByte⟩
  | bookkeeping _ h => rw [h]; exact .inl ⟨rfl, fun _ => rfl⟩
  | decoder _ _ h => exact .inl ⟨h.input.inLen, h.input.inByte⟩

/-- Settles O45: between calls the Decoder does not run, and of the commands only a start or RESET writes more than the
input. -/
theorem endedCallWaitsForAStart : Obligations.EndedCallWaitsForAStart := by
  intro s t hn ht
  cases (step_leads s).of_next ht with
  | command op a b rest i _ hp hd h =>
    obtain hf | ⟨a', rfl⟩ | ⟨a', rfl⟩ | rfl :=
      exec_notBusy_frame (s := { s with port := rest }) (decodeCommand_ok hd).1 hn h
    · exact .inl hf
    · exact .inr ⟨op, a, b, rest, hp, .inl (opCode_of_decodeCommand hd rfl)⟩
    · exact .inr ⟨op, a, b, rest, hp, .inr (.inl (opCode_of_decodeCommand hd rfl))⟩
    · exact .inr ⟨op, a, b, rest, hp, .inr (.inr (opCode_of_decodeCommand hd rfl))⟩
  | reserved rest => rw [State.notAccepted_of_notBusy (s := { s with port := rest }) hn]; exact .inl rfl
  | bookkeeping _ h => rw [h]; exact .inl rfl
  | decoder _ hr => exact absurd ((decoderRuns_iff s).1 hr).2 hn

/-- Settles O46: a command other than RESET keeps the output, and so does a Decoder step that ends in no error. -/
theorem outputOnlyGrowsDuringACall : Obligations.OutputOnlyGrowsDuringACall := by
  intro s t hb ht
  cases (step_leads s).of_next ht with
  | command op a b rest i _ hp hd h =>
    obtain hk | hr := exec_busy_output (s := { s with port := rest }) (decodeCommand_ok hd).1 hb h
    · exact .inl ⟨hk.grows, hk.keeps⟩
    · exact .inr (.inr hr)
  | reserved rest =>
    have hk := OutputKept.notAccepted { s with port := rest }
    exact .inl ⟨hk.grows, hk.keeps⟩
  | bookkeeping _ h => rw [h]; exact .inl ⟨Nat.le_refl _, fun _ _ => rfl⟩
  | decoder _ hr h =>
    obtain hk | he := h.output
    · exact .inl ⟨hk.grows, hk.keeps⟩
    · exact .inr (.inl ⟨h.mode.trans ((decoderRuns_iff s).1 hr).1, he⟩)

/-- Settles O51: the step is the host's read of IN, below and past IN_CAP. -/
theorem hostReadOfInReturnsTheByte : Obligations.HostReadOfInReturnsTheByte := by
  intro s a rest hp
  have hs : step s = .next (({ s with port := rest } : State).hostReadIn a) := by rw [step, fetch_readIn hp]
  rw [hs]
  obtain ⟨hlt, h⟩ | ⟨hge, h⟩ := ({ s with port := rest } : State).hostReadIn_cases a
  · exact ⟨fun _ => by rw [h]; rfl, fun hge => absurd hlt (Nat.not_lt.2 hge)⟩
  · exact ⟨fun hlt => absurd hlt (Nat.not_lt.2 hge), fun _ => ⟨_, by rw [h]; rfl⟩⟩

end Sys2Proof.Machine
end

section
/-! SUPPORT. The length extension and the readers of the token classes: what each reads from given bytes, and that it
rejects only bytes that end too soon (30_encoding.md R83 to R97). -/

namespace Sys2Proof.Machine

open Laws.RowPattern (toNat_byteOf)

/-! The length extension (R93). -/

/-- ReadExt adds 255 a zero byte and stops after the first byte that is not zero. -/
theorem readExt_replicate (base z : Nat) {r : Byte} (hr : r ≠ 0) (rest : List Byte) :
    readExt base (List.replicate z 0 ++ r :: rest) = some (base + 255 * z + r.toNat, rest) := by
  induction z generalizing base with
  | zero => exact if_neg hr
  | succ z ih =>
    calc readExt base (List.replicate (z + 1) 0 ++ r :: rest)
        = readExt (base + 255) (List.replicate z 0 ++ r :: rest) := rfl
      _ = some (base + 255 * (z + 1) + r.toNat, rest) := by rw [ih]; congr 2; omega

/-- The bytes of WriteExt: `k = 255 z + r` with `r` in 1..255. -/
theorem extBytes_eq {k : Nat} (hk : 1 ≤ k) :
    ∃ (z : Nat) (r : Byte), extBytes k = List.replicate z 0 ++ [r] ∧ 1 ≤ r.toNat ∧ k = 255 * z + r.toNat := by
  refine ⟨(k - 1) / 255, byteOf (k - 255 * ((k - 1) / 255)), rfl, ?_⟩
  rw [toNat_byteOf]
  omega

theorem readExt_extBytes (base : Nat) {k : Nat} (hk : 1 ≤ k) (rest : List Byte) :
    readExt base (extBytes k ++ rest) = some (base + k, rest) := by
  obtain ⟨z, r, he, hr, hz⟩ := extBytes_eq hk
  have hr0 : r ≠ 0 := by rintro rfl; exact absurd hr (by decide)
  rw [he, List.append_assoc, List.singleton_append, readExt_replicate base z hr0, hz, Nat.add_assoc]

theorem readLen_inline {v : Nat} (hv : v ≠ 0) (base : Nat) (bs : List Byte) : readLen v base bs = some (v, bs) :=
  if_neg hv

theorem readLen_extBytes (base : Nat) {k : Nat} (hk : 1 ≤ k) (rest : List Byte) :
    readLen 0 base (extBytes k ++ rest) = some (base + k, rest) :=
  readExt_extBytes base hk rest

/-- Whatever the length field is, some bytes complete the length. -/
theorem readLen_completes (v base : Nat) : ∃ bs k, ∀ rest, readLen v base (bs ++ rest) = some (k, rest) := by
  obtain rfl | hv := eq_or_ne v 0
  · exact ⟨extBytes 1, base + 1, readLen_extBytes base le_rfl⟩
  · exact ⟨[], v, readLen_inline hv base⟩

/-! The command byte chooses the class (R83). -/

section
variable {t : Byte} {ls : LitState} {bs : List Byte}

theorem decodeToken_run (ht : t.toNat < 0x10) : decodeToken .cmd 0 (t :: bs) = decodeRun t bs := by
  simp [decodeToken, ht]

theorem decodeToken_m1 (ht : t.toNat < 0x10) (hls : ls ≠ 0) : decodeToken .cmd ls (t :: bs) = decodeM1 ls t bs := by
  simp [decodeToken, ht, hls]

theorem decodeToken_m4 (hlo : 0x10 ≤ t.toNat) (hhi : t.toNat < 0x20) :
    decodeToken .cmd ls (t :: bs) = decodeM4 t bs := by
  simp [decodeToken, hhi, Nat.not_lt.2 hlo]

theorem decodeToken_m3 (hlo : 0x20 ≤ t.toNat) (hhi : t.toNat < 0x40) :
    decodeToken .cmd ls (t :: bs) = decodeM3 t bs := by
  simp [decodeToken, hhi, Nat.not_lt.2 hlo, show ¬ t.toNat < 0x10 by omega]

theorem decodeToken_m2 (ht : 0x40 ≤ t.toNat) : decodeToken .cmd ls (t :: bs) = decodeM2 t bs := by
  simp [decodeToken, Nat.not_lt.2 ht, show ¬ t.toNat < 0x10 by omega, show ¬ t.toNat < 0x20 by omega]

end

/-! What the classes with a distance word read, once the length has been read (R90 to R92, R94). -/

section
variable {t d0 d1 : Byte} {bs rest : List Byte} {k : Nat}

theorem decodeM3_of_readLen (h : readLen (bitField t 4 0) 31 bs = some (k, d0 :: d1 :: rest)) :
    decodeM3 t bs = .ok (if bitField t 4 0 = 0 then .m3x (le16 d0 d1 / 4 + 1) (2 + k) (sField d0)
      else .m3 (le16 d0 d1 / 4 + 1) (2 + k) (sField d0), rest) := by
  simp only [decodeM3, h]
  split <;> rfl

theorem decodeM4_of_readLen (h : readLen (bitField t 2 0) 7 bs = some (k, d0 :: d1 :: rest)) :
    decodeM4 t bs = .ok (if bitField t 3 3 = 0 ∧ le16 d0 d1 / 4 = 0 then .endMarker (2 + k) (sField d0)
      else if bitField t 2 0 = 0 then .m4x (16384 + 16384 * bitField t 3 3 + le16 d0 d1 / 4) (2 + k) (sField d0)
      else .m4 (16384 + 16384 * bitField t 3 3 + le16 d0 d1 / 4) (2 + k) (sField d0), rest) := by
  simp only [decodeM4, h]
  split
  · rfl
  · split <;> rfl

end

/-- The length field of a command byte `0x20 + f`. -/
theorem lenField_m3 {f : Nat} (hf : f ≤ 31) : bitField (byteOf (0x20 + f)) 4 0 = f := by
  simp only [bitField, toNat_byteOf]; omega

/-- The length field and `H` of a command byte `0x10 + 8 h + f`. -/
theorem fields_m4 {h f : Nat} (hh : h ≤ 1) (hf : f ≤ 7) :
    bitField (byteOf (0x10 + 8 * h + f)) 2 0 = f ∧ bitField (byteOf (0x10 + 8 * h + f)) 3 3 = h := by
  simp only [bitField, toNat_byteOf]; omega

/-- A command byte `0x20 + f` followed by bytes that complete the length. -/
theorem decodeToken_m3_of_readLen {f : Nat} (hf : f ≤ 31) (ls : LitState) {d0 d1 : Byte}
    {bs rest : List Byte} {k : Nat} (h : readLen f 31 bs = some (k, d0 :: d1 :: rest)) :
    decodeToken .cmd ls (byteOf (0x20 + f) :: bs) = .ok (if f = 0 then .m3x (le16 d0 d1 / 4 + 1) (2 + k) (sField d0)
      else .m3 (le16 d0 d1 / 4 + 1) (2 + k) (sField d0), rest) := by
  have ht : (byteOf (0x20 + f)).toNat = 0x20 + f := by rw [toNat_byteOf]; omega
  have hl := lenField_m3 hf
  rw [decodeToken_m3 (by omega) (by omega), decodeM3_of_readLen (by rw [hl]; exact h), hl]

/-- A command byte `0x10 + 8 h + f` followed by bytes that complete the length. -/
theorem decodeToken_m4_of_readLen {h f : Nat} (hh : h ≤ 1) (hf : f ≤ 7) (ls : LitState) {d0 d1 : Byte}
    {bs rest : List Byte} {k : Nat} (hr : readLen f 7 bs = some (k, d0 :: d1 :: rest)) :
    decodeToken .cmd ls (byteOf (0x10 + 8 * h + f) :: bs)
      = .ok (if h = 0 ∧ le16 d0 d1 / 4 = 0 then .endMarker (2 + k) (sField d0)
        else if f = 0 then .m4x (16384 + 16384 * h + le16 d0 d1 / 4) (2 + k) (sField d0)
        else .m4 (16384 + 16384 * h + le16 d0 d1 / 4) (2 + k) (sField d0), rest) := by
  have ht : (byteOf (0x10 + 8 * h + f)).toNat = 0x10 + 8 * h + f := by rw [toNat_byteOf]; omega
  obtain ⟨hl, hH⟩ := fields_m4 hh hf
  rw [decodeToken_m4 (by omega) (by omega), decodeM4_of_readLen (by rw [hl]; exact hr), hl, hH]

/-! No command byte is illegal (R97). -/

/-- A reader of what follows a command byte: it rejects only bytes that end too soon, and some bytes are read to their
end. -/
structure ReadsUnlessTruncated (read : List Byte → Except Reject (Instr × List Byte)) : Prop where
  rejects : ∀ bs r, read bs = .error r → r = .truncated
  accepts : ∃ bs i, read bs = .ok (i, [])

theorem decodeRun_reads (t : Byte) : ReadsUnlessTruncated (decodeRun t) := by
  obtain rfl | ht := eq_or_ne t 0
  · refine ⟨fun bs r h => ?_, [1], .litx 19, rfl⟩
    simp only [decodeRun, if_true] at h
    split at h <;> cases h
    rfl
  · have hrun : ∀ bs, decodeRun t bs = .ok (.lit (t.toNat + 3), bs) := fun _ => if_neg ht
    exact ⟨fun bs _ h => (nomatch (hrun bs).symm.trans h), [], _, hrun []⟩

theorem decodeM1_reads (ls : LitState) (t : Byte) : ReadsUnlessTruncated (decodeM1 ls t) := by
  have hcons : ∀ b1 rest, ∃ i, decodeM1 ls t (b1 :: rest) = .ok (i, rest) := by
    intro b1 rest
    simp only [decodeM1]
    split
    · exact ⟨_, rfl⟩
    · exact ⟨_, rfl⟩
  refine ⟨fun bs r h => ?_, [0], hcons 0 []⟩
  cases bs with
  | nil => cases h; rfl
  | cons b1 rest =>
    obtain ⟨i, hi⟩ := hcons b1 rest
    exact nomatch hi.symm.trans h

theorem decodeM2_reads (t : Byte) : ReadsUnlessTruncated (decodeM2 t) := by
  refine ⟨fun bs r h => ?_, [0], _, rfl⟩
  cases bs with
  | nil => cases h; rfl
  | cons b1 rest => cases h

theorem decodeM3_reads (t : Byte) : ReadsUnlessTruncated (decodeM3 t) := by
  constructor
  case rejects =>
    intro bs r h
    unfold decodeM3 at h
    split at h
    · dsimp only at h
      split at h <;> cases h
    · cases h; rfl
  case accepts =>
    obtain ⟨bs, k, hk⟩ := readLen_completes (bitField t 4 0) 31
    exact ⟨bs ++ [0, 0], _, decodeM3_of_readLen (hk [0, 0])⟩

theorem decodeM4_reads (t : Byte) : ReadsUnlessTruncated (decodeM4 t) := by
  constructor
  case rejects =>
    intro bs r h
    unfold decodeM4 at h
    split at h
    · dsimp only at h
      split at h
      · cases h
      · split at h <;> cases h
    · cases h; rfl
  case accepts =>
    obtain ⟨bs, k, hk⟩ := readLen_completes (bitField t 2 0) 7
    exact ⟨bs ++ [0, 0], _, decodeM4_of_readLen (hk [0, 0])⟩

/-- Every command byte at every literal state hands over to the reader of one class. -/
theorem decodeToken_cmd_reads (ls : LitState) (t : Byte) :
    ReadsUnlessTruncated fun bs => decodeToken .cmd ls (t :: bs) := by
  obtain h1 | ⟨h1, h4⟩ | ⟨h4, h3⟩ | h3 : t.toNat < 0x10 ∨ (0x10 ≤ t.toNat ∧ t.toNat < 0x20) ∨
      (0x20 ≤ t.toNat ∧ t.toNat < 0x40) ∨ 0x40 ≤ t.toNat := by omega
  · obtain rfl | hls := eq_or_ne ls 0
    · simp only [decodeToken_run h1]; exact decodeRun_reads t
    · simp only [decodeToken_m1 h1 hls]; exact decodeM1_reads ls t
  · simp only [decodeToken_m4 h1 h4]; exact decodeM4_reads t
  · simp only [decodeToken_m3 h4 h3]; exact decodeM3_reads t
  · simp only [decodeToken_m2 h3]; exact decodeM2_reads t

/-! The statements. -/

/-- Settles O23: ReadExt counts the zero bytes and the last byte that WriteExt wrote. -/
theorem readExtUndoesWriteExt : Obligations.ReadExtUndoesWriteExt :=
  fun base _ rest hk => ⟨readExt_extBytes base hk rest, extBytes_eq hk⟩

/-- Settles O22: an inline field and an extension are two ways to complete the length before the distance word. -/
theorem distanceWordTokensAreReadFromTheirBits : Obligations.DistanceWordTokensAreReadFromTheirBits := by
  rintro ls d0 d1 rest w s rfl rfl
  refine ⟨fun f hf hf' => ?_, fun k hk => ?_, fun h f hh hf hf' => ?_, fun h k hh hk => ?_⟩
  · have hf0 : f ≠ 0 := by omega
    rw [decodeToken_m3_of_readLen hf' ls (readLen_inline hf0 31 _), if_neg hf0, Nat.add_comm 2 f]
    rfl
  · have hm := decodeToken_m3_of_readLen (Nat.zero_le 31) ls (readLen_extBytes 31 hk (d0 :: d1 :: rest))
    rwa [if_pos rfl, ← Nat.add_assoc] at hm
  · have hf0 : f ≠ 0 := by omega
    rw [decodeToken_m4_of_readLen hh hf' ls (readLen_inline hf0 7 _), if_neg hf0, Nat.add_comm 2 f]
    rfl
  · have hm := decodeToken_m4_of_readLen hh (Nat.zero_le 7) ls (readLen_extBytes 7 hk (d0 :: d1 :: rest))
    rwa [if_pos rfl, ← Nat.add_assoc] at hm

/-- Settles O24: at CMD every class reads unless its bytes end too soon; at FIRST the byte 0x12 is the boundary. -/
theorem noCommandByteIsIllegal : Obligations.NoCommandByteIsIllegal := by
  refine ⟨fun ls bs r h => ?_, fun ls t => (decodeToken_cmd_reads ls t).accepts,
    fun ls t bs => ⟨fun ht => if_pos ht, fun ht => if_neg (by omega)⟩⟩
  cases bs with
  | nil => cases h; rfl
  | cons t bs => exact (decodeToken_cmd_reads ls t).rejects bs r h

/-- Settles O21: each class by its command byte and literal state, its fields as quotients and remainders. -/
theorem twoByteMatchesAreReadFromTheirBits : Obligations.TwoByteMatchesAreReadFromTheirBits := by
  intro ls t b1 rest
  refine ⟨fun ht h0 h4 => ?_, fun ht h4 => ?_, fun ht => ?_⟩
  · rw [decodeToken_m1 ht h0]
    exact if_neg h4
  · rw [decodeToken_m1 ht (by rw [h4]; decide)]
    exact if_pos h4
  · have h7 : bitField t 7 5 = t.toNat / 32 := Nat.mod_eq_of_lt (by omega)
    rw [decodeToken_m2 ht, ← h7]
    rfl

end Sys2Proof.Machine
end

section
/-! SUPPORT. One equation for each way the Decoder's turn can go, and the Decoder's statements that are about one step of
it (40_decoder.md R120 to R122, R140). -/

namespace Sys2Proof.Machine

section
variable {s : State} {rest : List Turn}

/-- Where the Decoder does not run its turn passes (40_decoder.md R120). -/
theorem step_idle (h : s.decoderTurn rest) (hr : decoderRuns s = false) : step s = .next { s with port := rest } := by
  rw [step, fetch_idle h hr]

theorem step_emptyStream (h : s.decoderTurn rest) (hr : decoderRuns s = true) (hd : s.dph = .first)
    (h0 : s.inLen = 0) :
    step s = .next (({ s with port := rest, tokstart := 0 } : State).decoderError .endOfInput) := by
  rw [step, fetch_emptyStream h hr hd h0]

theorem step_noFirstRun (h : s.decoderTurn rest) (hr : decoderRuns s = true) (hd : s.dph = .first)
    (h0 : s.inLen ≠ 0) (hb : (s.inByte 0).toNat ≤ 0x11) :
    step s = .next { s with port := rest, tokstart := 0, dph := .cmd } := by
  rw [step, fetch_noFirstRun h hr hd h0 hb]

theorem step_firstRun (h : s.decoderTurn rest) (hr : decoderRuns s = true) (hd : s.dph = .first)
    (h0 : s.inLen ≠ 0) (hb : 0x12 ≤ (s.inByte 0).toNat) :
    step s = afterToken .first
      (exec (.firstLit ((s.inByte 0).toNat - 17)) { s with port := rest, tokstart := 0, ip := s.ip + 1 }) := by
  rw [step, fetch_firstRun h hr hd h0 hb, ← hd]

theorem step_token (h : s.decoderTurn rest) (hr : decoderRuns s = true) (hd : s.dph = .cmd) {i : Instr}
    {more : List Byte} (ht : decodeToken .cmd s.ls (s.inBytes s.ip (s.inLen - s.ip)) = .ok (i, more)) :
    step s = exec i { s with port := rest, tokstart := s.ip, ip := s.ip + (s.inLen - s.ip - more.length) } := by
  rw [step, fetch_token h hr hd ht]
  exact congrArg (fun ph => afterToken ph (exec i _)) hd

theorem step_truncated (h : s.decoderTurn rest) (hr : decoderRuns s = true) (hd : s.dph = .cmd) {r : Reject}
    (ht : decodeToken .cmd s.ls (s.inBytes s.ip (s.inLen - s.ip)) = .error r) :
    step s = .next
      (({ s with port := rest, tokstart := s.ip, ip := s.ip + (s.inLen - s.ip) } : State).decoderError .endOfInput) := by
  rw [step, fetch_truncated h hr hd ht]

end

/-- After the first run DPH is CMD, unless an error has ended the call (R121). -/
theorem afterToken_first_next (t : State) :
    afterToken .first (.next t) = .next (if t.status = .error then t else { t with dph := .cmd }) :=
  (apply_ite Host.Outcome.next _ _ _).symm

/-- Settles O28: a Decoder that does not run lets its turn pass. -/
theorem idleBlockTakesNoStep : Obligations.IdleBlockTakesNoStep :=
  fun s _ h hn => step_idle h (Bool.eq_false_iff.2 fun hr => hn ((decoderRuns_iff s).1 hr))

/-- Settles O29: a command of the port, a token at CMD, and the first run with the phase set after it. -/
theorem stepRunsTheDecodedInstruction : Obligations.StepRunsTheDecodedInstruction := by
  refine ⟨fun s op a b rest i hp hd => ?_, fun s rest i more h hm hb hd ht => ?_,
    fun s t rest h hm hb hd h0 hbyte ht => ?_⟩
  · rw [step, fetch_command hp hd]
  · exact step_token h ((decoderRuns_iff s).2 ⟨hm, hb⟩) hd ht
  · rw [step_firstRun h ((decoderRuns_iff s).2 ⟨hm, hb⟩) hd h0 hbyte, ht, afterToken_first_next]

/-- Settles O30: the two ways a START step can go without a first run. -/
theorem startStepWithoutAFirstRun : Obligations.StartStepWithoutAFirstRun :=
  fun s _ h hm hb hd =>
    have hr := (decoderRuns_iff s).2 ⟨hm, hb⟩
    ⟨step_emptyStream h hr hd, step_noFirstRun h hr hd⟩

/-- Settles O31: all of the unread input has been read when the head does not end in it. -/
theorem truncatedTokenIsEndOfInput : Obligations.TruncatedTokenIsEndOfInput := by
  intro s rest r h hm hb hd hip ht
  rw [step_truncated h ((decoderRuns_iff s).2 ⟨hm, hb⟩) hd ht, Nat.add_sub_cancel' hip]

/-- Settles O36: the size check passes or it fails. -/
theorem endTokenChecksTheExpectedLength : Obligations.EndTokenChecksTheExpectedLength :=
  fun _ _ _ => ⟨fun h => if_neg fun hn => h.elim hn.1 hn.2, fun h0 hne => if_pos ⟨h0, hne⟩⟩

end Sys2Proof.Machine
end

section
/-! SUPPORT. The tokens that copy, by the check that decides: all pass, the input ends, or the Sink is full (40_decoder.md
R123 to R128, R136). -/

namespace Sys2Proof.Machine

/-! The literal copy, from the closed form `copyLiterals_eq`. -/

section
variable {n : Nat} {s : State}

theorem State.le_avail_iff (hip : s.ip ≤ s.inLen) : n ≤ s.avail ↔ s.inputLeft n := Nat.le_sub_iff_add_le' hip

theorem State.le_room_iff (hc : s.outLen ≤ s.cfg.outCap) : n ≤ s.room ↔ s.roomFor n := Nat.le_sub_iff_add_le' hc

theorem copyLiterals_done (hi : s.inputLeft n) (hr : s.roomFor n) :
    copyLiterals n s = .done (({ s with ip := s.ip + n } : State).pushAll (s.inBytes s.ip n)) := by
  have hip : s.ip ≤ s.inLen := by omega
  have hc : s.outLen ≤ s.cfg.outCap := by omega
  rw [copyLiterals_eq n hc, if_pos ⟨(State.le_avail_iff hip).2 hi, (State.le_room_iff hc).2 hr⟩]

/-- The input ends before the Sink is full. -/
theorem copyLiterals_endOfInput (hip : s.ip ≤ s.inLen) (hi : ¬ s.inputLeft n) (hr : s.roomFor (s.inLen - s.ip)) :
    copyLiterals n s = .failed .endOfInput (({ s with ip := s.inLen } : State).pushAll (s.inBytes s.ip s.avail)) := by
  have hc : s.outLen ≤ s.cfg.outCap := by omega
  rw [copyLiterals_eq n hc, if_neg fun h => hi ((State.le_avail_iff hip).1 h.1), if_pos ((State.le_room_iff hc).2 hr),
    Nat.add_sub_cancel' hip]

/-- The Sink is full before the input ends; the byte that does not fit has been read. -/
theorem copyLiterals_overrun (hc : s.outLen ≤ s.cfg.outCap) (hr : ¬ s.roomFor n) (hi : s.inputLeft (s.room + 1)) :
    copyLiterals n s
      = .failed .outputOverrun (({ s with ip := s.ip + s.room + 1 } : State).pushAll (s.inBytes s.ip s.room)) := by
  have hfull : s.room < s.avail := (State.le_avail_iff (by omega)).2 hi
  rw [copyLiterals_eq n hc, if_neg fun h => hr ((State.le_room_iff hc).1 h.2), if_neg (Nat.not_le.2 hfull)]

end

/-! OUT after an append, by offset from OUT_LEN. -/

theorem State.outByte_pushAll_add (bs : List Byte) (s : State) {k : Nat} (hk : k < bs.length) :
    (s.pushAll bs).outByte (s.outLen + k) = bs[k] := by
  rw [State.outByte_pushAll, dif_pos (by omega)]
  simp only [Nat.add_sub_cancel_left]

/-- An append writes no byte before OUT_LEN and none from the new OUT_LEN on. -/
theorem State.outByte_pushAll_frame (bs : List Byte) {s : State} {j : Nat}
    (h : j < s.outLen ∨ s.outLen + bs.length ≤ j) : (s.pushAll bs).outByte j = s.outByte j :=
  h.elim (State.outByte_pushAll_lt bs) (State.outByte_pushAll_ge bs)

/-! Literal runs (R126 to R128). -/

theorem runLitState_val (len : Nat) : (runLitState len).val = min len 4 := Nat.mod_eq_of_lt (by omega)

theorem literalRun_done {len : Nat} {s : State} (hi : s.inputLeft len) (hr : s.roomFor len) :
    literalRun len s
      = .next (({ s with ip := s.ip + len, ls := runLitState len } : State).pushAll (s.inBytes s.ip len)) := by
  rw [literalRun, copyLiterals_done hi hr]; rfl

/-- A literal run whose copy fails is a Decoder error; the bytes appended are lost with the output. -/
theorem literalRun_failed {len : Nat} {s t : State} {e : ErrCode} {bs : List Byte}
    (h : copyLiterals len s = .failed e (t.pushAll bs)) : literalRun len s = .next (t.decoderError e) := by
  rw [literalRun, h]; rfl

/-- Settles O33: the literal copy passes, meets the end of the input, or meets a full Sink. -/
theorem literalRunTokensCopyTheirBytes : Obligations.LiteralRunTokensCopyTheirBytes := by
  intro i len s hrun _ hc
  rw [exec_literalRun hrun]
  refine ⟨fun hi hr => ⟨_, literalRun_done hi hr, ?frame, runLitState_val len, fun k hk => ?copied, fun j hj => ?kept⟩,
    fun hip hi hr => literalRun_failed (copyLiterals_endOfInput hip hi hr),
    fun hr hi => literalRun_failed (copyLiterals_overrun hc hr hi)⟩
  case frame => simp [State.pushAll]
  case copied =>
    exact (State.outByte_pushAll_add _ _ (by simpa using hk)).trans (State.inBytes_getElem ..)
  case kept => exact State.outByte_pushAll_frame _ (by simpa using hj)

/-! Matches (R124, R125, R129 to R136). -/

section
variable {d n : Nat} {sf : SField} {s : State}

/-- A copy within the output and the Sink leaves the trailing literals to do. -/
theorem matchToken_copied (h1 : 1 ≤ d) (hd : d ≤ s.outLen) (hr : s.roomFor n) :
    matchToken d n sf s = (trail sf (s.pushAll (s.pattern d n))).closeToken := by
  have hc : s.outLen ≤ s.cfg.outCap := by omega
  rw [matchToken, copyMatch_eq h1 n hc, if_neg (Nat.not_lt.2 hd), if_pos ((State.le_room_iff hc).2 hr),
    Attempt.andThen_done]

theorem matchToken_done (h1 : 1 ≤ d) (hd : d ≤ s.outLen) (hr : s.roomFor (n + sf.val)) (hi : s.inputLeft sf.val) :
    matchToken d n sf s = .next (({ s with ip := s.ip + sf.val, ls := trailLitState sf } : State).pushAll
      (s.pattern d n ++ s.inBytes s.ip sf.val)) := by
  rw [matchToken_copied h1 hd (by omega), trail,
    copyLiterals_done (by exact hi) (by simpa [Nat.add_assoc] using hr), State.pushAll_append]
  simp only [State.pushAll_inBytes]
  rfl

/-- Trailing literals whose copy fails are a Decoder error; the bytes appended are lost with the output. -/
theorem matchToken_trail_failed {t : State} {e : ErrCode} {bs : List Byte} (h1 : 1 ≤ d) (hd : d ≤ s.outLen)
    (hr : s.roomFor n) (h : copyLiterals sf.val (s.pushAll (s.pattern d n)) = .failed e (t.pushAll bs)) :
    matchToken d n sf s = .next (t.decoderError e) := by
  rw [matchToken_copied h1 hd hr, trail, h]; rfl

end

/-- Settles O34: the copy is the pattern of the last `d` bytes, and the trailing literals follow it. -/
theorem matchTokensRepeatEarlierOutput : Obligations.MatchTokensRepeatEarlierOutput := by
  intro i d n sf s hm h1 hd hr hi
  rw [exec_matchToken hm]
  refine ⟨_, matchToken_done h1 hd hr hi, ?frame, rfl, fun k hk => ?copied, fun k hk => ?trailing, fun j hj => ?kept⟩
  case frame => simp [State.pushAll, Nat.add_assoc]
  case copied =>
    refine (State.outByte_pushAll_add _ _ (by simp; omega)).trans ?_
    rw [List.getElem_append_left (by simpa using hk)]
    simp [State.pattern]
  case trailing =>
    rw [Nat.add_assoc]
    refine (State.outByte_pushAll_add _ _ (by simpa using hk)).trans ?_
    rw [List.getElem_append_right (by simp)]
    simp [State.inBytes_getElem]
  case kept => exact State.outByte_pushAll_frame _ (by simpa using hj)

/-- Settles O35: the distance, the copy, then the trailing literals with the input before the Sink. -/
theorem matchTokenErrorsComeInOrder : Obligations.MatchTokenErrorsComeInOrder := by
  intro i d n sf s hm h1 hc
  rw [exec_matchToken hm]
  refine ⟨fun hd => ?distance, fun hd hr => ?copy, fun hd hr hip hi => ?input, fun hd hn hr hi => ?sink⟩
  case distance => rw [matchToken, copyMatch_eq h1 n hc, if_pos hd]; rfl
  case copy => 
    rw [matchToken, copyMatch_eq h1 n hc, if_neg (Nat.not_lt.2 hd), if_neg fun h => hr ((State.le_room_iff hc).1 h)]
    rfl
  case input =>
    rw [matchToken_trail_failed h1 hd (by omega) (copyLiterals_endOfInput (s := s.pushAll (s.pattern d n)) hip hi
      (by simpa [Nat.add_assoc] using hr))]
    rfl
  case sink =>
    have hroom : (s.pushAll (s.pattern d n)).room = s.cfg.outCap - s.outLen - n := by
      simp [State.room, Nat.sub_add_eq]
    rw [← hroom] at hi ⊢
    rw [matchToken_trail_failed h1 hd hn (copyLiterals_overrun (s := s.pushAll (s.pattern d n)) (by simpa using hn)
      (by simpa [Nat.add_assoc] using hr) hi)]
    rfl

end Sys2Proof.Machine
end

section
/-! SUPPORT. Progress of the running Decoder: every token step ends the call or consumes at least two bytes, so a decode
call left to the Decoder ends within IN_LEN + 1 steps (40_decoder.md R141). -/

namespace Sys2Proof.Machine

/-- The call has ended (10_state.md R24). -/
def State.CallEnded (t : State) : Prop := t.status = .done ∨ t.status = .error

/-- From `s` to `t` the Decoder has consumed `k` bytes or more, and it runs as before. -/
structure Consumed (k : Nat) (s t : State) : Prop where
  ip : s.ip + k ≤ t.ip
  inLen : t.inLen = s.inLen
  mode : t.mode = s.mode
  status : t.status = s.status
  dph : t.dph = s.dph
  ipFits : s.ip ≤ s.inLen → t.ip ≤ t.inLen
  outLenFits : t.outLen ≤ t.cfg.outCap

/-- From `s` to `t` the call has ended or the Decoder has consumed `k` bytes or more; the port is the same. -/
structure EndsOrConsumes (k : Nat) (s t : State) : Prop where
  port : t.port = s.port
  progress : t.CallEnded ∨ Consumed k s t

theorem EndsOrConsumes.error (k : Nat) (s t : State) (e : ErrCode) (h : t.port = s.port) :
    EndsOrConsumes k s (t.decoderError e) :=
  ⟨h, .inl (.inr rfl)⟩

/-- `k` literals read and bytes appended within the Sink. -/
theorem EndsOrConsumes.copied {s : State} {k : Nat} {bs : List Byte} (l : LitState) (hc : s.outLen ≤ s.cfg.outCap)
    (hk : k ≤ s.avail) (hr : bs.length ≤ s.room) :
    EndsOrConsumes k s (({ s with ip := s.ip + k, ls := l } : State).pushAll bs) :=
  ⟨rfl, .inr ⟨le_rfl, rfl, rfl, rfl, rfl, fun hip => (State.le_avail_iff hip).1 hk, (State.le_room_iff hc).1 hr⟩⟩

theorem EndsOrConsumes.mono {j k : Nat} {s t : State} (h : EndsOrConsumes k s t) (hjk : j ≤ k) :
    EndsOrConsumes j s t :=
  ⟨h.port, h.progress.imp_right fun hc => { hc with ip := (Nat.add_le_add_left hjk _).trans hc.ip }⟩

/-- The bytes a token consumes after its head, at least: those of a literal run. -/
def literalBytes (i : Instr) : Nat := (runLength i).getD 0

theorem literalRun_endsOrConsumes (len : Nat) {s : State} (hc : s.outLen ≤ s.cfg.outCap) :
    Leads (EndsOrConsumes len s) (literalRun len s) := by
  obtain ⟨bs, h, ha, rfl, hr⟩ | ⟨k, e, bs, -, -, h⟩ := copyLiterals_cases len hc
  · rw [literalRun, h]
    exact .next (.copied (runLitState _) hc ha hr)
  · rw [literalRun_failed h]
    exact .next (.error _ _ _ _ rfl)

/-- A token ends the call or consumes its literals. -/
theorem exec_token_endsOrConsumes {i : Instr} {s : State} (ht : i.isToken = true) (hw : i.wf = true)
    (hc : s.outLen ≤ s.cfg.outCap) : Leads (EndsOrConsumes (literalBytes i) s) (exec i s) := by
  cases hrun : runLength i with
  | some len =>
    rw [exec_literalRun hrun, literalBytes, hrun]
    exact literalRun_endsOrConsumes len hc
  | none =>
    have hcase := token_cases ht hw hc
    rw [literalBytes, hrun]
    generalize exec i s = o at hcase ⊢
    cases hcase with
    | copied k bs l hk hr => exact .next ((EndsOrConsumes.copied l hc hk hr).mono (Nat.zero_le k))
    | failed k e => exact .next (.error _ _ _ _ rfl)
    | ended => exact .next ⟨rfl, .inl (.inl rfl)⟩

/-! The length of a token's head (30_encoding.md R83 to R94). -/

theorem decodeM1_head {ls : LitState} {t : Byte} {bs rest : List Byte} {i : Instr}
    (h : decodeM1 ls t bs = .ok (i, rest)) : rest.length < bs.length := by
  cases bs with
  | nil => cases h
  | cons b1 bs =>
    simp only [decodeM1] at h
    split at h <;> cases h <;> exact Nat.lt_succ_self _

theorem decodeM2_head {t : Byte} {bs rest : List Byte} {i : Instr} (h : decodeM2 t bs = .ok (i, rest)) :
    rest.length < bs.length := by
  cases bs with
  | nil => cases h
  | cons b1 bs => cases h; exact Nat.lt_succ_self _

/-- A length and a distance word take at least the two bytes of the word. -/
theorem readLen_distance_head {v base k : Nat} {d0 d1 : Byte} {bs rest : List Byte}
    (h : readLen v base bs = some (k, d0 :: d1 :: rest)) : rest.length < bs.length := by
  obtain ⟨-, -, pre, rfl⟩ := readLen_suffix h
  simp only [List.length_append, List.length_cons]; omega

theorem decodeM3_head {t : Byte} {bs rest : List Byte} {i : Instr} (h : decodeM3 t bs = .ok (i, rest)) :
    rest.length < bs.length := by
  unfold decodeM3 at h
  split at h
  next hr =>
    dsimp only at h
    split at h <;> cases h <;> exact readLen_distance_head hr
  next => cases h

theorem decodeM4_head {t : Byte} {bs rest : List Byte} {i : Instr} (h : decodeM4 t bs = .ok (i, rest)) :
    rest.length < bs.length := by
  unfold decodeM4 at h
  split at h
  next hr =>
    dsimp only at h
    split at h
    · cases h; exact readLen_distance_head hr
    · split at h <;> cases h <;> exact readLen_distance_head hr
  next => cases h

theorem decodeRun_runLength {t : Byte} {bs rest : List Byte} {i : Instr} (h : decodeRun t bs = .ok (i, rest)) :
    ∃ len, runLength i = some len := by
  unfold decodeRun at h
  split at h
  · split at h <;> cases h
    exact ⟨_, rfl⟩
  · cases h; exact ⟨_, rfl⟩

/-- A literal run in the stream has at least one literal (R85). -/
theorem wf_runLength {i : Instr} {len : Nat} (h : runLength i = some len) (hw : i.wf = true) : 1 ≤ len := by
  cases i with
  | firstLit l | lit l | litx l =>
    cases h
    simp [Instr.wf] at hw; omega
  | _ => cases h

/-- At CMD the head of a token and its literals are at least two bytes: a literal run has a literal, and every other head
has a second byte. -/
theorem decodeToken_cmd_consumes {ls : LitState} {bs rest : List Byte} {i : Instr}
    (h : decodeToken .cmd ls bs = .ok (i, rest)) : rest.length + 2 ≤ bs.length + literalBytes i := by
  obtain ⟨-, hw, t, pre, rfl⟩ := decodeToken_ok h
  have second : rest.length < (pre ++ rest).length →
      rest.length + 2 ≤ (t :: (pre ++ rest)).length + literalBytes i := fun hlt => by
    rw [List.length_cons]; omega
  obtain h1 | ⟨h1, h4⟩ | ⟨h4, h3⟩ | h3 : t.toNat < 0x10 ∨ (0x10 ≤ t.toNat ∧ t.toNat < 0x20) ∨
      (0x20 ≤ t.toNat ∧ t.toNat < 0x40) ∨ 0x40 ≤ t.toNat := by omega
  · obtain rfl | hls := eq_or_ne ls 0
    · rw [decodeToken_run h1] at h
      obtain ⟨len, hlen⟩ := decodeRun_runLength h
      have := wf_runLength hlen hw
      simp only [literalBytes, hlen, Option.getD_some, List.length_cons, List.length_append]; omega
    · rw [decodeToken_m1 h1 hls] at h; exact second (decodeM1_head h)
  · rw [decodeToken_m4 h1 h4] at h; exact second (decodeM4_head h)
  · rw [decodeToken_m3 h4 h3] at h; exact second (decodeM3_head h)
  · rw [decodeToken_m2 h3] at h; exact second (decodeM2_head h)

/-! Steps. -/

/-- A token step of the running Decoder ends the call or consumes at least two bytes. -/
theorem step_cmd_endsOrConsumes {s : State} {rest : List Turn} (h : s.decoderTurn rest) (hr : decoderRuns s = true)
    (hd : s.dph = .cmd) (hc : s.outLen ≤ s.cfg.outCap) (hip : s.ip ≤ s.inLen) :
    Leads (EndsOrConsumes 2 { s with port := rest }) (step s) := by
  cases hdec : decodeToken .cmd s.ls (s.inBytes s.ip (s.inLen - s.ip)) with
  | error r =>
    rw [step_truncated h hr hd hdec]
    exact .next (.error _ _ _ _ rfl)
  | ok p =>
    obtain ⟨i, more⟩ := p
    obtain ⟨ht, hw, -⟩ := decodeToken_ok hdec
    have hmore := decodeToken_inBytes hdec
    have htwo := decodeToken_cmd_consumes hdec
    rw [State.inBytes_length] at htwo
    rw [step_token h hr hd hdec]
    obtain ⟨t, hexec, hport, hp⟩ := exec_token_endsOrConsumes (s := { s with
      port := rest, tokstart := s.ip, ip := s.ip + (s.inLen - s.ip - more.length) }) ht hw hc
    refine ⟨t, hexec, hport, hp.imp_right fun hcons => { hcons with ip := ?_, ipFits := fun _ => ?_ }⟩
    · have := hcons.ip
      dsimp only at this ⊢; omega
    · exact hcons.ipFits (by dsimp only; omega)

/-- Settles O37: two bytes are more than none, and IP stays within the input. -/
theorem everyTokenStepConsumesInput : Obligations.EveryTokenStepConsumesInput := by
  intro s t rest h hm hb hd hc hip ht
  obtain ⟨-, hend | hcons⟩ :=
    (step_cmd_endsOrConsumes h ((decoderRuns_iff s).2 ⟨hm, hb⟩) hd hc hip).of_next ht
  · exact .inl hend
  · exact .inr ⟨hcons.status.trans hb, Nat.lt_of_lt_of_le (Nat.lt_add_of_pos_right Nat.two_pos) hcons.ip,
      hcons.ipFits hip, hcons.inLen⟩

/-! A whole call with nothing at the port. -/

/-- A decode call past its START step, with nothing at the port. -/
structure BetweenTokens (s : State) : Prop where
  port : s.port = []
  mode : s.mode = .decode
  status : s.status = .busy
  dph : s.dph = .cmd
  ipFits : s.ip ≤ s.inLen
  outLenFits : s.outLen ≤ s.cfg.outCap

theorem decoderTurn_nil {s : State} (hp : s.port = []) : s.decoderTurn [] := .inl ⟨hp, rfl⟩

theorem State.CallEnded.not_runs {s : State} (h : s.CallEnded) : decoderRuns s = false := by
  obtain h | h := h
  · simp [decoderRuns, h]
  · simp [decoderRuns, h]

/-- With nothing at the port an ended call stays as it is (60_exceptions.md R276). -/
theorem steps_of_ended (k : Nat) {s : State} (h : s.CallEnded) (hp : s.port = []) : steps k s = some s := by
  induction k with
  | zero => rfl
  | succ k ih =>
    have hs : step s = .next s := by
      rw [step_idle (decoderTurn_nil hp) h.not_runs, ← hp]
    rw [steps, hs]; exact ih

/-- Where each step ends the call or leads to a state from which `k` more steps end it, `k + 1` steps end it. -/
theorem steps_succ_ends {k : Nat} {s : State} {P : State → Prop} (hs : Leads P (step s))
    (h : ∀ t, P t → ∃ u, steps k t = some u ∧ u.CallEnded) : ∃ u, steps (k + 1) s = some u ∧ u.CallEnded := by
  obtain ⟨t, ht, hp⟩ := hs
  rw [steps, ht]
  exact h t hp

/-- Two bytes of unread input a step: more steps than half of it end the call. -/
theorem BetweenTokens.ends (k : Nat) {s : State} (h : BetweenTokens s) (hk : s.inLen - s.ip < 2 * k) :
    ∃ t, steps k s = some t ∧ t.CallEnded := by
  induction k generalizing s with
  | zero => exact absurd hk (Nat.not_lt_zero _)
  | succ k ih =>
    refine steps_succ_ends (step_cmd_endsOrConsumes (decoderTurn_nil h.port)
      ((decoderRuns_iff s).2 ⟨h.mode, h.status⟩) h.dph h.outLenFits h.ipFits) fun t ⟨hport, hp⟩ => ?_
    obtain hend | hcons := hp
    · exact ⟨t, steps_of_ended k hend hport, hend⟩
    · have hmore := hcons.ip
      have hlen := hcons.inLen
      have hfits := hcons.ipFits h.ipFits
      dsimp only at hmore hlen
      exact ih ⟨hport, hcons.mode.trans h.mode, hcons.status.trans h.status, hcons.dph.trans h.dph,
        hfits, hcons.outLenFits⟩ (by omega)

/-- The START step of a call with nothing at the port ends it or leads to the first token, with all of the input or less
still to read. -/
theorem step_first_leads {s : State} (hr : decoderRuns s = true) (hd : s.dph = .first) (hip : s.ip = 0)
    (hout : s.outLen = 0) (hp : s.port = []) :
    Leads (fun t => t.port = [] ∧ (t.CallEnded ∨ (BetweenTokens t ∧ t.inLen = s.inLen ∧ s.inLen ≠ 0))) (step s) := by
  have hturn := decoderTurn_nil hp
  obtain ⟨hm, hb⟩ := (decoderRuns_iff s).1 hr
  have hc : s.outLen ≤ s.cfg.outCap := hout ▸ Nat.zero_le _
  obtain h0 | h0 := eq_or_ne s.inLen 0
  · rw [step_emptyStream hturn hr hd h0]
    exact .next ⟨rfl, .inl (.inr rfl)⟩
  by_cases hbyte : 0x12 ≤ (s.inByte 0).toNat
  · rw [step_firstRun hturn hr hd h0 hbyte]
    obtain ⟨t, ht, hport, hprog⟩ := exec_token_endsOrConsumes
      (s := { s with port := [], tokstart := 0, ip := s.ip + 1 }) rfl (firstLit_wf hbyte) hc
    rw [ht]
    refine .ite (fun he => .next ⟨hport, .inl (.inr he)⟩) fun _ => .next ⟨hport, hprog.imp id fun hcons => ?_⟩
    exact ⟨⟨hport, hcons.mode.trans hm, hcons.status.trans hb, rfl, hcons.ipFits (by dsimp only; omega),
      hcons.outLenFits⟩, hcons.inLen, h0⟩
  · rw [step_noFirstRun hturn hr hd h0 (by omega)]
    exact .next ⟨rfl, .inr ⟨⟨rfl, hm, hb, rfl, by dsimp only; omega, hc⟩, rfl, h0⟩⟩

/-- Settles O38: the START step, and then two bytes a step. -/
theorem decodeCallEndsWithinItsBound : Obligations.DecodeCallEndsWithinItsBound := by
  intro s hm hb hd hip _ hout hp
  refine steps_succ_ends (step_first_leads ((decoderRuns_iff s).2 ⟨hm, hb⟩) hd hip hout hp) fun t ⟨hport, ht⟩ => ?_
  obtain hend | ⟨hbt, hlen, h0⟩ := ht
  · exact ⟨t, steps_of_ended _ hend hport, hend⟩
  · exact hbt.ends _ (by omega)

end Sys2Proof.Machine
end

section
/-! SUPPORT. Noninterference of the Decoder: work that starts from two states between which a running Decoder sees no
difference makes the same checks and leads to two such states (40_decoder.md R141). -/

namespace Sys2Proof.Machine

/-- Two running Decoders that agree. While they run, OUT_LEN and the output are compared too. -/
structure SameRunning (s t : State) : Prop extends SameDecoding s t where
  running : s.mode = .decode ∧ s.status = .busy

section
variable {s t : State} (h : SameRunning s t)
include h

theorem SameRunning.not_lost : ¬ s.outputLost := fun hl => nomatch h.running.2.symm.trans hl.2

theorem SameRunning.outLen_eq : s.outLen = t.outLen := h.outLen h.not_lost

theorem SameRunning.outByte_eq {a : Nat} (ha : a < s.outLen) : s.outByte a = t.outByte a := h.output h.not_lost a ha

theorem SameRunning.runs : decoderRuns s = true ∧ decoderRuns t = true :=
  ⟨(decoderRuns_iff s).2 h.running,
    (decoderRuns_iff t).2 ⟨h.mode.symm.trans h.running.1, h.status.symm.trans h.running.2⟩⟩

theorem SameRunning.unread_eq : s.inBytes s.ip (s.inLen - s.ip) = t.inBytes t.ip (t.inLen - t.ip) := by
  rw [← h.ip, ← h.inLen]
  exact State.inBytes_congr fun i hi => h.input _ (by omega)

theorem SameRunning.push (v : Byte) : SameRunning (s.push v) (t.push v) where
  toSameDecoding :=
    { h with
      outLen := fun _ => congrArg (· + 1) h.outLen_eq
      output := fun _ a ha => by
        rw [State.push_outLen] at ha
        rw [State.outByte_push, State.outByte_push, ← h.outLen_eq]
        split
        · rfl
        · exact h.outByte_eq (by omega) }
  running := h.running

/-- A Decoder error on both sides; what becomes of the output is not compared (93 U1). -/
theorem SameRunning.decoderError (e : ErrCode) : SameDecoding (s.decoderError e) (t.decoderError e) :=
  have lost : (s.decoderError e).outputLost := ⟨h.running.1, rfl⟩
  { h with
    status := rfl, errcode := rfl, errpos := h.tokstart
    outLen := fun hn => absurd lost hn, output := fun hn => absurd lost hn }

theorem SameRunning.done : SameDecoding { s with status := .done } { t with status := .done } :=
  { h with status := rfl, outLen := fun _ => h.outLen_eq, output := fun _ _ ha => h.outByte_eq ha }

end

/-- Two choices by conditions that agree are related where the alternatives are. -/
theorem related_ite {α : Type} {R : α → α → Prop} {c c' : Prop} [Decidable c] [Decidable c'] {x y x' y' : α}
    (hc : c ↔ c') (hx : c → R x x') (hy : ¬ c → R y y') : R (if c then x else y) (if c' then x' else y') := by
  simp only [← hc]
  split
  · exact hx ‹_›
  · exact hy ‹_›

/-! Work that may fail. -/

/-- Two pieces of work that end alike: both carried out or both failed at the same check. -/
inductive SameAttempt : Attempt → Attempt → Prop where
  | done {s t : State} (h : SameRunning s t) : SameAttempt (.done s) (.done t)
  | failed {s t : State} (e : ErrCode) (h : SameRunning s t) : SameAttempt (.failed e s) (.failed e t)

theorem SameAttempt.andThen {x y : Attempt} {f g : State → Attempt} (hxy : SameAttempt x y)
    (hf : ∀ {s t}, x = .done s → SameRunning s t → SameAttempt (f s) (g t)) :
    SameAttempt (x.andThen f) (y.andThen g) := by
  cases hxy with
  | done h => exact hf rfl h
  | failed e h => exact .failed e h

section
variable {s t : State} (h : SameRunning s t)
include h

theorem SameRunning.sinkAppend (v : Byte) : SameAttempt (sinkAppend v s) (sinkAppend v t) :=
  related_ite (by rw [h.outLen_eq, h.outCap]) (fun _ => .failed _ h) fun _ => .done (h.push v)

theorem SameRunning.copyLiteral : SameAttempt (copyLiteral s) (copyLiteral t) := by
  refine related_ite (by rw [h.inLen, h.ip]) (fun _ => .failed _ h) fun hn => ?_
  have hbyte : s.inByte s.ip = t.inByte t.ip := h.ip ▸ h.input s.ip (Nat.lt_of_not_le hn)
  have hread : SameRunning { s with ip := s.ip + 1 } { t with ip := t.ip + 1 } :=
    { h with ip := congrArg (· + 1) h.ip }
  rw [hbyte]
  exact hread.sinkAppend _

end

theorem SameRunning.copyLiterals (n : Nat) {s t : State} (h : SameRunning s t) :
    SameAttempt (copyLiterals n s) (copyLiterals n t) := by
  induction n generalizing s t with
  | zero => exact .done h
  | succ n ih => exact h.copyLiteral.andThen fun _ => ih

/-- The byte-serial copy looks back within the output, which only grows. -/
theorem SameRunning.copyBack {d : Nat} (h1 : 1 ≤ d) (n : Nat) {s t : State} (h : SameRunning s t)
    (hd : d ≤ s.outLen) : SameAttempt (copyBack d n s) (copyBack d n t) := by
  induction n generalizing s t with
  | zero => exact .done h
  | succ n ih =>
    have hback : sinkBack d s = sinkBack d t := by
      rw [sinkBack, sinkBack, ← h.outLen_eq]; exact h.outByte_eq (by omega)
    rw [Machine.copyBack, Machine.copyBack, ← hback]
    refine (h.sinkAppend _).andThen fun hu hs => ih hs ?_
    have hgrows := (Worked.sinkAppend (sinkBack d s) s).grows
    rw [hu] at hgrows
    exact hd.trans hgrows

section
variable {s t : State} (h : SameRunning s t)
include h

theorem SameRunning.copyMatch {d : Nat} (h1 : 1 ≤ d) (n : Nat) : SameAttempt (copyMatch d n s) (copyMatch d n t) :=
  related_ite (by rw [h.outLen_eq]) (fun _ => .failed _ h) fun hn => h.copyBack h1 n (Nat.not_lt.1 hn)

theorem SameRunning.setLs (l : LitState) : SameAttempt (.done { s with ls := l }) (.done { t with ls := l }) :=
  .done { h with ls := rfl }

theorem SameRunning.trail (sf : SField) : SameAttempt (trail sf s) (trail sf t) :=
  (h.copyLiterals sf.val).andThen fun _ hs => hs.setLs _

end

/-! Outcomes. -/

/-- Two next states between which a Decoder sees no difference. -/
inductive SameNext : Outcome → Outcome → Prop where
  | next {s t : State} (h : SameDecoding s t) : SameNext (.next s) (.next t)

theorem SameAttempt.closeToken {x y : Attempt} (h : SameAttempt x y) : SameNext x.closeToken y.closeToken := by
  cases h with
  | done h => exact .next h.toSameDecoding
  | failed e h => exact .next (h.decoderError e)

/-- The same token on both sides: a run, a match, or END. -/
theorem SameRunning.exec_token {s t : State} (h : SameRunning s t) {i : Instr} (ht : i.isToken = true)
    (hw : i.wf = true) : SameNext (exec i s) (exec i t) := by
  obtain ⟨len, hi⟩ | ⟨d, n, sf, hi⟩ | ⟨n, sf, rfl⟩ := token_kinds ht
  · rw [exec_literalRun hi, exec_literalRun hi]
    exact ((h.copyLiterals len).andThen fun _ hs => hs.setLs _).closeToken
  · rw [exec_matchToken hi, exec_matchToken hi]
    exact ((h.copyMatch (wf_distance hi hw) n).andThen fun _ hs => hs.trail sf).closeToken
  · exact related_ite (by rw [h.expLen, h.outLen_eq]) (fun _ => .next (h.decoderError _)) fun _ => .next h.done

theorem SameNext.afterToken_first {o o' : Outcome} (h : SameNext o o') :
    SameNext (afterToken .first o) (afterToken .first o') := by
  obtain ⟨h⟩ := h
  exact related_ite (by rw [h.status]) (fun _ => .next h) fun _ => .next { h with dph := rfl }

section
variable {s t : State} {r r' : List Turn} (h : SameRunning s t) (hs : s.decoderTurn r) (ht : t.decoderTurn r')
include h hs ht

/-- The START step (R121): both sides have the same first byte, or both have none. -/
theorem SameRunning.step_first (hd : s.dph = .first) : SameNext (step s) (step t) := by
  obtain ⟨hrs, hrt⟩ := h.runs
  have hdt : t.dph = .first := h.dph.symm.trans hd
  obtain h0 | h0 := eq_or_ne s.inLen 0
  · have hstart : SameRunning { s with port := r, tokstart := 0 } { t with port := r', tokstart := 0 } :=
      { h with tokstart := rfl }
    rw [step_emptyStream hs hrs hd h0, step_emptyStream ht hrt hdt (h.inLen ▸ h0)]
    exact .next (hstart.decoderError _)
  have h0t : t.inLen ≠ 0 := h.inLen ▸ h0
  have hbyte : s.inByte 0 = t.inByte 0 := h.input 0 (Nat.pos_of_ne_zero h0)
  by_cases hb : 0x12 ≤ (s.inByte 0).toNat
  · have hhead : SameRunning { s with port := r, tokstart := 0, ip := s.ip + 1 }
        { t with port := r', tokstart := 0, ip := t.ip + 1 } :=
      { h with tokstart := rfl, ip := congrArg (· + 1) h.ip }
    rw [step_firstRun hs hrs hd h0 hb, step_firstRun ht hrt hdt h0t (hbyte ▸ hb), ← hbyte]
    exact (hhead.exec_token rfl (firstLit_wf hb)).afterToken_first
  · rw [step_noFirstRun hs hrs hd h0 (by omega), step_noFirstRun ht hrt hdt h0t (by rw [← hbyte]; omega)]
    exact .next { h with tokstart := rfl, dph := rfl }

/-- A token step (R122): both sides read the same token head, or the input of both ends in it. -/
theorem SameRunning.step_cmd (hd : s.dph = .cmd) : SameNext (step s) (step t) := by
  obtain ⟨hrs, hrt⟩ := h.runs
  have hdt : t.dph = .cmd := h.dph.symm.trans hd
  have hunread := h.unread_eq
  have head : ∀ left, SameRunning { s with port := r, tokstart := s.ip, ip := s.ip + (s.inLen - s.ip - left) }
      { t with port := r', tokstart := t.ip, ip := t.ip + (t.inLen - t.ip - left) } := fun left =>
    { h with tokstart := h.ip, ip := congrArg₂ (fun n ip => ip + (n - ip - left)) h.inLen h.ip }
  cases hdec : decodeToken .cmd s.ls (s.inBytes s.ip (s.inLen - s.ip)) with
  | error e =>
    rw [step_truncated hs hrs hd hdec, step_truncated ht hrt hdt (by rwa [← h.ls, ← hunread])]
    exact .next ((head 0).decoderError _)
  | ok p =>
    obtain ⟨i, more⟩ := p
    obtain ⟨hi, hw, -⟩ := decodeToken_ok hdec
    rw [step_token hs hrs hd hdec, step_token ht hrt hdt (by rwa [← h.ls, ← hunread])]
    exact (head more.length).exec_token hi hw

theorem SameRunning.step : SameNext (step s) (step t) := by
  cases hd : s.dph with
  | first => exact h.step_first hs ht hd
  | cmd => exact h.step_cmd hs ht hd

end

/-- Settles O39: the two next states are the ones `SameRunning.step` compares. -/
theorem decoderDependsOnNothingElse : Obligations.DecoderDependsOnNothingElse := by
  intro s t s' t' r r' hsame hm hb _ _ hs ht hs' ht'
  have hnext := SameRunning.step ⟨hsame, hm, hb⟩ hs ht
  rw [hs', ht'] at hnext
  obtain ⟨h⟩ := hnext
  exact h

end Sys2Proof.Machine
end

section
/-! SUPPORT. The decoder reads back the head of every well-formed token where it may stand, and how the head of a match
depends on its S field (30_encoding.md R82 to R95). -/

namespace Sys2Proof.Machine

open Laws.RowPattern (toNat_byteOf)

/-- A field of up to six bits above an S field, as one byte. -/
theorem toNat_byteOf_sField (x : Nat) (sf : SField) (hx : x < 64) :
    (byteOf (x * 4 + sf.val)).toNat = x * 4 + sf.val := by
  have := sf.isLt
  rw [toNat_byteOf]; omega

/-- The S field of such a byte (R95). -/
theorem sField_byteOf (x : Nat) (sf : SField) : sf = Fin.ofNat 4 (byteOf (x * 4 + sf.val)).toNat := by
  have := sf.isLt
  apply Fin.ext
  simp only [Fin.ofNat, toNat_byteOf]; omega

/-- A distance word gives back its 14-bit field and its S field (R94, R95). -/
theorem distBytes_read {m : Nat} (hm : m < 16384) (sf : SField) :
    ∃ d0 d1 : Byte, distBytes m sf = [d0, d1] ∧ m = (d0.toNat + 256 * d1.toNat) / 4 ∧ sf = Fin.ofNat 4 d0.toNat := by
  have := sf.isLt
  refine ⟨_, _, rfl, ?_, sField_byteOf _ sf⟩
  simp only [toNat_byteOf]; omega

section
variable {ls : LitState} {d n len : Nat} {sf : SField} (rest : List Byte)

theorem decodeToken_lit (hw : (Instr.lit len).wf = true) :
    decodeToken .cmd 0 (headBytes (.lit len) ++ rest) = .ok (.lit len, rest) := by
  simp only [Instr.wf, Config.litMaxInline, decide_eq_true_eq] at hw
  have ht : (byteOf (len - 3)).toNat = len - 3 := by rw [toNat_byteOf]; omega
  have h0 : byteOf (len - 3) ≠ 0 := fun h => by rw [h] at ht; change 0 = _ at ht; omega
  refine (decodeToken_run (by omega)).trans ((if_neg h0).trans ?_)
  rw [ht, Nat.sub_add_cancel (by omega)]
  rfl

theorem decodeRun_of_readExt {bs : List Byte} {e : Nat} (h : readExt 15 bs = some (e, rest)) :
    decodeRun 0 bs = .ok (.litx (3 + e), rest) := by
  simp only [decodeRun, h, if_true]

theorem decodeToken_litx (hw : (Instr.litx len).wf = true) :
    decodeToken .cmd 0 (headBytes (.litx len) ++ rest) = .ok (.litx len, rest) := by
  simp only [Instr.wf, Config.litMaxInline, decide_eq_true_eq] at hw
  have hread := readExt_extBytes 15 (k := len - 18) (by omega) rest
  refine (decodeToken_run (by decide)).trans ((decodeRun_of_readExt rest hread).trans ?_)
  rw [show 3 + (15 + (len - 18)) = len by omega]

theorem decodeToken_m1a (hw : (Instr.m1a d sf).wf = true) (h0 : ls ≠ 0) (h4 : ls ≠ 4) :
    decodeToken .cmd ls (headBytes (.m1a d sf) ++ rest) = .ok (.m1a d sf, rest) := by
  simp only [Instr.wf, Config.m1aMaxDist, decide_eq_true_eq] at hw
  have ht := toNat_byteOf_sField ((d - 1) % 4) sf (by omega)
  obtain ⟨hread, -, -⟩ := twoByteMatchesAreReadFromTheirBits ls (byteOf ((d - 1) % 4 * 4 + sf.val))
    (byteOf ((d - 1) / 4)) rest
  refine (hread (by omega) h0 h4).trans ?_
  rw [← sField_byteOf, ht, toNat_byteOf,
    show 1 + ((d - 1) % 4 * 4 + sf.val) / 4 % 4 + 4 * ((d - 1) / 4 % 256) = d by omega]

theorem decodeToken_m1b (hw : (Instr.m1b d sf).wf = true) :
    decodeToken .cmd 4 (headBytes (.m1b d sf) ++ rest) = .ok (.m1b d sf, rest) := by
  simp only [Instr.wf, Config.m1bMinDist, Config.m1bMaxDist, decide_eq_true_eq] at hw
  have ht := toNat_byteOf_sField ((d - 2049) % 4) sf (by omega)
  obtain ⟨-, hread, -⟩ := twoByteMatchesAreReadFromTheirBits 4 (byteOf ((d - 2049) % 4 * 4 + sf.val))
    (byteOf ((d - 2049) / 4)) rest
  refine (hread (by omega) rfl).trans ?_
  rw [← sField_byteOf, ht, toNat_byteOf,
    show 2049 + ((d - 2049) % 4 * 4 + sf.val) / 4 % 4 + 4 * ((d - 2049) / 4 % 256) = d by omega]

/-- The command byte of M2 is six bits above the S field (R89). -/
theorem headBytes_m2 (d n : Nat) (sf : SField) :
    headBytes (.m2 d n sf) = [byteOf (((n - 1) * 8 + (d - 1) % 8) * 4 + sf.val), byteOf ((d - 1) / 8)] := by
  have h : ((n - 1) * 8 + (d - 1) % 8) * 4 + sf.val = (n - 1) * 32 + (d - 1) % 8 * 4 + sf.val := by omega
  rw [h]; rfl

theorem decodeToken_m2_head (hw : (Instr.m2 d n sf).wf = true) :
    decodeToken .cmd ls (headBytes (.m2 d n sf) ++ rest) = .ok (.m2 d n sf, rest) := by
  simp only [Instr.wf, Config.m2MaxDist, Config.m2MinLen, Config.m2MaxLen, decide_eq_true_eq] at hw
  have ht := toNat_byteOf_sField ((n - 1) * 8 + (d - 1) % 8) sf (by omega)
  obtain ⟨-, -, hread⟩ := twoByteMatchesAreReadFromTheirBits ls
    (byteOf (((n - 1) * 8 + (d - 1) % 8) * 4 + sf.val)) (byteOf ((d - 1) / 8)) rest
  rw [headBytes_m2]
  refine (hread (by omega)).trans ?_
  rw [← sField_byteOf, ht, toNat_byteOf,
    show 1 + (((n - 1) * 8 + (d - 1) % 8) * 4 + sf.val) / 4 % 8 + 8 * ((d - 1) / 8 % 256) = d by omega,
    show (((n - 1) * 8 + (d - 1) % 8) * 4 + sf.val) / 32 + 1 = n by omega]

theorem decodeToken_m3_inline (hw : (Instr.m3 d n sf).wf = true) :
    decodeToken .cmd ls (headBytes (.m3 d n sf) ++ rest) = .ok (.m3 d n sf, rest) := by
  simp only [Instr.wf, Config.m3MaxDist, Config.m3MaxInline, decide_eq_true_eq] at hw
  obtain ⟨d0, d1, hb, hm, hs⟩ := distBytes_read (m := d - 1) (by omega) sf
  obtain ⟨hread, -⟩ := distanceWordTokensAreReadFromTheirBits ls d0 d1 rest _ _ hm hs
  rw [show headBytes (.m3 d n sf) = byteOf (0x20 + (n - 2)) :: distBytes (d - 1) sf from rfl, hb]
  refine (hread (n - 2) (by omega) (by omega)).trans ?_
  rw [Nat.sub_add_cancel (by omega), Nat.sub_add_cancel (by omega)]

theorem decodeToken_m3x (hw : (Instr.m3x d n sf).wf = true) :
    decodeToken .cmd ls (headBytes (.m3x d n sf) ++ rest) = .ok (.m3x d n sf, rest) := by
  simp only [Instr.wf, Config.m3MaxDist, Config.m3MaxInline, decide_eq_true_eq] at hw
  obtain ⟨d0, d1, hb, hm, hs⟩ := distBytes_read (m := d - 1) (by omega) sf
  obtain ⟨-, hread, -⟩ := distanceWordTokensAreReadFromTheirBits ls d0 d1 rest _ _ hm hs
  rw [show headBytes (.m3x d n sf) = 0x20 :: (extBytes (n - 33) ++ distBytes (d - 1) sf) from rfl, hb, List.cons_append,
    List.append_assoc]
  refine (hread (n - 33) (by omega)).trans ?_
  rw [Nat.sub_add_cancel (by omega), Nat.add_sub_cancel' (by omega)]

/-- A distance of the M4 classes is its word plus 16384 times `H + 1`, and it is not the reserved one (R91, R92). -/
theorem m4_distance (h1 : 16385 ≤ d) (h2 : d ≤ 49151) :
    16384 + 16384 * ((d - 16384) / 16384) + (d - 16384) % 16384 = d ∧
      ¬ ((d - 16384) / 16384 = 0 ∧ (d - 16384) % 16384 = 0) ∧ (d - 16384) / 16384 ≤ 1 := by omega

theorem decodeToken_m4_inline (hw : (Instr.m4 d n sf).wf = true) :
    decodeToken .cmd ls (headBytes (.m4 d n sf) ++ rest) = .ok (.m4 d n sf, rest) := by
  simp only [Instr.wf, Config.m4MinDist, Config.m4MaxDist, Config.m4MaxInline, decide_eq_true_eq] at hw
  obtain ⟨d0, d1, hb, hm, hs⟩ := distBytes_read (m := (d - 16384) % 16384) (by omega) sf
  obtain ⟨-, -, hread, -⟩ := distanceWordTokensAreReadFromTheirBits ls d0 d1 rest _ _ hm hs
  obtain ⟨hd, hnot, hH⟩ := m4_distance hw.1 hw.2.1
  rw [show headBytes (.m4 d n sf) = byteOf (0x10 + (d - 16384) / 16384 * 8 + (n - 2))
    :: distBytes ((d - 16384) % 16384) sf from rfl, hb, Nat.mul_comm _ 8]
  refine (hread _ (n - 2) hH (by omega) (by omega)).trans ?_
  rw [if_neg hnot, hd, Nat.sub_add_cancel (by omega)]

theorem decodeToken_m4x (hw : (Instr.m4x d n sf).wf = true) :
    decodeToken .cmd ls (headBytes (.m4x d n sf) ++ rest) = .ok (.m4x d n sf, rest) := by
  simp only [Instr.wf, Config.m4MinDist, Config.m4MaxDist, Config.m4MaxInline, decide_eq_true_eq] at hw
  obtain ⟨d0, d1, hb, hm, hs⟩ := distBytes_read (m := (d - 16384) % 16384) (by omega) sf
  obtain ⟨-, -, -, hread⟩ := distanceWordTokensAreReadFromTheirBits ls d0 d1 rest _ _ hm hs
  obtain ⟨hd, hnot, hH⟩ := m4_distance hw.1 hw.2.1
  rw [show headBytes (.m4x d n sf) = byteOf (0x10 + (d - 16384) / 16384 * 8)
    :: (extBytes (n - 9) ++ distBytes ((d - 16384) % 16384) sf) from rfl, hb, Nat.mul_comm _ 8, List.cons_append,
    List.append_assoc]
  refine (hread _ (n - 9) hH (by omega)).trans ?_
  rw [if_neg hnot, hd, Nat.add_sub_cancel' (by omega)]

theorem decodeToken_endMarker (hw : (Instr.endMarker n sf).wf = true) :
    decodeToken .cmd ls (headBytes (.endMarker n sf) ++ rest) = .ok (.endMarker n sf, rest) := by
  simp only [Instr.wf, decide_eq_true_eq] at hw
  obtain ⟨d0, d1, hb, hm, hs⟩ := distBytes_read (m := 0) (by omega) sf
  obtain ⟨-, -, hinline, hext⟩ := distanceWordTokensAreReadFromTheirBits ls d0 d1 rest _ _ hm hs
  have hbytes : headBytes (.endMarker n sf)
      = (if n ≤ 9 then [byteOf (0x10 + (n - 2))] else 0x10 :: extBytes (n - 9)) ++ distBytes 0 sf := rfl
  rw [hbytes, hb]
  split
  · refine (hinline 0 (n - 2) (by omega) (by omega) (by omega)).trans ?_
    rw [if_pos ⟨rfl, rfl⟩, Nat.sub_add_cancel (by omega)]
  · rw [List.cons_append, List.cons_append, List.append_assoc]
    refine (hext 0 (n - 9) (by omega) (by omega)).trans ?_
    rw [if_pos ⟨rfl, rfl⟩, Nat.add_sub_cancel' (by omega)]

end

/-- FIRSTLIT is read back at the start of a stream (R82, R85). -/
theorem decodeToken_firstLit {len : Nat} (hw : (Instr.firstLit len).wf = true) (ls : LitState) (rest : List Byte) :
    decodeToken .first ls (headBytes (.firstLit len) ++ rest) = .ok (.firstLit len, rest) := by
  simp only [Instr.wf, Config.firstMaxShort, decide_eq_true_eq] at hw
  have ht : (byteOf (17 + len)).toNat = 17 + len := by rw [toNat_byteOf]; omega
  refine (if_pos (by rw [ht]; omega)).trans ?_
  rw [ht, Nat.add_sub_cancel_left]
  rfl

/-- Every well-formed token is read back from its head wherever it may stand, whatever follows. -/
theorem decodeToken_headBytes {i : Instr} {ph : Phase} {ls : LitState} (rest : List Byte) (ht : i.isToken = true)
    (hw : i.wf = true) (hfit : i.fits ph ls = true) : decodeToken ph ls (headBytes i ++ rest) = .ok (i, rest) := by
  cases i with
  | firstLit len =>
    obtain rfl : ph = .first := by simpa [Instr.fits] using hfit
    exact decodeToken_firstLit hw ls rest
  | lit len =>
    obtain ⟨rfl, rfl⟩ : ph = .cmd ∧ ls = 0 := by simpa [Instr.fits] using hfit
    exact decodeToken_lit rest hw
  | litx len =>
    obtain ⟨rfl, rfl⟩ : ph = .cmd ∧ ls = 0 := by simpa [Instr.fits] using hfit
    exact decodeToken_litx rest hw
  | m1a d sf =>
    obtain ⟨rfl, h0, h4⟩ : ph = .cmd ∧ ls ≠ 0 ∧ ls ≠ 4 := by simpa [Instr.fits] using hfit
    exact decodeToken_m1a rest hw h0 h4
  | m1b d sf =>
    obtain ⟨rfl, rfl⟩ : ph = .cmd ∧ ls = 4 := by simpa [Instr.fits] using hfit
    exact decodeToken_m1b rest hw
  | m2 d n sf =>
    obtain rfl : ph = .cmd := by simpa [Instr.fits] using hfit
    exact decodeToken_m2_head rest hw
  | m3 d n sf =>
    obtain rfl : ph = .cmd := by simpa [Instr.fits] using hfit
    exact decodeToken_m3_inline rest hw
  | m3x d n sf =>
    obtain rfl : ph = .cmd := by simpa [Instr.fits] using hfit
    exact decodeToken_m3x rest hw
  | m4 d n sf =>
    obtain rfl : ph = .cmd := by simpa [Instr.fits] using hfit
    exact decodeToken_m4_inline rest hw
  | m4x d n sf =>
    obtain rfl : ph = .cmd := by simpa [Instr.fits] using hfit
    exact decodeToken_m4x rest hw
  | endMarker n sf =>
    obtain rfl : ph = .cmd := by simpa [Instr.fits] using hfit
    exact decodeToken_endMarker rest hw
  | encStart | encLit | encMatch | encEnd | idxInsert | idxLookup | decStart | hostWriteIn | hostSetInLen | hostReadOut
  | hostReadReg | reset => cases ht

/-! The S field of a match (R95): the held bytes are the last two of a head with S = 0, and the count of a short run
goes into the first of them (41_encoder.md R181). -/

/-- The match token with another S field. -/
def withSField (sf : SField) : Instr → Instr
  | .m1a d _ => .m1a d sf
  | .m1b d _ => .m1b d sf
  | .m2 d n _ => .m2 d n sf
  | .m3 d n _ => .m3 d n sf
  | .m3x d n _ => .m3x d n sf
  | .m4 d n _ => .m4 d n sf
  | .m4x d n _ => .m4x d n sf
  | i => i

theorem matchOperands_withSField (sf : SField) {i : Instr} {d n : Nat} {sf' : SField}
    (h : matchOperands i = some (d, n, sf')) : matchOperands (withSField sf i) = some (d, n, sf) := by
  cases i <;> cases h <;> rfl

theorem wf_withSField (sf : SField) (i : Instr) : (withSField sf i).wf = i.wf := by cases i <;> rfl

theorem fits_withSField (sf : SField) (i : Instr) (ph : Phase) (ls : LitState) :
    (withSField sf i).fits ph ls = i.fits ph ls := by cases i <;> rfl

/-- Below a multiple of 4 an S field is put in by `|||`. -/
theorem byteOf_or_sField (x : Nat) (sf : SField) : byteOf (x * 4) ||| byteOf sf.val = byteOf (x * 4 + sf.val) := by
  have hor : x * 4 + sf.val = x * 4 ||| sf.val := by
    have := Nat.two_pow_add_eq_or_of_lt (i := 2) sf.isLt x
    rwa [Nat.mul_comm] at this
  rw [hor]
  exact (BitVec.ofNat_or ..).symm

theorem headBytes_withSField (sf : SField) {i : Instr} {d n : Nat} (h : matchOperands i = some (d, n, 0)) :
    ∃ bs b0 b1, headBytes i = bs ++ [b0, b1] ∧ headBytes (withSField sf i) = bs ++ [b0 ||| byteOf sf.val, b1] := by
  have two : ∀ x y : Nat, ∃ bs b0 b1, [byteOf (x * 4 + (0 : SField).val), byteOf y] = bs ++ [b0, b1] ∧
      [byteOf (x * 4 + sf.val), byteOf y] = bs ++ [b0 ||| byteOf sf.val, b1] := fun x y =>
    ⟨[], byteOf (x * 4), byteOf y, rfl, by rw [byteOf_or_sField]; rfl⟩
  have word : ∀ (bs : List Byte) (m : Nat), ∃ cs b0 b1, bs ++ distBytes m 0 = cs ++ [b0, b1] ∧
      bs ++ distBytes m sf = cs ++ [b0 ||| byteOf sf.val, b1] := fun bs m =>
    ⟨bs, byteOf (m % 64 * 4), byteOf (m / 64), rfl, by rw [byteOf_or_sField]; rfl⟩
  cases i with
  | m1a d' _ => cases h; exact two ((d - 1) % 4) ((d - 1) / 4)
  | m1b d' _ => cases h; exact two ((d - 2049) % 4) ((d - 2049) / 4)
  | m2 d' n' _ =>
    cases h
    rw [headBytes_m2, withSField, headBytes_m2]
    exact two ((n - 1) * 8 + (d - 1) % 8) _
  | m3 d' n' _ => cases h; exact word [_] _
  | m3x d' n' _ => cases h; exact word (0x20 :: _) _
  | m4 d' n' _ => cases h; exact word [byteOf (0x10 + (d - 16384) / 16384 * 8 + (n - 2))] _
  | m4x d' n' _ => cases h; exact word (byteOf (0x10 + (d - 16384) / 16384 * 8) :: extBytes (n - 9)) _
  | _ => cases h

end Sys2Proof.Machine
end

section
/-! SUPPORT. The Encoder's commands in one closed form each, and the statements about one command (41_encoder.md R173 to
R187). -/

namespace Sys2Proof.Machine

open Laws.RowPattern (toNat_byteOf)

/-! Accepted commands, by the check that decides. -/

section
variable {s : State} {a b : Word}

theorem exec_encLit_literal (hp : acceptsParse s = true) (h : s.pos < s.inLen) :
    exec .encLit s = .next { s with litCnt := s.litCnt + 1, pos := s.pos + 1 } :=
  (if_pos hp).trans (if_neg (Nat.not_le.2 h))

theorem exec_encLit_pastEnd (hp : acceptsParse s = true) (h : s.inLen ≤ s.pos) :
    exec .encLit s = .next (s.encoderError .illegalParse) :=
  (if_pos hp).trans (if_pos h)

theorem exec_encMatch_illegal (hp : acceptsParse s = true) (h : IllegalMatch a.toNat b.toNat s) :
    exec (.encMatch a b) s = .next (s.encoderError .illegalParse) :=
  (if_pos hp).trans (if_neg fun hl => (legalMatch_iff _ _ s).1 hl h)

theorem exec_encMatch_legal (hp : acceptsParse s = true) (h : ¬ IllegalMatch a.toNat b.toNat s) :
    exec (.encMatch a b) s = (encodeMatch a.toNat b.toNat s).closeCommand :=
  (if_pos hp).trans (if_pos ((legalMatch_iff _ _ s).2 h))

theorem exec_encEnd_uncovered (hp : acceptsParse s = true) (h : s.pos ≠ s.inLen) :
    exec .encEnd s = .next (s.encoderError .illegalParse) :=
  (if_pos hp).trans (if_pos h)

theorem exec_encEnd_covered (hp : acceptsParse s = true) (h : s.pos = s.inLen) :
    exec .encEnd s = (encodeEnd s).closeCommand :=
  (if_pos hp).trans (if_neg (not_not_intro h))

/-- What a match that is no illegal parse satisfies (R173). -/
structure LegalMatch (d n : Nat) (s : State) : Prop where
  dist : 1 ≤ d ∧ d ≤ s.pos ∧ d ≤ 49151
  len : 2 ≤ n ∧ s.pos + n ≤ s.inLen
  short : n = 2 → 1 ≤ litStateAt s ∧ litStateAt s ≤ 3 ∧ d ≤ 1024
  repeats : ∀ i, i < n → s.inByte (s.pos + i) = s.inByte (s.pos + i - d)

theorem legalMatch_of_not_illegal {d n : Nat} (h : ¬ IllegalMatch d n s) : LegalMatch d n s := by
  simp only [IllegalMatch, not_or] at h
  obtain ⟨h1, h2, h3, h4, h5⟩ := h
  push Not at h5
  exact ⟨by omega, by omega, by omega, h5⟩

/-! The appends of a whole command. -/

/-- The flushes and one more append are one append between register updates. -/
theorem State.flushed_pushAll (bs : List Byte) : s.flushed.pushAll bs = ({ s with
    hold0 := s.flushedHold0, holdV := false, litCnt := 0
    started := s.started || decide (s.litCnt ≠ 0) } : State).pushAll (flushBytes s ++ bs) := by
  rw [State.pushAll_append]; rfl

/-- A legal ENC_MATCH with room: one append of all but the last two bytes of the flush and the chosen token, those two
held (R178). -/
theorem exec_encMatch_done (hp : acceptsParse s = true) (hl : ¬ IllegalMatch a.toNat b.toNat s)
    (hv : s.holdV = s.started)
    (hr : s.outLen + (flushBytes s).length + (headBytes (chosenToken a.toNat b.toNat (litStateAt s))).length
      ≤ s.cfg.outCap + 2) :
    ∃ (bs : List Byte) (b0 b1 : Byte), headBytes (chosenToken a.toNat b.toNat (litStateAt s)) = bs ++ [b0, b1] ∧
      exec (.encMatch a b) s = .next (({ s with
        hold0 := b0, hold1 := b1, holdV := true, litCnt := 0, started := true
        pos := s.pos + b.toNat } : State).pushAll (flushBytes s ++ bs)) := by
  obtain ⟨⟨h1, -, h2⟩, ⟨h3, -⟩, -, -⟩ := legalMatch_of_not_illegal hl
  obtain ⟨bs, b0, b1, hb, he⟩ := encodeMatch_done h1 h2 h3 hv hr
  refine ⟨bs, byteOf b0, byteOf b1, hb, ?_⟩
  rw [exec_encMatch_legal hp hl, he, State.flushed_pushAll]
  rfl

/-- An ENC_END on a covered input with room: one append of the flush and the END marker (R179, R187). -/
theorem exec_encEnd_done (hp : acceptsParse s = true) (hpos : s.pos = s.inLen) (hv : s.holdV = s.started)
    (hr : s.roomFor ((flushBytes s).length + 3)) :
    exec .encEnd s = .next (({ s with
      hold0 := s.flushedHold0, holdV := false, litCnt := 0
      started := s.started || decide (s.litCnt ≠ 0), status := .done } : State).pushAll
        (flushBytes s ++ [0x11, 0x00, 0x00])) := by
  rw [exec_encEnd_covered hp hpos, encodeEnd_done hv hr, State.flushed_pushAll]
  rfl

/-- The second part of an append, as a block of OUT. -/
theorem State.outBytes_pushAll_drop {bs cs : List Byte} :
    (s.pushAll (bs ++ cs)).outBytes (s.outLen + bs.length) cs.length = cs := by
  have h := State.outBytes_pushAll (bs ++ cs) s
  rw [List.length_append, State.outBytes_append] at h
  exact (List.append_inj h (by simp)).2

end

/-! The statements about one command. -/

theorem levelOperand_eq (a : Word) : levelOperand a = if a.getLsbD 0 then .best else .fast := by
  have h : a.getLsbD 0 = decide (a.toNat % 2 = 1) := by
    rw [BitVec.getLsbD, Nat.testBit_zero]
  simp only [levelOperand, h, decide_eq_true_eq]
  split
  · rw [if_neg (by omega)]
  · rw [if_pos (by omega)]

theorem State.notAccepted_of_busy {s : State} (h : s.status = .busy) : s.notAccepted = s.raise .illegalCommand 0 :=
  if_pos h

/-- Settles O2: both start commands are one record update outside a call and refused during one. -/
theorem startCommandsBeginACall : Obligations.StartCommandsBeginACall := by
  intro s a
  refine ⟨fun hs => ?_, fun hb => ?_⟩
  · have hacc : acceptsSetup s = true := (acceptsSetup_iff s).2 hs
    rw [← levelOperand_eq]
    exact ⟨if_pos hacc, if_pos hacc⟩
  · have hacc : ¬ acceptsSetup s = true := fun h => (acceptsSetup_iff s).1 h hb
    rw [← State.notAccepted_of_busy hb]
    exact ⟨if_neg hacc, if_neg hacc⟩

/-- Settles O13: the position is below the input's length or not. -/
theorem encLitExtendsThePendingRun : Obligations.EncLitExtendsThePendingRun :=
  fun s hm hb =>
    have hp := (acceptsParse_iff s).2 ⟨hm, hb⟩
    ⟨exec_encLit_literal hp, exec_encLit_pastEnd hp⟩

/-- Settles O14: the parse check fails exactly on the five conditions. -/
theorem encMatchRefusesAnIllegalParse : Obligations.EncMatchRefusesAnIllegalParse :=
  fun s _ _ hm hb hi => exec_encMatch_illegal ((acceptsParse_iff s).2 ⟨hm, hb⟩) hi

/-- Settles O15: the append and the two held bytes are the flush and the token's head. -/
theorem encMatchWritesTheChosenToken : Obligations.EncMatchWritesTheChosenToken := by
  intro s a b hm hb hl hv hr
  obtain ⟨bs, b0, b1, hhead, ht⟩ := exec_encMatch_done ((acceptsParse_iff s).2 ⟨hm, hb⟩) hl hv hr
  refine ⟨_, ht, rfl, Nat.le_add_right _ _, ?appended, fun j hj => State.outByte_pushAll_frame _ hj⟩
  rw [hhead, ← List.append_assoc, State.pushAll_outLen, Nat.add_sub_cancel_left]
  exact congrArg (· ++ [b0, b1]) (State.outBytes_pushAll (flushBytes s ++ bs) _)

/-! The chosen token, row by row (R174). -/

/-- Every way R174 can choose a token. -/
inductive ChosenCase (d n ls : Nat) : Instr → Prop where
  | m1a (hn : n = 2) : ChosenCase d n ls (.m1a d 0)
  | m2 (hn : 3 ≤ n ∧ n ≤ 8) (hd : d ≤ 2048) : ChosenCase d n ls (.m2 d n 0)
  | m1b (hn : n = 3) (hd : 2049 ≤ d ∧ d ≤ 3072) (hls : ls = 4) : ChosenCase d n ls (.m1b d 0)
  | m3 (hn : 3 ≤ n ∧ n ≤ 33) (hd : d ≤ 16384) (h2 : ¬ (n ≤ 8 ∧ d ≤ 2048)) (h1 : ¬ (n = 3 ∧ d ≤ 3072 ∧ ls = 4)) :
      ChosenCase d n ls (.m3 d n 0)
  | m3x (hn : 34 ≤ n) (hd : d ≤ 16384) : ChosenCase d n ls (.m3x d n 0)
  | m4 (hn : 3 ≤ n ∧ n ≤ 9) (hd : 16385 ≤ d) : ChosenCase d n ls (.m4 d n 0)
  | m4x (hn : 10 ≤ n) (hd : 16385 ≤ d) : ChosenCase d n ls (.m4x d n 0)

theorem chosenToken_cases {d n : Nat} (ls : Nat) (hn : 2 ≤ n) : ChosenCase d n ls (chosenToken d n ls) := by
  unfold chosenToken
  split
  · exact .m1a ‹_›
  split
  · exact .m2 (by omega) (by omega)
  split
  · exact .m1b (by omega) (by omega) (by omega)
  split
  · split
    · exact .m3 (by omega) ‹_› (by omega) (by omega)
    · exact .m3x (by omega) ‹_›
  split
  · exact .m4 (by omega) (by omega)
  · exact .m4x (by omega) (by omega)

/-- Settles O17: each row's conditions are the operand ranges and the place of its token. -/
theorem chosenTokenSuitsTheDecoder : Obligations.ChosenTokenSuitsTheDecoder := by
  intro s d n ls hl hls
  obtain ⟨⟨h1, -, h2⟩, ⟨h3, -⟩, hshort, -⟩ := legalMatch_of_not_illegal hl
  have hc := chosenToken_cases (d := d) (litStateAt s) h3
  generalize chosenToken d n (litStateAt s) = i at hc ⊢
  have hval : ∀ k : LitState, ls = k ↔ litStateAt s = k.val := fun k => by rw [← hls]; exact Fin.ext_iff
  cases hc with
  | m1a hn =>
    subst hn
    obtain ⟨hlo, hhi, hd⟩ := hshort rfl
    refine ⟨by simp [Instr.wf]; omega, rfl, ?_⟩
    simp only [Instr.fits, decide_eq_true_eq, ne_eq, hval]
    exact ⟨trivial, Nat.one_le_iff_ne_zero.1 hlo, Nat.ne_of_lt (Nat.lt_succ_of_le hhi)⟩
  | m1b hn hd h4 =>
    subst hn
    refine ⟨by simp [Instr.wf]; omega, rfl, ?_⟩
    simp only [Instr.fits, decide_eq_true_eq, hval]
    exact ⟨trivial, h4⟩
  | m2 | m3 | m3x | m4 | m4x => exact ⟨by simp [Instr.wf]; omega, rfl, by simp [Instr.fits]⟩

/-! The bytes of the classes as numbers (R182 to R186). -/

section
variable {d n ls : Nat}

theorem chosenToken_m1a (hn : n = 2) : chosenToken d n ls = .m1a d 0 := if_pos hn

theorem chosenToken_m2 (h3 : 3 ≤ n) (h8 : n ≤ 8) (hd : d ≤ 2048) : chosenToken d n ls = .m2 d n 0 :=
  (if_neg (by omega)).trans (if_pos ⟨h3, h8, hd⟩)

theorem chosenToken_m1b (hn : n = 3) (hlo : 2049 ≤ d) (hhi : d ≤ 3072) (hls : ls = 4) :
    chosenToken d n ls = .m1b d 0 :=
  (if_neg (by omega)).trans ((if_neg (by omega)).trans (if_pos ⟨hn, hlo, hhi, hls⟩))

theorem chosenToken_m3 (h2 : n ≠ 2) (hd : d ≤ 16384) (hm2 : ¬ (n ≤ 8 ∧ d ≤ 2048))
    (hm1 : ¬ (n = 3 ∧ d ≤ 3072 ∧ ls = 4)) : chosenToken d n ls = if n ≤ 33 then .m3 d n 0 else .m3x d n 0 :=
  (if_neg h2).trans ((if_neg (by omega)).trans ((if_neg (by omega)).trans (if_pos hd)))

theorem chosenToken_m4 (h2 : n ≠ 2) (hd : 16385 ≤ d) :
    chosenToken d n ls = if n ≤ 9 then .m4 d n 0 else .m4x d n 0 :=
  (if_neg h2).trans ((if_neg (by omega)).trans ((if_neg (by omega)).trans (if_neg (by omega))))

end

/-- The last two bytes of a list are determined, and so is what is before them. -/
theorem append_pair_inj {bs cs : List Byte} {x y x' y' : Byte} (h : bs ++ [x, y] = cs ++ [x', y']) :
    bs = cs ∧ x = x' ∧ y = y' := by
  obtain ⟨hl, hr⟩ := List.append_inj' h rfl
  simpa [hl] using hr

/-- The head of a match in the M3 classes: the length bytes and the distance word (R90). -/
theorem headBytes_m3 (d n : Nat) : headBytes (if n ≤ 33 then .m3 d n 0 else .m3x d n 0)
    = (if n ≤ 33 then [byteOf (0x20 + (n - 2))] else 0x20 :: extBytes (n - 33)) ++ distBytes (d - 1) 0 := by
  split
  · rfl
  · rfl

/-- The head of a match in the M4 classes (R91). -/
theorem headBytes_m4 (d n : Nat) : headBytes (if n ≤ 9 then .m4 d n 0 else .m4x d n 0)
    = (if n ≤ 9 then [byteOf (0x10 + (d - 16384) / 16384 * 8 + (n - 2))]
        else byteOf (0x10 + (d - 16384) / 16384 * 8) :: extBytes (n - 9))
      ++ distBytes ((d - 16384) % 16384) 0 := by
  split
  · rfl
  · rfl

/-- Settles O16: the held bytes are the last two of the chosen token's head, read as numbers class by class. -/
theorem encMatchEmitsTheClassBytes : Obligations.EncMatchEmitsTheClassBytes := by
  rintro s a b _ _ hm hb rfl rfl hl hv hr
  obtain ⟨bs, b0, b1, hhead, ht⟩ := exec_encMatch_done ((acceptsParse_iff s).2 ⟨hm, hb⟩) hl hv hr
  obtain ⟨⟨hd1, -, hd2⟩, ⟨hn, -⟩, hshort, -⟩ := legalMatch_of_not_illegal hl
  have held : ∀ {cs x y}, headBytes (chosenToken a.toNat b.toNat (litStateAt s)) = cs ++ [byteOf x, byteOf y] →
      bs = cs ∧ b0.toNat = x % 256 ∧ b1.toNat = y % 256 := fun h => by
    obtain ⟨rfl, rfl, rfl⟩ := append_pair_inj (hhead.symm.trans h)
    exact ⟨rfl, toNat_byteOf _, toNat_byteOf _⟩
  refine ⟨_, bs, ht, rfl, ?len, State.outBytes_pushAll_drop, fun h2 => ?m1a, fun h3 h8 hd => ?m2,
    fun h3 hlo hhi hls => ?m1b, fun hd h2 hm2 hm1 => ?m3, fun hd => ?m4⟩
  case len => simp [Nat.add_assoc]
  case m1a =>
    obtain ⟨rfl, h0, h1⟩ := held (cs := []) (by rw [chosenToken_m1a h2]; rfl)
    have := (hshort h2).2.2
    exact ⟨rfl, h0.trans (by simp; omega), h1.trans (by omega)⟩
  case m2 =>
    obtain ⟨rfl, h0, h1⟩ := held (cs := []) (by rw [chosenToken_m2 h3 h8 hd]; rfl)
    exact ⟨rfl, h0.trans (by simp; omega), h1.trans (by omega)⟩
  case m1b =>
    obtain ⟨rfl, h0, h1⟩ := held (cs := []) (by rw [chosenToken_m1b h3 hlo hhi hls]; rfl)
    exact ⟨rfl, h0.trans (by simp; omega), h1.trans (by omega)⟩
  case m3 =>
    obtain ⟨rfl, h0, h1⟩ := held (by rw [chosenToken_m3 h2 hd hm2 hm1, headBytes_m3]; rfl)
    exact ⟨rfl, h0.trans (by simp; omega), h1.trans (by omega)⟩
  case m4 =>
    have h2 : b.toNat ≠ 2 := fun h => by have := hshort h; omega
    have hH : (a.toNat - 16384) / 16384 * 8 = if 32768 ≤ a.toNat then 8 else 0 := by split <;> omega
    obtain ⟨rfl, h0, h1⟩ := held (by rw [chosenToken_m4 h2 hd, headBytes_m4, hH]; rfl)
    exact ⟨rfl, h0.trans (by simp; omega), h1.trans (by omega)⟩

/-- Settles O18: the append is the flush and the END marker; an input not covered is an illegal parse. -/
theorem encEndClosesTheStream : Obligations.EncEndClosesTheStream := by
  intro s hm hb
  have hp := (acceptsParse_iff s).2 ⟨hm, hb⟩
  refine ⟨fun hpos hv hr => ?_, exec_encEnd_uncovered hp⟩
  have hlen : (flushBytes s ++ [0x11, 0x00, 0x00]).length = (flushBytes s).length + 3 := List.length_append
  refine ⟨_, exec_encEnd_done hp hpos hv (by simpa [Nat.add_assoc] using hr), ?frame, rfl, rfl, ?appended,
    fun j hj => State.outByte_pushAll_frame _ hj⟩
  case frame => simp only [State.pushAll, hlen, Nat.add_assoc]
  case appended => rw [← hlen]; exact State.outBytes_pushAll _ _

end Sys2Proof.Machine
end

section
/-! SUPPORT. Noninterference of the Hash Index with the Encoder: its work commutes with a change of LEVEL and BUCKET
(41_encoder.md R175). -/

namespace Sys2Proof.Machine

/-- The state with another LEVEL and BUCKET. -/
def State.withIndex (l : Level) (b : Arena) (s : State) : State := { s with level := l, bucket := b }

/-- An attempt with its state changed, where it ends. -/
def Attempt.map (f : State → State) : Attempt → Attempt
  | .done s => .done (f s)
  | .failed e s => .failed e (f s)

/-- A value read from the state that depends on neither LEVEL nor BUCKET. -/
def ReadsNoIndex {α : Type} (r : State → α) : Prop := ∀ l b s, r (s.withIndex l b) = r s

/-- Work that carries another LEVEL and BUCKET along and does not look at them. -/
def IgnoresIndex (f : State → Attempt) : Prop := ∀ l b s, f (s.withIndex l b) = (f s).map (State.withIndex l b)

theorem IgnoresIndex.andThen {f g : State → Attempt} (hf : IgnoresIndex f) (hg : IgnoresIndex g) :
    IgnoresIndex fun s => (f s).andThen g := by
  intro l b s
  dsimp only
  rw [hf]
  cases f s with
  | done t => exact hg l b t
  | failed e t => rfl

theorem IgnoresIndex.ite {c : State → Prop} [DecidablePred c] {f g : State → Attempt} (hc : ReadsNoIndex c)
    (hf : IgnoresIndex f) (hg : IgnoresIndex g) : IgnoresIndex fun s => if c s then f s else g s := by
  intro l b s
  simp only [hc l b s, hf l b s, hg l b s]
  split
  · rfl
  · rfl

/-- Updates of registers alone. -/
theorem IgnoresIndex.registers {f : State → State} (h : ∀ l b s, f (s.withIndex l b) = (f s).withIndex l b) :
    IgnoresIndex fun s => .done (f s) :=
  fun l b s => congrArg Attempt.done (h l b s)

theorem ignoresIndex_sinkAppend (v : Byte) : IgnoresIndex (sinkAppend v) :=
  .ite (c := fun s => s.outLen = s.cfg.outCap) (fun _ _ _ => rfl) (fun _ _ _ => rfl) (.registers fun _ _ _ => rfl)

theorem ignoresIndex_sinkAppendAll (bs : List Byte) : IgnoresIndex (sinkAppendAll bs) := by
  induction bs with
  | nil => exact fun _ _ _ => rfl
  | cons v vs ih => exact (ignoresIndex_sinkAppend v).andThen ih

/-- An append of bytes read from the state. -/
theorem IgnoresIndex.append {bs : State → List Byte} (h : ReadsNoIndex bs) :
    IgnoresIndex fun s => sinkAppendAll (bs s) s := by
  intro l b s
  dsimp only
  rw [h]
  exact ignoresIndex_sinkAppendAll (bs s) l b s

theorem readsNoIndex_pendingRun : ReadsNoIndex State.pendingRun :=
  fun _ _ _ => State.inBytes_of_inMem (by rfl) (by rfl) _ _

theorem ignoresIndex_flushHold : IgnoresIndex flushHold :=
  .ite (c := fun s => s.holdV = true) (fun _ _ _ => rfl)
    ((IgnoresIndex.append (bs := fun s => [s.hold0, s.hold1]) fun _ _ _ => rfl).andThen (.registers fun _ _ _ => rfl))
    (.registers fun _ _ _ => rfl)

/-- The token bytes of a pending run and the run. -/
theorem readsNoIndex_run (head : Nat → List Byte) : ReadsNoIndex fun s => head s.litCnt ++ s.pendingRun :=
  fun l b s => congrArg (head s.litCnt ++ ·) (readsNoIndex_pendingRun l b s)

theorem ignoresIndex_flushFirstRun : IgnoresIndex flushFirstRun :=
  (IgnoresIndex.append (readsNoIndex_run firstRunHead)).andThen (.registers fun _ _ _ => rfl)

theorem ignoresIndex_flushShortRun : IgnoresIndex flushShortRun := by
  have hheld : IgnoresIndex fun s => flushHold { s with hold0 := s.hold0 ||| byteOf s.litCnt } :=
    fun l b s => ignoresIndex_flushHold l b { s with hold0 := s.hold0 ||| byteOf s.litCnt }
  intro l b s
  rw [flushShortRun, readsNoIndex_pendingRun]
  exact (hheld.andThen (ignoresIndex_sinkAppendAll s.pendingRun)).andThen (.registers fun _ _ _ => rfl) l b s

theorem ignoresIndex_flushLaterRun : IgnoresIndex flushLaterRun := by
  intro l b s
  have hrun : (s.withIndex l b).pendingRun = s.pendingRun := readsNoIndex_pendingRun l b s
  rw [flushLaterRun, hrun]
  exact (ignoresIndex_flushHold.andThen (ignoresIndex_sinkAppendAll (laterRunHead s.litCnt ++ s.pendingRun))).andThen
    (.registers fun _ _ _ => rfl) l b s

theorem ignoresIndex_flushLiterals : IgnoresIndex flushLiterals :=
  .ite (c := fun s => s.litCnt = 0) (fun _ _ _ => rfl) (.registers fun _ _ _ => rfl) <|
    .ite (c := fun s => s.started = false) (fun _ _ _ => rfl) ignoresIndex_flushFirstRun <|
      .ite (c := fun s => s.litCnt ≤ 3) (fun _ _ _ => rfl) ignoresIndex_flushShortRun ignoresIndex_flushLaterRun

theorem ignoresIndex_flushAppend (bs : List Byte) : IgnoresIndex (flushAppend bs) :=
  (ignoresIndex_flushLiterals.andThen ignoresIndex_flushHold).andThen (ignoresIndex_sinkAppendAll bs)

theorem ignoresIndex_encodeEnd : IgnoresIndex encodeEnd :=
  (ignoresIndex_flushAppend [0x11, 0x00, 0x00]).andThen (.registers fun _ _ _ => rfl)

theorem ignoresIndex_emitMatch (d n ls : Nat) : IgnoresIndex (emitMatch d n ls) := by
  obtain ⟨bs, b0, b1, -, he⟩ := emitMatch_held d n ls
  rw [show emitMatch d n ls = emitHeld bs b0 b1 from funext he]
  exact (ignoresIndex_sinkAppendAll bs).andThen (.registers fun _ _ _ => rfl)

theorem ignoresIndex_encodeMatch (d n : Nat) : IgnoresIndex (encodeMatch d n) :=
  fun l b s => ((ignoresIndex_flushLiterals.andThen ignoresIndex_flushHold).andThen
    (ignoresIndex_emitMatch d n (litStateAt s))).andThen (.registers fun _ _ _ => rfl) l b s

theorem readsNoIndex_legalMatch (d n : Nat) : ReadsNoIndex (legalMatch d n) :=
  fun _ _ s => Bool.eq_iff_iff.2 (((legalMatch_iff d n _).trans Iff.rfl).trans (legalMatch_iff d n s).symm)

/-! Outcomes. -/

/-- A command whose next states carry another LEVEL and BUCKET along. -/
def NextIgnoresIndex (c : State → Outcome) : Prop :=
  ∀ l b s t, c s = .next t → c (s.withIndex l b) = .next (t.withIndex l b)

theorem IgnoresIndex.closeCommand {f : State → Attempt} (hf : IgnoresIndex f) :
    NextIgnoresIndex fun s => (f s).closeCommand := by
  intro l b s t ht
  dsimp only at ht ⊢
  rw [hf]
  cases h : f s with
  | done u => rw [h] at ht; cases ht; rfl
  | failed e u => rw [h] at ht; cases ht; rfl

theorem NextIgnoresIndex.ite {c : State → Prop} [DecidablePred c] {f g : State → Outcome} (hc : ReadsNoIndex c)
    (hf : NextIgnoresIndex f) (hg : NextIgnoresIndex g) : NextIgnoresIndex fun s => if c s then f s else g s := by
  intro l b s t ht
  dsimp only at ht ⊢
  simp only [hc l b s]
  split at ht
  · rw [if_pos ‹_›]; exact hf l b s t ht
  · rw [if_neg ‹_›]; exact hg l b s t ht

theorem NextIgnoresIndex.next {f : State → State} (h : ∀ l b s, f (s.withIndex l b) = (f s).withIndex l b) :
    NextIgnoresIndex fun s => .next (f s) := by
  intro l b s t ht
  cases ht
  exact congrArg Host.Outcome.next (h l b s)

theorem notAccepted_withIndex (l : Level) (b : Arena) (s : State) :
    (s.withIndex l b).notAccepted = s.notAccepted.withIndex l b := by
  by_cases h : s.status = .busy
  · rw [State.notAccepted_of_busy h]; exact State.notAccepted_of_busy h
  · rw [State.notAccepted_of_notBusy h]; exact State.notAccepted_of_notBusy h

/-- A parse command, accepted or not. -/
theorem NextIgnoresIndex.accepted {f : State → Outcome} (hf : NextIgnoresIndex f) :
    NextIgnoresIndex fun s => if acceptsParse s = true then f s else .next s.notAccepted :=
  .ite (fun _ _ _ => rfl) hf (.next notAccepted_withIndex)

theorem exec_parse_ignoresIndex {i : Instr} (hi : WorksOnParse i) : NextIgnoresIndex (exec i) := by
  have illegal : NextIgnoresIndex fun s => .next (s.encoderError .illegalParse) := .next fun _ _ _ => rfl
  obtain rfl | rfl | ⟨a, b, rfl⟩ := hi
  · exact .accepted (.ite (c := fun s => s.inLen ≤ s.pos) (fun _ _ _ => rfl) illegal (.next fun _ _ _ => rfl))
  · exact .accepted (.ite (c := fun s => s.pos ≠ s.inLen) (fun _ _ _ => rfl) illegal
      ignoresIndex_encodeEnd.closeCommand)
  · exact .accepted (.ite (c := fun s => legalMatch a.toNat b.toNat s = true)
      (fun l x s => congrArg (· = true) (readsNoIndex_legalMatch _ _ l x s))
      (ignoresIndex_encodeMatch a.toNat b.toNat).closeCommand illegal)

/-- Settles O20: each of the three commands is checks and work that do not look at LEVEL and BUCKET. -/
theorem encoderIgnoresTheIndex : Obligations.EncoderIgnoresTheIndex :=
  fun _ s t l b hi ht => exec_parse_ignoresIndex hi l b s t ht

end Sys2Proof.Machine
end

section
/-! SUPPORT. The streams an encode call can write, as a grammar of tokens over its input, and their size (41_encoder.md
R174 to R187, R189). -/

namespace Sys2Proof.Machine

/-- `Writes s bs p ls`: the bytes `bs` are whole tokens that stand for the first `p` bytes of the input of `s` and leave
the Decoder at literal state `ls`. A match repeats the input itself, so no output is spoken of. -/
inductive Writes (s : State) : List Byte → Nat → LitState → Prop where
  /-- Nothing written. -/
  | start : Writes s [] 0 0
  /-- The first run as FIRSTLIT (R180). -/
  | firstRun {len : Nat} (hw : (Instr.firstLit len).wf = true) :
      Writes s (headBytes (.firstLit len) ++ s.inBytes 0 len) len (runLitState len)
  /-- A run as LIT or LITX (R180, R181). -/
  | run {bs : List Byte} {p len : Nat} {ls : LitState} {i : Instr} (h : Writes s bs p ls) (hi : runLength i = some len)
      (hw : i.wf = true) (hfit : i.fits .cmd ls = true) :
      Writes s (bs ++ (headBytes i ++ s.inBytes p len)) (p + len) (runLitState len)
  /-- A match and the literals of its S field (R181 to R186). -/
  | copy {bs : List Byte} {p d n : Nat} {ls : LitState} {i : Instr} {sf : SField} (h : Writes s bs p ls)
      (hi : matchOperands i = some (d, n, sf)) (hw : i.wf = true) (hfit : i.fits .cmd ls = true) (hd : d ≤ p)
      (hrep : ∀ k, k < n → s.inByte (p + k) = s.inByte (p + k - d)) :
      Writes s (bs ++ (headBytes i ++ s.inBytes (p + n) sf.val)) (p + n + sf.val) (trailLitState sf)

/-! Sizes (R189). -/

theorem extBytes_length (k : Nat) : (extBytes k).length = (k - 1) / 255 + 1 := by simp [extBytes]

/-- A run past the first costs at most a quarter of its length beyond its literals. -/
theorem headBytes_run_length {i : Instr} {len : Nat} {ls : LitState} (hi : runLength i = some len) (hw : i.wf = true)
    (hfit : i.fits .cmd ls = true) : (headBytes i).length ≤ len / 4 := by
  cases i with
  | lit l =>
    cases hi
    have hlen : (headBytes (.lit len)).length = 1 := rfl
    simp [Instr.wf] at hw; omega
  | litx l =>
    cases hi
    have hlen : (headBytes (.litx len)).length = (extBytes (len - 18)).length + 1 := rfl
    rw [extBytes_length] at hlen
    simp [Instr.wf] at hw; omega
  | firstLit l => simp [Instr.fits] at hfit
  | _ => cases hi

/-- No match token is longer than the bytes it covers. -/
theorem headBytes_match_length {i : Instr} {d n : Nat} {sf : SField} (hi : matchOperands i = some (d, n, sf))
    (hw : i.wf = true) : (headBytes i).length ≤ n := by
  cases i with
  | m1a d' _ => cases hi; exact Nat.le_refl 2
  | m1b d' _ => cases hi; exact Nat.le_succ 2
  | m2 d' n' _ =>
    cases hi
    have hlen : (headBytes (.m2 d n sf)).length = 2 := rfl
    simp [Instr.wf] at hw; omega
  | m3 d' n' _ =>
    cases hi
    have hlen : (headBytes (.m3 d n sf)).length = 3 := rfl
    simp [Instr.wf] at hw; omega
  | m4 d' n' _ =>
    cases hi
    have hlen : (headBytes (.m4 d n sf)).length = 3 := rfl
    simp [Instr.wf] at hw; omega
  | m3x d' n' _ =>
    cases hi
    have hlen : (headBytes (.m3x d n sf)).length = (extBytes (n - 33) ++ distBytes (d - 1) sf).length + 1 := rfl
    rw [List.length_append, extBytes_length, show (distBytes (d - 1) sf).length = 2 from rfl] at hlen
    simp [Instr.wf] at hw; omega
  | m4x d' n' _ =>
    cases hi
    have hlen : (headBytes (.m4x d n sf)).length
        = (extBytes (n - 9) ++ distBytes ((d - 16384) % 16384) sf).length + 1 := rfl
    rw [List.length_append, extBytes_length, show (distBytes ((d - 16384) % 16384) sf).length = 2 from rfl] at hlen
    simp [Instr.wf] at hw; omega
  | _ => cases hi

/-- Whole tokens are at most a quarter longer than what they stand for, and one byte for a short first run. -/
theorem Writes.length_le {s : State} {bs : List Byte} {p : Nat} {ls : LitState} (h : Writes s bs p ls) :
    bs.length ≤ p + p / 4 + 1 := by
  induction h with
  | start => exact Nat.zero_le _
  | firstRun hw =>
    rename_i len
    have hlen : (headBytes (.firstLit len)).length = 1 := rfl
    rw [List.length_append, State.inBytes_length, hlen]; omega
  | run h hi hw hfit ih =>
    have := headBytes_run_length hi hw hfit
    rw [List.length_append, List.length_append, State.inBytes_length]; omega
  | copy h hi hw hfit hd hrep ih =>
    have := headBytes_match_length hi hw
    rw [List.length_append, List.length_append, State.inBytes_length]; omega

end Sys2Proof.Machine
end

section
/-! SUPPORT. What an encode call has written and still holds, at every point of a parse, and the size bound of its
stream (41_encoder.md R170 to R189). -/

namespace Sys2Proof.Machine

/-- An encode call on the input of `s` that has come to the state `t`. What has been written and the held token,
whatever S field it gets, stand for the input before the pending run. -/
structure Parsed (s t : State) : Prop where
  input : InputKept s t
  running : acceptsParse t = true
  fits : t.outLen ≤ t.cfg.outCap
  litCntFits : t.litCnt ≤ t.pos
  posFits : t.pos ≤ t.inLen
  heldIsStarted : t.holdV = t.started
  firstRun : t.started = false → t.litCnt = t.pos ∧ t.outLen = 0
  written : t.started = true → ∀ sf : SField,
    Writes s (t.outBytes 0 t.outLen ++ ([t.hold0 ||| byteOf sf.val, t.hold1] ++ s.inBytes (t.pos - t.litCnt) sf.val))
      (t.pos - t.litCnt + sf.val) (trailLitState sf)

/-- An encode call on the input of `s` that has ended in the state `t` with a whole stream of all of it. -/
def Finished (s t : State) : Prop :=
  ∃ bs ls, Writes s bs s.inLen ls ∧ t.outBytes 0 t.outLen = bs ++ headBytes (.endMarker 3 0)

section
variable {s t : State}

theorem Parsed.pendingRun (h : Parsed s t) : t.pendingRun = s.inBytes (t.pos - t.litCnt) t.litCnt :=
  State.inBytes_of_inMem h.input.inMem h.input.inEpoch _ _

/-- The token of a run after a match that needs one (R181). -/
theorem runToken_later {len : Nat} (h4 : 4 ≤ len) : runLength (runToken true len) = some len ∧
    (runToken true len).wf = true ∧ (runToken true len).fits .cmd 0 = true := by
  rw [runToken, if_neg (by simp)]
  split
  next h => exact ⟨rfl, decide_eq_true ⟨h4, h.2⟩, rfl⟩
  next h => exact ⟨rfl, decide_eq_true (Nat.lt_of_not_le fun hle => h ⟨rfl, hle⟩), rfl⟩

/-- A first run alone, as FIRSTLIT or as LITX (R180). -/
theorem Writes.first {len : Nat} (h1 : 1 ≤ len) :
    Writes s (headBytes (runToken false len) ++ s.inBytes 0 len) len (runLitState len) := by
  unfold runToken
  split
  next h => exact .firstRun (decide_eq_true ⟨h1, h.2⟩)
  next h =>
    have hlong : 238 < len := Nat.lt_of_not_le fun hle => h ⟨rfl, hle⟩
    rw [if_neg (by simp)]
    have hw : (Instr.litx len).wf = true := decide_eq_true (Nat.lt_trans (by decide) hlong)
    have hrun := Writes.run .start rfl hw rfl (s := s)
    rwa [Nat.zero_add] at hrun

/-- The held token as it is, with no literals in its S field. -/
theorem Parsed.writes_held (h : Parsed s t) (hs : t.started = true) :
    Writes s (t.outBytes 0 t.outLen ++ [t.hold0, t.hold1]) (t.pos - t.litCnt) 0 := by
  have hopen : Writes s (t.outBytes 0 t.outLen ++ ([t.hold0 ||| 0#8, t.hold1] ++ [])) (t.pos - t.litCnt) 0 :=
    h.written hs 0
  rwa [BitVec.or_zero, List.append_nil] at hopen

/-- After the flushes the stream stands for everything up to POS, and the Decoder will be at LSat (R172). -/
theorem Parsed.writes_flush (h : Parsed s t) :
    Writes s (t.outBytes 0 t.outLen ++ flushBytes t) t.pos (runLitState t.litCnt) := by
  have hpos : t.pos - t.litCnt + t.litCnt = t.pos := Nat.sub_add_cancel h.litCntFits
  cases hs : t.started with
  | false =>
    obtain ⟨hlit, hout⟩ := h.firstRun hs
    rw [hout, flushBytes, if_pos hs, ← hlit]
    split
    next h0 => rw [h0]; exact .start
    next h0 =>
      rw [h.pendingRun, hlit, Nat.sub_self, ← hlit]
      exact .first (Nat.one_le_iff_ne_zero.2 h0)
  | true =>
    by_cases h0 : t.litCnt = 0
    · have hheld := h.writes_held hs
      rw [h0] at hheld ⊢
      rwa [flushBytes_held hs h0]
    by_cases h3 : t.litCnt ≤ 3
    · have hopen := h.written hs ⟨t.litCnt, Nat.lt_succ_of_le h3⟩
      have hls : trailLitState ⟨t.litCnt, Nat.lt_succ_of_le h3⟩ = runLitState t.litCnt :=
        Fin.ext (by rw [runLitState_val, Nat.min_eq_left (by omega)]; rfl)
      rwa [flushBytes_short hs h0 h3, h.pendingRun, ← hls, ← hpos, Nat.add_sub_cancel]
    · obtain ⟨hi, hw, hfit⟩ := runToken_later (len := t.litCnt) (by omega)
      have hrun := (h.writes_held hs).run hi hw hfit
      rwa [hpos, List.append_assoc, headBytes_laterRun, ← h.pendingRun, ← flushBytes_later hs h0 h3] at hrun

/-! One command of the parse: the call goes on, ends with an error, or ends with a whole stream. -/

theorem State.outBytes_pushAll_all (bs : List Byte) (s : State) :
    (s.pushAll bs).outBytes 0 (s.outLen + bs.length) = s.outBytes 0 s.outLen ++ bs := by
  have hbelow : (s.pushAll bs).outBytes 0 s.outLen = s.outBytes 0 s.outLen := by
    apply List.ext_getElem (by simp)
    intro i hi _
    rw [State.outBytes_getElem, State.outBytes_getElem, State.outByte_pushAll_lt bs (by simpa using hi)]
  rw [State.outBytes_append, hbelow, Nat.zero_add, State.outBytes_pushAll]

/-- The start of an encode call. -/
theorem encStart_parsed (hs : s.status ≠ .busy) (a : Word) : Leads (Parsed s) (exec (.encStart a) s) := by
  rw [((startCommandsBeginACall s a).1 hs).1]
  exact .next ⟨⟨rfl, rfl, rfl⟩, rfl, Nat.zero_le _, Nat.le_refl _, Nat.zero_le _, rfl, fun _ => ⟨rfl, rfl⟩, nofun⟩

/-- A change of the Index, of the answers, or of the pending run and POS together. -/
theorem Parsed.of_unwritten {u : State} (h : Parsed s t) {k : Nat} (hk : t.pos + k ≤ t.inLen)
    (hu : u = { t with bucket := u.bucket, answers := u.answers, litCnt := t.litCnt + k, pos := t.pos + k }) :
    Parsed s u := by
  rw [hu]
  refine ⟨{ h.input with }, h.running, h.fits, Nat.add_le_add_right h.litCntFits k, hk, h.heldIsStarted,
    fun hs => ⟨congrArg (· + k) (h.firstRun hs).1, (h.firstRun hs).2⟩, fun hs sf => ?_⟩
  have hopen := h.written hs sf
  rw [← Nat.add_sub_add_right t.pos k t.litCnt] at hopen
  rwa [State.outBytes_of_outMem (t := t)]
  · rfl
  · rfl

/-- The call has failed, or `P` holds. -/
def FailedOr (P : State → Prop) (t : State) : Prop := t.status = .error ∨ P t

/-- The flushes and an append without room fail, and so does the command. -/
theorem Parsed.flushAppend_failed (h : Parsed s t) {bs : List Byte} (hr : ¬ t.roomFor (flushBytes t ++ bs).length) :
    ∃ e u, flushAppend bs t = .failed e u := by
  obtain ⟨_, _, _, _, he⟩ := flushed_append_failed bs h.heldIsStarted h.fits hr
  exact ⟨_, _, he⟩

theorem Parsed.encLit (h : Parsed s t) : Leads (FailedOr (Parsed s)) (exec .encLit t) := by
  by_cases hpos : t.pos < t.inLen
  · rw [exec_encLit_literal h.running hpos]
    exact .next (.inr (h.of_unwritten (k := 1) hpos rfl))
  · rw [exec_encLit_pastEnd h.running (Nat.not_lt.1 hpos)]
    exact .next (.inl rfl)

theorem Parsed.index {i : Instr} {a : Word} (hi : i = .idxInsert a ∨ i = .idxLookup a) (h : Parsed s t) :
    Leads (FailedOr (Parsed s)) (exec i t) := by
  obtain ⟨u, hu, hframe⟩ := exec_index_frame hi h.running
  refine ⟨u, hu, .inr (h.of_unwritten (k := 0) h.posFits ?_)⟩
  exact hframe

/-- A legal match with room: the flush and the chosen token's head have been written but for the last two bytes, and
with those held any S field completes the token (R178, R181). -/
theorem Parsed.encMatch_done (h : Parsed s t) {a b : Word} (hl : ¬ IllegalMatch a.toNat b.toNat t)
    (hr : t.outLen + (flushBytes t).length + (headBytes (chosenToken a.toNat b.toNat (litStateAt t))).length
      ≤ t.cfg.outCap + 2) : Leads (Parsed s) (exec (.encMatch a b) t) := by
  obtain ⟨bs, b0, b1, hhead, ht⟩ := exec_encMatch_done h.running hl h.heldIsStarted hr
  obtain ⟨hdist, hlen, -, hrep⟩ := legalMatch_of_not_illegal hl
  obtain ⟨hw, hops, hfit⟩ := chosenTokenSuitsTheDecoder t a.toNat b.toNat _ hl (runLitState_val t.litCnt)
  rw [ht]
  rw [hhead] at hr
  refine .next ⟨{ h.input with }, h.running, ?fits, Nat.zero_le _, hlen.2, rfl, nofun, fun _ sf => ?written⟩
  case fits =>
    simp only [List.length_append, List.length_cons, List.length_nil] at hr
    simp only [State.pushAll_outLen, State.pushAll_cfg, List.length_append]; omega
  case written =>
    obtain ⟨cs, c0, c1, hcs, hcsf⟩ := headBytes_withSField sf hops
    obtain ⟨rfl, rfl, rfl⟩ := append_pair_inj (hhead.symm.trans hcs)
    have hcopy := h.writes_flush.copy (matchOperands_withSField sf hops) ((wf_withSField ..).trans hw)
      ((fits_withSField ..).trans hfit) hdist.2.1 fun k hk => by
        rw [← h.input.inByte, ← h.input.inByte]; exact hrep k hk
    rw [hcsf, List.append_assoc bs, ← List.append_assoc, List.append_assoc (t.outBytes ..)] at hcopy
    rw [State.pushAll_outLen, State.outBytes_pushAll_all, State.outBytes_of_outMem (t := t)]
    · exact hcopy
    · rfl
    · rfl

/-- A legal match without room (R232). -/
theorem Parsed.encMatch_noRoom (h : Parsed s t) {a b : Word} (hl : ¬ IllegalMatch a.toNat b.toNat t)
    (hr : ¬ t.outLen + (flushBytes t).length + (headBytes (chosenToken a.toNat b.toNat (litStateAt t))).length
      ≤ t.cfg.outCap + 2) : Leads (fun u => u.status = .error) (exec (.encMatch a b) t) := by
  obtain ⟨⟨h1, -, h2⟩, ⟨h3, -⟩, -, -⟩ := legalMatch_of_not_illegal hl
  obtain ⟨bs, b0, b1, he, hhead⟩ := emitMatch_eq (litStateAt t) h1 h2 h3
  rw [hhead] at hr
  obtain ⟨e, u, hu⟩ := h.flushAppend_failed (bs := bs) (by
    simp only [List.length_append, List.length_cons, List.length_nil] at hr
    simp only [State.roomFor, List.length_append]; omega)
  have hwork : ((flushLiterals t).andThen flushHold).andThen (emitMatch a.toNat b.toNat (litStateAt t))
      = .failed e u := by
    rw [funext he]
    exact (Attempt.andThen_assoc ..).symm.trans (congrArg (Attempt.andThen · fun w => .done (w.hold b0 b1)) hu)
  rw [exec_encMatch_legal h.running hl, encodeMatch, hwork]
  exact .next rfl

theorem Leads.mono {P Q : State → Prop} {o : Outcome} (h : Leads P o) (hpq : ∀ t, P t → Q t) : Leads Q o :=
  h.imp fun t ⟨ho, hp⟩ => ⟨ho, hpq t hp⟩

theorem Parsed.encMatch (h : Parsed s t) (a b : Word) : Leads (FailedOr (Parsed s)) (exec (.encMatch a b) t) := by
  by_cases hl : IllegalMatch a.toNat b.toNat t
  · rw [exec_encMatch_illegal h.running hl]
    exact .next (.inl rfl)
  by_cases hr : t.outLen + (flushBytes t).length + (headBytes (chosenToken a.toNat b.toNat (litStateAt t))).length
      ≤ t.cfg.outCap + 2
  · exact (h.encMatch_done hl hr).mono fun _ => .inr
  · exact (h.encMatch_noRoom hl hr).mono fun _ => .inl

/-- ENC_END fails or leaves a whole stream of the input (R179, R187). -/
theorem Parsed.encEnd (h : Parsed s t) : Leads (FailedOr (Finished s)) (exec .encEnd t) := by
  by_cases hpos : t.pos = t.inLen
  case neg =>
    rw [exec_encEnd_uncovered h.running hpos]
    exact .next (.inl rfl)
  by_cases hr : t.roomFor ((flushBytes t).length + 3)
  · rw [exec_encEnd_done h.running hpos h.heldIsStarted hr]
    refine .next (.inr ⟨t.outBytes 0 t.outLen ++ flushBytes t, runLitState t.litCnt, ?_, ?_⟩)
    · rw [← h.input.inLen, ← hpos]
      exact h.writes_flush
    · rw [State.pushAll_outLen, State.outBytes_pushAll_all, State.outBytes_of_outMem (t := t), List.append_assoc]
      · rfl
      · rfl
      · rfl
  · obtain ⟨e, u, hu⟩ := h.flushAppend_failed (bs := [0x11, 0x00, 0x00]) (by simpa using hr)
    have hwork : encodeEnd t = .failed e u := congrArg (Attempt.andThen · _) hu
    rw [exec_encEnd_covered h.running hpos, hwork]
    exact .next (.inl rfl)

/-- A command between ENC_START and ENC_END. -/
theorem Parsed.parseCommand {i : Instr} (hi : isParseCommand i = true) (h : Parsed s t) :
    Leads (FailedOr (Parsed s)) (exec i t) := by
  cases i with
  | encLit => exact h.encLit
  | encMatch a b => exact h.encMatch a b
  | idxInsert a => exact h.index (.inl rfl)
  | idxLookup a => exact h.index (.inr rfl)
  | _ => cases hi

end

/-! A whole parse. -/

theorem runAll_cons {i : Instr} {s t : State} (h : exec i s = .next t) (is : List Instr) :
    runAll (i :: is) s = runAll is t := by
  rw [runAll, h]

/-- After an error no command of the parse changes anything (60_exceptions.md R266). -/
theorem exec_after_error {i : Instr} {s : State} (hi : isParseCommand i = true ∨ i = .encEnd) (hs : s.status = .error) :
    exec i s = .next s := by
  have hp : ¬ acceptsParse s = true := fun h => nomatch hs.symm.trans ((acceptsParse_iff s).1 h).2
  have hn : s.notAccepted = s := State.notAccepted_of_notBusy fun hb => nomatch hs.symm.trans hb
  have hrefused : exec i s = .next s.notAccepted := by
    obtain hi | rfl := hi
    · cases i with
      | encLit | encMatch a b | idxInsert a | idxLookup a => exact if_neg hp
      | _ => cases hi
    · exact if_neg hp
  rw [hrefused, hn]

theorem runAll_after_error {is : List Instr} {s : State} (his : ∀ i ∈ is, isParseCommand i = true ∨ i = .encEnd)
    (hs : s.status = .error) : runAll is s = some s := by
  induction is with
  | nil => rfl
  | cons i is ih =>
    rw [runAll_cons (exec_after_error (his i List.mem_cons_self) hs)]
    exact ih fun j hj => his j (List.mem_cons_of_mem i hj)

/-- A parse that ends DONE has not failed on the way, so it has written a whole stream. -/
theorem Parsed.runAll_finished {parse : List Instr} (hparse : ∀ i ∈ parse, isParseCommand i = true) {s t u : State}
    (h : Parsed s t) (hu : runAll (parse ++ [.encEnd]) t = some u) (hdone : u.status = .done) : Finished s u := by
  induction parse generalizing t with
  | nil =>
    obtain ⟨v, hv, hout⟩ := h.encEnd
    rw [List.nil_append, runAll_cons hv] at hu
    obtain rfl : v = u := Option.some.inj hu
    exact hout.resolve_left fun he => nomatch he.symm.trans hdone
  | cons i is ih =>
    obtain ⟨v, hv, hout⟩ := h.parseCommand (hparse i List.mem_cons_self)
    have his : ∀ j ∈ is, isParseCommand j = true := fun j hj => hparse j (List.mem_cons_of_mem i hj)
    rw [List.cons_append, runAll_cons hv] at hu
    obtain he | hv := hout
    · rw [runAll_after_error (fun j hj => (List.mem_append.1 hj).imp (his j) List.mem_singleton.1) he] at hu
      obtain rfl : v = u := Option.some.inj hu
      exact nomatch he.symm.trans hdone
    · exact ih his hv hu

/-- An encode call that ends DONE has written a whole stream of its input. -/
theorem encodeCall_finished {s t : State} {a : Word} {parse : List Instr} (hs : s.status ≠ .busy)
    (hparse : ∀ i ∈ parse, isParseCommand i = true) (ht : runAll (.encStart a :: parse ++ [.encEnd]) s = some t)
    (hdone : t.status = .done) : Finished s t := by
  obtain ⟨u, hu, hp⟩ := encStart_parsed hs a
  rw [List.cons_append, runAll_cons hu] at ht
  exact hp.runAll_finished hparse ht hdone

/-- Settles O50: whole tokens stay within the bound with a byte to spare for a short first run, and END is three. -/
theorem encodedStreamIsWithinTheSizeBound : Obligations.EncodedStreamIsWithinTheSizeBound := by
  intro s t a parse hs hparse ht hdone
  obtain ⟨bs, ls, hw, hout⟩ := encodeCall_finished hs hparse ht hdone
  have hlen := congrArg List.length hout
  rw [State.outBytes_length, List.length_append, show (headBytes (.endMarker 3 0)).length = 3 from rfl] at hlen
  have := hw.length_le
  omega

end Sys2Proof.Machine
end

section
/-! SUPPORT. A running Decoder on a stream of whole tokens: it comes to the end of them with the bytes they stand for
(40_decoder.md R120 to R140), and the round trip (41_encoder.md R188). -/

namespace Sys2Proof.Machine

/-! Runs of the Decoder with nothing at the port. -/

/-- Some number of steps leads from `s` to `t`. -/
def Reaches (s t : State) : Prop := ∃ k, steps k s = some t

theorem steps_add (j k : Nat) {s t : State} (h : steps j s = some t) : steps (j + k) s = steps k t := by
  induction j generalizing s with
  | zero => cases h; rw [Nat.zero_add]
  | succ j ih =>
    rw [Nat.succ_add]
    simp only [steps] at h ⊢
    cases hs : step s with
    | next u => rw [hs] at h; exact ih h
    | fault r => cases r
    | refused r => rw [hs] at h; cases h

theorem Reaches.refl (s : State) : Reaches s s := ⟨0, rfl⟩

theorem Reaches.step {s t u : State} (h : Reaches s t) (ht : step t = .next u) : Reaches s u := by
  obtain ⟨k, hk⟩ := h
  exact ⟨k + 1, (steps_add k 1 hk).trans (by rw [steps, ht]; rfl)⟩

theorem decoderTurn_rest {s : State} {rest : List Turn} (h : s.decoderTurn rest) (hp : s.port = []) : rest = [] :=
  h.elim And.right fun h => nomatch hp.symm.trans h

/-- No step puts anything at an empty port. -/
theorem step_port_nil {s : State} (hp : s.port = []) : Leads (fun t => t.port = []) (step s) := by
  have kept : ∀ {i : Instr} {t : State}, t.port = [] → Leads (fun u => u.port = []) (exec i t) := fun {i t} ht =>
    (exec_keepsPort i t).imp fun _ ⟨hu, hk⟩ => ⟨hu, hk.port.trans ht⟩
  have hc := step_cases s
  generalize step s = o at hc ⊢
  cases hc with
  | command _ _ _ _ _ h | reserved _ _ _ _ _ h | readIn _ _ h => exact nomatch hp.symm.trans h
  | idle rest h | emptyStream rest h | noFirstRun rest h | truncated rest _ h => exact .next (decoderTurn_rest h hp)
  | token rest _ _ h => exact kept (decoderTurn_rest h hp)
  | firstRun rest h =>
    obtain ⟨u, hu, hport⟩ := kept (i := .firstLit ((s.inByte 0).toNat - 17))
      (t := { s with port := rest, tokstart := 0, ip := s.ip + 1 }) (decoderTurn_rest h hp)
    rw [hu, afterToken_first_next]
    refine .next ?_
    split
    · exact hport
    · exact hport

theorem steps_port_nil (k : Nat) {s t : State} (hp : s.port = []) (h : steps k s = some t) : t.port = [] := by
  induction k generalizing s with
  | zero => cases h; exact hp
  | succ k ih =>
    obtain ⟨u, hu, hpu⟩ := step_port_nil hp
    rw [steps, hu] at h
    exact ih hpu h

/-- An ended state that is reached is the one in which the call ends, after however many steps that is. -/
theorem Reaches.of_ended {s t u : State} {k : Nat} (hp : s.port = []) (h : Reaches s t) (ht : t.CallEnded)
    (hu : steps k s = some u) (hend : u.CallEnded) : u = t := by
  obtain ⟨j, hj⟩ := h
  obtain hle | hle := Nat.le_total j k
  · have hmore := steps_add j (k - j) hj
    rw [Nat.add_sub_cancel' hle, hu, steps_of_ended _ ht (steps_port_nil j hp hj)] at hmore
    exact Option.some.inj hmore
  · have hmore := steps_add k (j - k) hu
    rw [Nat.add_sub_cancel' hle, hj, steps_of_ended _ hend (steps_port_nil k hp hu)] at hmore
    exact (Option.some.inj hmore).symm

/-! The Decoder between two tokens of a stream. -/

/-- The decode call that starts in `u` has come to the state `v` with the tokens `bs` read: the output is the first `p`
bytes of the input of `s`, and the literal state is `ls`. -/
structure Decoded (s u : State) (bs : List Byte) (p : Nat) (ls : LitState) (v : State) : Prop where
  reached : Reaches u v
  runs : decoderRuns v = true
  port : v.port = []
  input : InputKept u v
  cfg : v.cfg = u.cfg
  expLen : v.expLen = u.expLen
  ip : v.ip = bs.length
  ls : v.ls = ls
  outLen : v.outLen = p
  output : ∀ k, k < p → v.outByte k = s.inByte k
  first : v.dph = .first → bs = [] ∧ p = 0

/-- The input of the call goes on with `rest` after `bs`. -/
theorem State.inBytes_suffix {u : State} {bs rest : List Byte} (h : u.inBytes 0 u.inLen = bs ++ rest) :
    u.inLen = bs.length + rest.length ∧ u.inBytes bs.length rest.length = rest := by
  have hlen : u.inLen = bs.length + rest.length := by
    rw [← List.length_append, ← h, State.inBytes_length]
  rw [hlen, State.inBytes_append, Nat.zero_add] at h
  exact ⟨hlen, (List.append_inj h (by simp)).2⟩

/-- A block of it in the middle. -/
theorem State.inBytes_infix {u : State} {bs mid rest : List Byte} (h : u.inBytes 0 u.inLen = bs ++ (mid ++ rest)) :
    u.inBytes bs.length mid.length = mid := by
  obtain ⟨-, hsuf⟩ := State.inBytes_suffix h
  rw [List.length_append, State.inBytes_append] at hsuf
  exact (List.append_inj hsuf (by simp)).1

section
variable {s u v : State} {bs rest : List Byte} {p : Nat} {ls : LitState}

/-- A step that reads a token's head and `len` literals and appends the next `m` bytes of the input of `s`. -/
theorem Decoded.copied (h : Decoded s u bs p ls v) {head : List Byte} {q len m tokstart ip : Nat} {ls' : LitState}
    {w : State} (hip : ip = bs.length + head.length + len)
    (hw : w = ({ v with port := [], tokstart := tokstart, ip := ip, ls := ls', dph := .cmd } : State).pushAll
      (s.inBytes p m)) (hstep : step v = .next w) :
    Decoded s u (bs ++ (head ++ s.inBytes q len)) (p + m) ls' w := by
  have hreach := h.reached.step hstep
  subst hw
  refine ⟨hreach, h.runs, rfl, { h.input with }, h.cfg, h.expLen, by simp [hip, Nat.add_assoc], rfl,
    by simp [h.outLen], fun k hk => ?_, nofun⟩
  by_cases hkp : k < p
  · exact (State.outByte_pushAll_lt _ (by exact h.outLen ▸ hkp)).trans (h.output k hkp)
  · obtain ⟨j, rfl⟩ := Nat.exists_eq_add_of_le (Nat.not_lt.1 hkp)
    have hj : j < (s.inBytes p m).length := by simpa using Nat.lt_of_add_lt_add_left hk
    have happ := State.outByte_pushAll_add (s.inBytes p m)
      ({ v with port := [], tokstart := tokstart, ip := ip, ls := ls', dph := .cmd } : State) hj
    rw [State.inBytes_getElem] at happ
    rw [← happ, ← h.outLen]

/-- Where the input goes on with a byte of at most 0x11, the Decoder reads tokens, after a START step if it is at the
very start (R121). -/
theorem Decoded.at_cmd (h : Decoded s u bs p ls v) {b : Byte} (hin : u.inBytes 0 u.inLen = bs ++ b :: rest)
    (hb : p = 0 → b.toNat ≤ 0x11) : ∃ w, Decoded s u bs p ls w ∧ w.dph = .cmd := by
  cases hd : v.dph with
  | cmd => exact ⟨v, h, hd⟩
  | first =>
    obtain ⟨rfl, rfl⟩ := h.first hd
    obtain ⟨hlen, hsuf⟩ := State.inBytes_suffix hin
    have hbyte : v.inByte 0 = b := by
      rw [h.input.inByte]
      exact (List.cons.inj hsuf).1
    have h0 : v.inLen ≠ 0 := by
      rw [h.input.inLen, hlen, List.length_cons]; omega
    have hstep := step_noFirstRun (decoderTurn_nil h.port) h.runs hd h0 (by rw [hbyte]; exact hb rfl)
    exact ⟨_, ⟨h.reached.step hstep, h.runs, rfl, { h.input with }, h.cfg, h.expLen, h.ip, h.ls, h.outLen, h.output,
      nofun⟩, rfl⟩

/-- The state in which a token's meaning runs: IP past the token's head, which ends at `k` (R122). -/
def State.pastHead (k : Nat) (v : State) : State := { v with port := [], tokstart := v.ip, ip := k, dph := .cmd }

/-- The step that reads a token: its meaning runs with IP past its head (R122). -/
theorem Decoded.step_eq (h : Decoded s u bs p ls v) (hd : v.dph = .cmd) {i : Instr}
    (hin : u.inBytes 0 u.inLen = bs ++ (headBytes i ++ rest)) (ht : i.isToken = true) (hw : i.wf = true)
    (hfit : i.fits .cmd ls = true) :
    step v = exec i (v.pastHead (bs.length + (headBytes i).length)) := by
  obtain ⟨hlen, hsuf⟩ := State.inBytes_suffix hin
  have hunread : v.inBytes v.ip (v.inLen - v.ip) = headBytes i ++ rest := by
    rw [h.ip, h.input.inLen, hlen, Nat.add_sub_cancel_left, State.inBytes_of_inMem h.input.inMem h.input.inEpoch, hsuf]
  have hdec : decodeToken .cmd v.ls (v.inBytes v.ip (v.inLen - v.ip)) = .ok (i, rest) := by
    rw [hunread, h.ls]
    exact decodeToken_headBytes rest ht hw hfit
  have hip : v.ip + (v.inLen - v.ip - rest.length) = bs.length + (headBytes i).length := by
    rw [h.ip, h.input.inLen, hlen, List.length_append]; omega
  rw [step_token (decoderTurn_nil h.port) h.runs hd hdec, hip, State.pastHead, ← hd]

theorem isToken_of_runLength {i : Instr} {len : Nat} (hi : runLength i = some len) : i.isToken = true := by
  cases i with
  | firstLit | lit | litx => rfl
  | _ => cases hi

theorem isToken_of_matchOperands {i : Instr} {d n : Nat} {sf : SField} (hi : matchOperands i = some (d, n, sf)) :
    i.isToken = true := by
  cases i with
  | m1a | m1b | m2 | m3 | m3x | m4 | m4x => rfl
  | _ => cases hi

/-- The head of a run begins with a byte below 0x12 where it is no FIRSTLIT. -/
theorem headBytes_run {i : Instr} {len : Nat} (hi : runLength i = some len) (hw : i.wf = true)
    (hfit : i.fits .cmd ls = true) : ∃ b more, headBytes i = b :: more ∧ b.toNat ≤ 0x11 := by
  cases i with
  | lit l =>
    obtain ⟨b, hb, hadm⟩ := Laws.RowPattern.lit l hw
    cases hb
    exact ⟨_, _, rfl, hadm.2.trans (by decide)⟩
  | litx l => exact ⟨0, _, rfl, by decide⟩
  | firstLit l => simp [Instr.fits] at hfit
  | _ => cases hi

/-- The literals after a token's head, as its meaning finds them in the state `t` it runs from. -/
theorem Decoded.literals (h : Decoded s u bs p ls v) {head : List Byte} {q len : Nat} {t : State}
    (hin : u.inBytes 0 u.inLen = bs ++ ((head ++ s.inBytes q len) ++ rest)) (ht : InputKept v t)
    (hip : t.ip = bs.length + head.length) : t.inputLeft len ∧ t.inBytes t.ip len = s.inBytes q len := by
  have hin' : u.inBytes 0 u.inLen = (bs ++ head) ++ (s.inBytes q len ++ rest) := by simpa using hin
  obtain ⟨hlen, -⟩ := State.inBytes_suffix hin'
  have hlits := State.inBytes_infix hin'
  simp only [List.length_append, State.inBytes_length] at hlen hlits
  rw [State.inputLeft, hip, ht.inLen, h.input.inLen,
    State.inBytes_of_inMem (ht.inMem.trans h.input.inMem) (ht.inEpoch.trans h.input.inEpoch)]
  exact ⟨by omega, hlits⟩

theorem Decoded.roomFor (h : Decoded s u bs p ls v) {m : Nat} (hroom : p + m ≤ u.cfg.outCap) : v.roomFor m := by
  rwa [State.roomFor, h.outLen, h.cfg]

/-- A literal run in the stream (R127, R128). -/
theorem Decoded.run (h : Decoded s u bs p ls v) {i : Instr} {len : Nat} (hi : runLength i = some len) (hw : i.wf = true)
    (hfit : i.fits .cmd ls = true) (hin : u.inBytes 0 u.inLen = bs ++ ((headBytes i ++ s.inBytes p len) ++ rest))
    (hroom : p + len ≤ u.cfg.outCap) :
    ∃ w, Decoded s u (bs ++ (headBytes i ++ s.inBytes p len)) (p + len) (runLitState len) w := by
  obtain ⟨b, more, hhead, hb⟩ := headBytes_run hi hw hfit
  obtain ⟨w, hdec, hd⟩ := h.at_cmd (b := b) (by rw [hin, hhead]; rfl) fun _ => hb
  have hstep := hdec.step_eq hd (hin.trans (by rw [List.append_assoc])) (isToken_of_runLength hi) hw hfit
  obtain ⟨hleft, hlits⟩ := hdec.literals hin (t := w.pastHead _) ⟨rfl, rfl, rfl⟩ rfl
  rw [exec_literalRun hi, literalRun_done hleft (hdec.roomFor hroom), hlits] at hstep
  exact ⟨_, hdec.copied rfl rfl hstep⟩

/-- The first run as FIRSTLIT, in the START step (R121, R126). -/
theorem Decoded.firstRun (h : Decoded s u [] 0 0 u) {len : Nat} (hd : u.dph = .first)
    (hw : (Instr.firstLit len).wf = true)
    (hin : u.inBytes 0 u.inLen = (headBytes (.firstLit len) ++ s.inBytes 0 len) ++ rest) (hroom : len ≤ u.cfg.outCap) :
    ∃ w, Decoded s u (headBytes (.firstLit len) ++ s.inBytes 0 len) len (runLitState len) w := by
  have hwf : 1 ≤ len ∧ len ≤ 238 := of_decide_eq_true hw
  have hhead := (State.inBytes_suffix (bs := []) hin).2
  have hbyte : (u.inByte 0).toNat = 17 + len := by
    have hfirst : u.inByte 0 = byteOf (17 + len) := (List.cons.inj hhead).1
    rw [hfirst, Laws.RowPattern.toNat_byteOf]; omega
  obtain ⟨hleft, hlits⟩ := h.literals (head := headBytes (.firstLit len))
    (t := { u with port := [], tokstart := 0, ip := u.ip + 1 }) hin ⟨rfl, rfl, rfl⟩ (congrArg (· + 1) h.ip)
  have h0 : u.inLen ≠ 0 := by
    have := h.ip
    rw [State.inputLeft] at hleft; dsimp only at hleft; omega
  have hstep := step_firstRun (decoderTurn_nil h.port) h.runs hd h0 (by omega)
  rw [hbyte, Nat.add_sub_cancel_left, exec_literalRun rfl, literalRun_done hleft (h.roomFor (by omega)), hlits,
    afterToken_first_next, if_neg] at hstep
  · have hip : u.ip + 1 + len = [].length + (headBytes (.firstLit len)).length + len := congrArg (· + 1 + len) h.ip
    have hdec := h.copied (q := 0) hip rfl hstep
    rw [Nat.zero_add] at hdec
    exact ⟨_, hdec⟩
  · exact fun he => nomatch he.symm.trans ((decoderRuns_iff u).1 h.runs).2

/-- The input repeats over the whole of a match, so its bytes are the last `d` before it over and over (R124). -/
theorem inByte_repeats {d n : Nat} (h1 : 1 ≤ d) (hd : d ≤ p)
    (hrep : ∀ k, k < n → s.inByte (p + k) = s.inByte (p + k - d)) {k : Nat} (hk : k < n) :
    s.inByte (p - d + k % d) = s.inByte (p + k) := by
  induction k using Nat.strong_induction_on with
  | h k ih =>
    rw [hrep k hk]
    obtain hlt | hge := Nat.lt_or_ge k d
    · rw [Nat.mod_eq_of_lt hlt]
      congr 1; omega
    · rw [Nat.mod_eq_sub_mod hge, ih (k - d) (by omega) (by omega)]
      congr 1; omega

theorem pattern_eq_inBytes {t : State} {d n : Nat} (h1 : 1 ≤ d) (hd : d ≤ p) (hlen : t.outLen = p)
    (hout : ∀ k, k < p → t.outByte k = s.inByte k)
    (hrep : ∀ k, k < n → s.inByte (p + k) = s.inByte (p + k - d)) : t.pattern d n = s.inBytes p n := by
  apply List.ext_getElem (by simp)
  intro k hk _
  have hmod := Nat.mod_lt k h1
  rw [State.inBytes_getElem, ← inByte_repeats h1 hd hrep (by simpa using hk)]
  simp only [State.pattern, List.getElem_map, List.getElem_range, hlen]
  exact hout _ (by omega)

/-- A match in the stream and the literals of its S field (R124, R125, R129 to R135). -/
theorem Decoded.copy (h : Decoded s u bs p ls v) {i : Instr} {d n : Nat} {sf : SField}
    (hi : matchOperands i = some (d, n, sf)) (hw : i.wf = true) (hfit : i.fits .cmd ls = true) (hd : d ≤ p)
    (hrep : ∀ k, k < n → s.inByte (p + k) = s.inByte (p + k - d))
    (hin : u.inBytes 0 u.inLen = bs ++ ((headBytes i ++ s.inBytes (p + n) sf.val) ++ rest))
    (hroom : p + n + sf.val ≤ u.cfg.outCap) :
    ∃ w, Decoded s u (bs ++ (headBytes i ++ s.inBytes (p + n) sf.val)) (p + n + sf.val) (trailLitState sf) w := by
  have h1 := wf_distance hi hw
  have hcmd : v.dph = .cmd := by
    cases hv : v.dph with
    | cmd => rfl
    | first => have := (h.first hv).2; omega
  have hstep := h.step_eq hcmd (hin.trans (by rw [List.append_assoc])) (isToken_of_matchOperands hi) hw hfit
  obtain ⟨hleft, hlits⟩ := h.literals hin (t := v.pastHead _) ⟨rfl, rfl, rfl⟩ rfl
  rw [Nat.add_assoc] at hroom ⊢
  rw [exec_matchToken hi, matchToken_done h1 (s := v.pastHead _) (h.outLen.symm ▸ hd) (h.roomFor hroom) hleft, hlits,
    pattern_eq_inBytes (t := v.pastHead _) h1 hd h.outLen h.output hrep, ← State.inBytes_append] at hstep
  exact ⟨_, h.copied rfl rfl hstep⟩

/-- The END marker of a stream, where EXP_LEN is what has been produced (R140). -/
theorem Decoded.ends (h : Decoded s u bs p ls v) (hin : u.inBytes 0 u.inLen = bs ++ (headBytes (.endMarker 3 0) ++ []))
    (hexp : u.expLen = p) : ∃ w, Reaches u w ∧ w.status = .done ∧ w.outLen = p ∧ w.ip = u.inLen ∧
      ∀ k, k < p → w.outByte k = s.inByte k := by
  obtain ⟨w, hdec, hd⟩ := h.at_cmd (b := 0x11) hin fun _ => by decide
  have hstep := hdec.step_eq hd hin rfl rfl rfl
  rw [(endTokenChecksTheExpectedLength 3 0 _).1 (.inr (by exact (hdec.outLen.trans hexp.symm).trans hdec.expLen.symm))]
    at hstep
  exact ⟨_, hdec.reached.step hstep, rfl, hdec.outLen, (State.inBytes_suffix hin).1.symm, hdec.output⟩

end

/-- The start of a decode call. -/
structure CallStart (u : State) : Prop where
  runs : decoderRuns u = true
  port : u.port = []
  dph : u.dph = .first
  ip : u.ip = 0
  ls : u.ls = 0
  outLen : u.outLen = 0

theorem CallStart.decoded {u : State} (h : CallStart u) (s : State) : Decoded s u [] 0 0 u :=
  ⟨.refl u, h.runs, h.port, .refl u, rfl, rfl, h.ip, h.ls, h.outLen, nofun, fun _ => ⟨rfl, rfl⟩⟩

/-- A decode call on an input that begins with whole tokens reads them and produces what they stand for. -/
theorem Writes.decoded {s u : State} {bs rest : List Byte} {p : Nat} {ls : LitState} (h : Writes s bs p ls)
    (hu : CallStart u) (hin : u.inBytes 0 u.inLen = bs ++ rest) (hroom : p ≤ u.cfg.outCap) :
    ∃ v, Decoded s u bs p ls v := by
  induction h generalizing rest with
  | start => exact ⟨u, hu.decoded s⟩
  | firstRun hw => exact (hu.decoded s).firstRun hu.dph hw hin hroom
  | run h hi hw hfit ih =>
    rw [List.append_assoc] at hin
    obtain ⟨v, hv⟩ := ih hin (by omega)
    exact hv.run hi hw hfit hin hroom
  | copy h hi hw hfit hd hrep ih =>
    rw [List.append_assoc] at hin
    obtain ⟨v, hv⟩ := ih hin (by omega)
    exact hv.copy hi hw hfit hd hrep hin hroom

/-- DEC_START begins a call on the input as it stands (R260). -/
theorem decStart_leads {u : State} (hu : u.status ≠ .busy) (hp : u.port = []) (a : Word) :
    Leads (fun v => CallStart v ∧ InputKept u v ∧ v.cfg = u.cfg ∧ v.expLen = a.toNat) (exec (.decStart a) u) := by
  rw [((startCommandsBeginACall u a).1 hu).2]
  exact .next ⟨⟨rfl, hp, rfl, rfl, rfl, rfl⟩, ⟨rfl, rfl, rfl⟩, rfl, rfl⟩

/-- Settles O49: the encode call has written a whole stream of its input, the Decoder reads a whole stream to its END,
and a call that ends does so within its bound. -/
theorem encodedStreamDecodesToItsInput : Obligations.EncodedStreamDecodesToItsInput := by
  intro s t u a parse hs hlen hparse ht hdone hu hport hulen hbytes hroom
  obtain ⟨bs, ls, hw, hout⟩ := encodeCall_finished hs hparse ht hdone
  obtain ⟨u', hexec, hstart, hkept, hcfg, hexp⟩ := decStart_leads hu hport (BitVec.ofNat 32 s.inLen)
  have hin : u'.inBytes 0 u'.inLen = bs ++ (headBytes (.endMarker 3 0) ++ []) := by
    rw [List.append_nil, ← hout, hkept.inLen, hulen]
    apply List.ext_getElem (by simp)
    intro k hk _
    rw [State.inBytes_getElem, State.outBytes_getElem, hkept.inByte, Nat.zero_add]
    exact hbytes k (by simpa using hk)
  rw [BitVec.toNat_ofNat, Nat.mod_eq_of_lt hlen] at hexp
  obtain ⟨v, hv⟩ := hw.decoded hstart hin (hcfg ▸ hroom)
  obtain ⟨w, hreach, hwdone, hwlen, hwip, hwout⟩ := hv.ends hin hexp
  obtain ⟨hm, hb⟩ := (decoderRuns_iff u').1 hstart.runs
  obtain ⟨x, hx, hxend⟩ :=
    decodeCallEndsWithinItsBound u' hm hb hstart.dph hstart.ip hstart.ls hstart.outLen hstart.port
  obtain rfl := hreach.of_ended hstart.port (.inl hwdone) hx hxend
  rw [← hkept.inLen]
  exact ⟨u', x, hexec, hx, hwdone, hwlen, hwip, hwout⟩

end Sys2Proof.Machine
end

section
/-! The Hash Index (42_match_index.md): the geometry of each level as numbers, a bucket's slots after an insert, the
positions a lookup returns. -/

namespace Sys2Proof.Machine

/-! The geometry (R211). -/

theorem hashBits_eq (l : Level) : hashBits l = 14 := by cases l <;> rfl

theorem chainDepth_eq (l : Level) : chainDepth l = if l = .fast then 1 else 16 := by cases l <;> rfl

theorem prefixWidth_eq (l : Level) : prefixWidth l = if l = .fast then 4 else 3 := by cases l <;> rfl

theorem prefixFits_iff (s : State) (p : Nat) :
    prefixFits s p = true ↔ p + (if s.level = .fast then 4 else 3) ≤ s.inLen := by
  rw [← prefixWidth_eq, prefixFits, decide_eq_true_iff]

/-! The key and the bucket (R212, R213). -/

/-- The shifts of `key4` as products. -/
theorem key4_eq (b0 b1 b2 b3 : Nat) : key4 b0 b1 b2 b3 = (((b3 * 64 ^^^ b2) * 32 ^^^ b1) * 32) ^^^ b0 := by
  simp only [key4, Nat.shiftLeft_eq, Nat.reducePow]

/-- The shifts of `key3` as products. -/
theorem key3_eq (b0 b1 b2 : Nat) : key3 b0 b1 b2 = ((b2 * 32 ^^^ b1) * 32) ^^^ b0 := by
  simp only [key3, Nat.shiftLeft_eq, Nat.reducePow]

/-- The shift and the mask of the hash as a quotient and a remainder. -/
theorem bucketOf_eq (s : State) (p : Nat) : bucketOf s p = 0x21 * prefixKey s p / 32 % 16384 := by
  rw [bucketOf, hashBits_eq, Nat.and_two_pow_sub_one_eq_mod, Nat.shiftRight_eq_div_pow]

theorem prefixKey_fast {s : State} (h : s.level = .fast) (p : Nat) : prefixKey s p
    = key4 (s.inByte p).toNat (s.inByte (p + 1)).toNat (s.inByte (p + 2)).toNat (s.inByte (p + 3)).toNat := by
  rw [prefixKey, h]

theorem prefixKey_best {s : State} (h : s.level = .best) (p : Nat) : prefixKey s p
    = key3 (s.inByte p).toNat (s.inByte (p + 1)).toNat (s.inByte (p + 2)).toNat := by
  rw [prefixKey, h]

/-- Settles O10: the key of the level, its shifts and the mask read as products, quotient and remainder. -/
theorem bucketIsTheHashOfThePrefix : Obligations.BucketIsTheHashOfThePrefix := by
  intro s p
  refine ⟨fun h => ?fast, fun h => ?best, ?range⟩
  case fast => rw [bucketOf_eq, prefixKey_fast h, key4_eq]
  case best => rw [bucketOf_eq, prefixKey_best h, key3_eq]
  case range => exact hashBits_eq s.level ▸ bucketOf_lt s p

/-! A chain after an insert (R214). -/

theorem pushChain_getElem?_zero {depth : Nat} (h : 0 < depth) (p : Nat) (chain : List Nat) :
    (pushChain depth p chain)[0]? = some p := by
  rw [pushChain, List.getElem?_take_of_lt h, List.getElem?_cons_zero]

theorem pushChain_getElem?_deeper {depth k : Nat} (h1 : 1 ≤ k) (h : k < depth) (p : Nat) (chain : List Nat) :
    (pushChain depth p chain)[k]? = chain[k - 1]? := by
  rw [pushChain, List.getElem?_take_of_lt h, List.getElem?_cons, if_neg (by omega)]

theorem pushChain_getElem?_past {depth k : Nat} (h : depth ≤ k) (p : Nat) (chain : List Nat) :
    (pushChain depth p chain)[k]? = none :=
  List.getElem?_eq_none (Nat.le_trans (pushChain_length_le depth p chain) h)

/-! The slots of an arena in which a chain has been listed. -/

theorem State.slot_insertAt_self (s : State) (h k : Nat) (chain : List Nat) :
    ({ s with bucket := insertAt h chain s.bucket } : State).slot h k = chain[k]? := by
  simp only [State.slot, State.chain, lookup_insertAt_self, Option.getD_some]

theorem State.slot_insertAt_ne (s : State) {h h' : Nat} (hne : h' ≠ h) (k : Nat) (chain : List Nat) :
    ({ s with bucket := insertAt h chain s.bucket } : State).slot h' k = s.slot h' k := by
  simp only [State.slot, State.chain, lookup_insertAt_ne hne]

/-! The two commands when accepted. -/

theorem exec_idxInsert_fits {s : State} {a : Word} (hp : acceptsParse s = true) (hf : prefixFits s a.toNat = true) :
    exec (.idxInsert a) s = .next { s with
      bucket := insertAt (bucketOf s a.toNat)
        (pushChain (chainDepth s.level) a.toNat (s.chain (bucketOf s a.toNat))) s.bucket } :=
  (if_pos hp).trans (if_pos hf)

theorem exec_idxInsert_pastEnd {s : State} {a : Word} (hp : acceptsParse s = true)
    (hf : ¬ prefixFits s a.toNat = true) : exec (.idxInsert a) s = .next s :=
  (if_pos hp).trans (if_neg hf)

theorem exec_idxLookup_accepted {s : State} {a : Word} (hp : acceptsParse s = true) :
    exec (.idxLookup a) s = .next (s.answer (.positions (candidates s a.toNat))) :=
  if_pos hp

/-- Settles O11: the pushed chain slot by slot; past the end of the input the command does nothing. -/
theorem idxInsertPushesThePosition : Obligations.IdxInsertPushesThePosition := by
  intro s a hm hb
  have hp := (acceptsParse_iff s).2 ⟨hm, hb⟩
  rw [← chainDepth_eq, ← prefixFits_iff]
  refine ⟨fun hf => ⟨_, exec_idxInsert_fits hp hf, rfl, ?top, ?deeper, ?past, ?others⟩, fun hlen => ?noRoom⟩
  case top => rw [State.slot_insertAt_self, pushChain_getElem?_zero (chainDepth_pos _)]
  case deeper =>
    intro k h1 hk
    rw [State.slot_insertAt_self, pushChain_getElem?_deeper h1 hk, State.slot]
  case past =>
    intro k hk
    rw [State.slot_insertAt_self, pushChain_getElem?_past hk]
  case others => exact fun h k hne => s.slot_insertAt_ne hne k _
  case noRoom => exact exec_idxInsert_pastEnd hp fun hf => Nat.not_le.2 hlen ((prefixFits_iff s _).1 hf)

/-- The entries of a list at the indices below `n` are its first `n`. -/
theorem filterMap_range_getElem? {α : Type} (l : List α) (n : Nat) :
    (List.range n).filterMap (fun k => l[k]?) = l.take n := by
  induction n with
  | zero => rfl
  | succ n ih =>
    rw [List.range_succ, List.filterMap_append, ih, List.take_add_one, List.filterMap_cons, List.filterMap_nil]
    cases l[n]? <;> rfl

/-- The entries of a bucket down to a depth are its slots that are not EMPTY, in slot order. -/
theorem State.chain_take (s : State) (h n : Nat) :
    (s.chain h).take n = (List.range n).filterMap (fun k => s.slot h k) :=
  (filterMap_range_getElem? _ n).symm

/-- Settles O12: the answer is the list of candidates, which are read from the slots. -/
theorem idxLookupReturnsEarlierPositions : Obligations.IdxLookupReturnsEarlierPositions := by
  intro s a hm hb
  rw [exec_idxLookup_accepted ((acceptsParse_iff s).2 ⟨hm, hb⟩), State.answer, candidates, State.chain_take,
    chainDepth_eq]
  simp only [prefixFits_iff]

end Sys2Proof.Machine
end

section
/-! SUPPORT. An Encoder command without room in the Sink (43_sink.md R232, 60_exceptions.md R252): the flushes and what
follows them are one append, of which the Sink takes the first bytes. -/

namespace Sys2Proof.Machine

/-- Work that should append `bs` to `s` fills the Sink with the first of them and fails; beside the Sink it has moved at
most the pending and hold registers (log 20). -/
def OverrunsOn (bs : List Byte) (s : State) (x : Attempt) : Prop :=
  ∃ (h0 : Byte) (v : Bool) (c : Nat) (st : Bool), x = .failed .outputOverrun
    (({ s with hold0 := h0, holdV := v, litCnt := c, started := st } : State).pushAll
      (bs.take (s.cfg.outCap - s.outLen)))

section
variable {s : State} {bs : List Byte}

/-- Whatever was to follow the failed append is not done. -/
theorem OverrunsOn.andThen {x : Attempt} (h : OverrunsOn bs s x) (f : State → Attempt) :
    OverrunsOn bs s (x.andThen f) := by
  obtain ⟨h0, v, c, st, rfl⟩ := h
  exact ⟨h0, v, c, st, rfl⟩

/-- A legal match appends all but the last two bytes of its token's head, which are only to be held (R178). -/
theorem encodeMatch_overruns {d n : Nat} (hl : ¬ IllegalMatch d n s) (hv : s.holdV = s.started)
    (hc : s.outLen ≤ s.cfg.outCap)
    (hbs : bs = (flushBytes s ++ headBytes (chosenToken d n (litStateAt s))).take
      ((flushBytes s).length + (headBytes (chosenToken d n (litStateAt s))).length - 2))
    (hr : ¬ s.roomFor bs.length) : OverrunsOn bs s (encodeMatch d n s) := by
  obtain ⟨⟨h1, -, h2⟩, ⟨h3, -⟩, -, -⟩ := legalMatch_of_not_illegal hl
  obtain ⟨emitted, b0, b1, hemit, hhead⟩ := emitMatch_eq (litStateAt s) h1 h2 h3
  have hall : bs = flushBytes s ++ emitted := by
    rw [hbs, hhead, ← List.append_assoc]
    refine List.take_left' ?_
    simp only [List.length_append, List.length_cons, List.length_nil]; omega
  subst hall
  have happend : OverrunsOn _ s _ := flushed_append_failed emitted hv hc hr
  rw [encodeMatch, funext hemit]
  unfold emitHeld
  rw [← Attempt.andThen_assoc]
  exact (happend.andThen _).andThen _

/-- ENC_END on a covered input appends the END marker after the flushes (R179). -/
theorem encodeEnd_overruns (hv : s.holdV = s.started) (hc : s.outLen ≤ s.cfg.outCap)
    (hr : ¬ s.roomFor (flushBytes s ++ [0x11, 0x00, 0x00]).length) :
    OverrunsOn (flushBytes s ++ [0x11, 0x00, 0x00]) s (encodeEnd s) :=
  OverrunsOn.andThen (flushed_append_failed _ hv hc hr) _

/-- An Encoder error keeps OUT. -/
theorem State.encoderError_outBytes (e : ErrCode) (s : State) (a n : Nat) :
    (s.encoderError e).outBytes a n = s.outBytes a n :=
  State.outBytes_of_outMem (s := s.encoderError e) (t := s) rfl rfl a n

/-- The bytes that do not fit fill the Sink exactly. -/
theorem length_take_room (hc : s.outLen ≤ s.cfg.outCap) (hr : ¬ s.roomFor bs.length) :
    (bs.take (s.cfg.outCap - s.outLen)).length = s.cfg.outCap - s.outLen :=
  List.length_take_of_le (by simp only [State.roomFor] at hr; omega)

/-- The state an Encoder command without room ends in. -/
theorem OverrunsOn.closeCommand {x : Attempt} (h : OverrunsOn bs s x) (hc : s.outLen ≤ s.cfg.outCap)
    (hr : ¬ s.roomFor bs.length) :
    ∃ t : State, x.closeCommand = .next t ∧
      t = { s with
        outMem := t.outMem, outLen := s.cfg.outCap, hold0 := t.hold0, holdV := t.holdV
        litCnt := t.litCnt, started := t.started
        status := .error, errcode := .outputOverrun, errpos := s.pos } ∧
      t.outBytes s.outLen (s.cfg.outCap - s.outLen) = bs.take (s.cfg.outCap - s.outLen) ∧
      ∀ j, j < s.outLen → t.outByte j = s.outByte j := by
  obtain ⟨h0, v, c, st, rfl⟩ := h
  have hlen := length_take_room hc hr
  refine ⟨_, rfl, ?frame, ?appended, fun j hj => State.outByte_pushAll_lt _ hj⟩
  case frame =>
    simp only [State.encoderError, State.raise, State.pushAll, hlen, Nat.add_sub_cancel' hc]
  case appended =>
    have hread := State.outBytes_pushAll (bs.take (s.cfg.outCap - s.outLen))
      { s with hold0 := h0, holdV := v, litCnt := c, started := st }
    rw [hlen] at hread
    exact (State.encoderError_outBytes ..).trans hread

end

/-- Settles O19: either command is the flushes and one more append, and that append does not fit. -/
theorem encoderOverrunKeepsTheBytesSoFar : Obligations.EncoderOverrunKeepsTheBytesSoFar := by
  intro s i bs hm hb hv hc hi hover
  have hp := (acceptsParse_iff s).2 ⟨hm, hb⟩
  have hr : ¬ s.roomFor bs.length := Nat.not_le.2 hover
  obtain ⟨a, b, rfl, hl, hbs⟩ | ⟨rfl, hpos, rfl⟩ := hi
  · rw [exec_encMatch_legal hp hl]
    exact (encodeMatch_overruns hl hv hc hbs hr).closeCommand hc hr
  · rw [exec_encEnd_covered hp hpos]
    exact (encodeEnd_overruns hv hc hr).closeCommand hc hr

end Sys2Proof.Machine
end

section
/-! SUPPORT. The host's commands and the commands that are not accepted (60_exceptions.md R252, R262 to R266). -/

namespace Sys2Proof.Machine

/-- Settles O48: whatever an instruction does, `exec_leads` gives the next state it leads to. -/
theorem everyInstructionRuns : Obligations.EveryInstructionRuns := by
  intro i s
  obtain ⟨t, ht, -⟩ := exec_leads i s
  exact ⟨t, ht⟩

/-- With OUT lost every byte of it reads as the free value of the number drawn (93 U1). -/
theorem State.loseOutput_outByte (s : State) (a : Nat) : s.loseOutput.outByte a = Config.freeOutByte s.drawn a := rfl

/-- Settles O32: the error entry is `raise` with ERRPOS at TOKSTART, and the output is lost. -/
theorem decoderErrorKeepsTheOtherRegisters : Obligations.DecoderErrorKeepsTheOtherRegisters :=
  fun s e => ⟨rfl, (s.raise e s.tokstart).loseOutput_outByte, s.decoderError_outLen e⟩

/-! Commands that are not accepted. -/

theorem exec_notAccepted {i : Instr} {s : State} (h : ¬ Accepted s i) : exec i s = .next s.notAccepted := by
  cases i with
  | encStart | decStart | hostWriteIn | hostSetInLen => exact if_neg (mt (acceptsSetup_iff s).1 h)
  | encLit | encMatch | encEnd | idxInsert | idxLookup => exact if_neg (mt (acceptsParse_iff s).1 h)
  | firstLit | lit | litx | m1a | m1b | m2 | m3 | m3x | m4 | m4x | endMarker | hostReadOut | hostReadReg | reset =>
    exact absurd trivial h

theorem exec_illegalCommand {i : Instr} {s : State} (h : ¬ Accepted s i) (hb : s.status = .busy) :
    exec i s = .next (s.raise .illegalCommand 0) :=
  State.notAccepted_of_busy hb ▸ exec_notAccepted h

/-- No command of R101 has one of the other op codes. -/
theorem decodeCommand_reserved {op : Byte}
    (h : op.toNat = 0x00 ∨ op.toNat = 0x07 ∨ op.toNat = 0x0D ∨ op.toNat = 0x0E ∨ 0x10 ≤ op.toNat) (a b : Word) :
    ∃ r, decodeCommand op a b = .error r := by
  cases hd : decodeCommand op a b with
  | error r => exact ⟨r, rfl⟩
  | ok i =>
    obtain ⟨hi, hop⟩ := decodeCommand_ok hd
    cases i with
    | firstLit | lit | litx | m1a | m1b | m2 | m3 | m3x | m4 | m4x | endMarker => cases hi
    | encStart | encLit | encMatch | encEnd | idxInsert | idxLookup | decStart | hostWriteIn | hostSetInLen
    | hostReadOut | hostReadReg | reset =>
      cases hop
      exact absurd h (by decide)

/-! Commands that are accepted. -/

/-- A failed check of the attempt is the Sink's: OutputOverrun. -/
def Attempt.FailsOnlyByOverrun : Attempt → Prop
  | .done _ => True
  | .failed e _ => e = .outputOverrun

theorem Attempt.FailsOnlyByOverrun.andThen {x : Attempt} {f : State → Attempt} (hx : x.FailsOnlyByOverrun)
    (hf : ∀ t, (f t).FailsOnlyByOverrun) : (x.andThen f).FailsOnlyByOverrun := by
  cases x with
  | done t => exact hf t
  | failed e t => exact hx

theorem sinkAppend_failsOnlyByOverrun (v : Byte) (s : State) : (sinkAppend v s).FailsOnlyByOverrun := by
  unfold sinkAppend
  split
  · exact rfl
  · exact trivial

theorem sinkAppendAll_failsOnlyByOverrun (bs : List Byte) (s : State) : (sinkAppendAll bs s).FailsOnlyByOverrun := by
  induction bs generalizing s with
  | nil => exact trivial
  | cons v vs ih => exact (sinkAppend_failsOnlyByOverrun v s).andThen ih

theorem flushHold_failsOnlyByOverrun (s : State) : (flushHold s).FailsOnlyByOverrun := by
  unfold flushHold
  split
  · exact (sinkAppendAll_failsOnlyByOverrun _ s).andThen fun _ => trivial
  · exact trivial

theorem flushLiterals_failsOnlyByOverrun (s : State) : (flushLiterals s).FailsOnlyByOverrun := by
  have run (bs : List Byte) (t : State) : ((flushHold t).andThen (sinkAppendAll bs)).FailsOnlyByOverrun :=
    (flushHold_failsOnlyByOverrun t).andThen (sinkAppendAll_failsOnlyByOverrun bs)
  unfold flushLiterals
  split
  · exact trivial
  split
  · exact (sinkAppendAll_failsOnlyByOverrun _ s).andThen fun _ => trivial
  split
  · exact (run _ _).andThen fun _ => trivial
  · exact (run _ _).andThen fun _ => trivial

theorem flushAppend_failsOnlyByOverrun (bs : List Byte) (s : State) : (flushAppend bs s).FailsOnlyByOverrun :=
  ((flushLiterals_failsOnlyByOverrun s).andThen flushHold_failsOnlyByOverrun).andThen
    (sinkAppendAll_failsOnlyByOverrun bs)

theorem encodeMatch_failsOnlyByOverrun (d n : Nat) (s : State) : (encodeMatch d n s).FailsOnlyByOverrun := by
  obtain ⟨bs, b0, b1, -, h⟩ := encodeMatch_eq d n s
  rw [h]
  exact (flushAppend_failsOnlyByOverrun bs s).andThen fun _ => trivial

theorem encodeEnd_failsOnlyByOverrun (s : State) : (encodeEnd s).FailsOnlyByOverrun :=
  (flushAppend_failsOnlyByOverrun [0x11, 0x00, 0x00] s).andThen fun _ => trivial

/-- An IllegalCommand in ERRCODE of `t` stood there in `s`. -/
def NoNewIllegalCommand (s t : State) : Prop := t.errcode = .illegalCommand → s.errcode = .illegalCommand

theorem NoNewIllegalCommand.of_kept {s t : State} (h : t.errcode = s.errcode) : NoNewIllegalCommand s t :=
  fun ht => h.symm.trans ht

theorem NoNewIllegalCommand.of_ne {s t : State} (h : t.errcode ≠ .illegalCommand) : NoNewIllegalCommand s t :=
  fun ht => absurd ht h

theorem Worked.errcode_eq {s t : State} (h : Worked s t) : t.errcode = s.errcode := by rw [h.frame]

/-- The work of an Encoder command leaves ERRCODE, and its close writes OutputOverrun at most. -/
theorem closeCommand_noNewIllegalCommand {s : State} {x : Attempt} (hw : Worked s x.state)
    (hx : x.FailsOnlyByOverrun) : Leads (NoNewIllegalCommand s) x.closeCommand := by
  cases x with
  | done t => exact .next (.of_kept hw.errcode_eq)
  | failed e t =>
    obtain rfl : e = .outputOverrun := hx
    exact .next (.of_ne nofun)

/-- Where the test for acceptance passes, the outcome is the accepted command's. -/
theorem Leads.accepted {P : State → Prop} {c : Prop} [Decidable c] {o o' : Outcome} (hc : c) (h : Leads P o) :
    Leads P (if c then o else o') :=
  .ite (fun _ => h) fun hn => absurd hc hn

/-- An accepted command leaves ERRCODE or writes no error, IllegalParse or OutputOverrun there. -/
theorem exec_accepted_noNewIllegalCommand {i : Instr} {s : State} (hi : i.isToken = false) (h : Accepted s i) :
    Leads (NoNewIllegalCommand s) (exec i s) := by
  have setup : s.status ≠ .busy → acceptsSetup s = true := (acceptsSetup_iff s).2
  have parse : s.mode = .encode ∧ s.status = .busy → acceptsParse s = true := (acceptsParse_iff s).2
  cases i with
  | firstLit | lit | litx | m1a | m1b | m2 | m3 | m3x | m4 | m4x | endMarker => cases hi
  | encStart | decStart => exact .accepted (setup h) (.next (.of_ne nofun))
  | hostWriteIn | hostSetInLen =>
    exact .accepted (setup h) (.ite (fun _ => .next (.of_kept rfl)) fun _ => .next (.of_kept rfl))
  | encLit => exact .accepted (parse h) (.ite (fun _ => .next (.of_ne nofun)) fun _ => .next (.of_kept rfl))
  | encMatch a b =>
    exact .accepted (parse h) (.ite
      (fun _ => closeCommand_noNewIllegalCommand (.encodeMatch _ _ s) (encodeMatch_failsOnlyByOverrun _ _ s))
      fun _ => .next (.of_ne nofun))
  | encEnd =>
    exact .accepted (parse h) (.ite (fun _ => .next (.of_ne nofun))
      fun _ => closeCommand_noNewIllegalCommand (.encodeEnd s) (encodeEnd_failsOnlyByOverrun s))
  | idxInsert =>
    exact .accepted (parse h) (.ite (fun _ => .next (.of_kept rfl)) fun _ => .next (.of_kept rfl))
  | idxLookup => exact .accepted (parse h) (.next (.of_kept rfl))
  | hostReadOut => exact .ite (fun _ => .next (.of_kept rfl)) fun _ => .next (.of_kept rfl)
  | hostReadReg => exact .next (.of_kept rfl)
  | reset => exact .next (.of_ne nofun)

/-- Settles O4: refused commands and reserved op codes go through `notAccepted`, accepted commands do not. -/
theorem unacceptedCommandsAreIllegalOrIgnored : Obligations.UnacceptedCommandsAreIllegalOrIgnored := by
  refine ⟨fun _ _ => exec_notAccepted, fun s op a b rest hp hop => ?reserved,
    fun _ _ => exec_accepted_noNewIllegalCommand⟩
  case reserved =>
    obtain ⟨r, hd⟩ := decodeCommand_reserved hop a b
    rw [step, fetch_reserved hp hd]
    rfl

/-! Loading IN. -/

section
variable {s : State} {a b : Word}

theorem exec_hostWriteIn_stores (hs : s.status ≠ .busy) (ha : a.toNat < s.cfg.inCap) :
    exec (.hostWriteIn a b) s = .next { s with
      inMem := insertAt a.toNat (byteOperand b s.drawn) s.inMem, drawn := s.drawn + byteOperandDraws b } :=
  (if_pos ((acceptsSetup_iff s).2 hs)).trans (if_pos ha)

theorem exec_hostWriteIn_pastEnd (hs : s.status ≠ .busy) (ha : s.cfg.inCap ≤ a.toNat) :
    exec (.hostWriteIn a b) s = .next s :=
  (if_pos ((acceptsSetup_iff s).2 hs)).trans (if_neg (Nat.not_lt.2 ha))

theorem byteOperand_toNat (hb : b.toNat < 256) (draw : Nat) : (byteOperand b draw).toNat = b.toNat := by
  rw [byteOperand, if_pos hb, byteOf, BitVec.toNat_ofNat, Nat.mod_eq_of_lt hb]

theorem byteOperandDraws_of_byte (hb : b.toNat < 256) : byteOperandDraws b = 0 := if_pos hb

/-- IN after one byte has been written. -/
theorem State.inByte_insertAt (s : State) (k : Nat) (v : Byte) (d j : Nat) :
    ({ s with inMem := insertAt k v s.inMem, drawn := d } : State).inByte j = if j = k then v else s.inByte j := by
  simp only [State.inByte, lookup_insertAt]
  split <;> rfl

theorem exec_hostSetInLen_fits (hs : s.status ≠ .busy) (ha : a.toNat ≤ s.cfg.inCap) :
    exec (.hostSetInLen a) s = .next { s with inLen := a.toNat } :=
  (if_pos ((acceptsSetup_iff s).2 hs)).trans (if_pos ha)

theorem exec_hostSetInLen_tooLong (hs : s.status ≠ .busy) (ha : s.cfg.inCap < a.toNat) :
    exec (.hostSetInLen a) s = .next s :=
  (if_pos ((acceptsSetup_iff s).2 hs)).trans (if_neg (Nat.not_le.2 ha))

end

/-- Settles O5: the operand is the byte stored, and it draws no free value. -/
theorem hostWriteInStoresOneByte : Obligations.HostWriteInStoresOneByte := by
  intro s a b
  refine ⟨fun hs ha hb => ⟨_, exec_hostWriteIn_stores hs ha, ?frame, fun j => ?bytes⟩,
    exec_hostWriteIn_pastEnd, fun hb => exec_illegalCommand (not_not_intro hb) hb⟩
  case frame => rw [byteOperandDraws_of_byte hb, Nat.add_zero]
  case bytes => rw [State.inByte_insertAt, apply_ite BitVec.toNat, byteOperand_toNat hb]

/-- Settles O7: the length fits IN, is too long for it, or comes during a call. -/
theorem hostSetInLenWritesTheLength : Obligations.HostSetInLenWritesTheLength :=
  fun _ _ => ⟨exec_hostSetInLen_fits, exec_hostSetInLen_tooLong, fun hb => exec_illegalCommand (not_not_intro hb) hb⟩

/-! Reading results. -/

/-- Settles O8: the byte of OUT is returned on exactly the two conditions together. -/
theorem hostReadOutReturnsAByte : Obligations.HostReadOutReturnsAByte := by
  intro s a
  refine ⟨fun ha hs => if_pos ⟨ha, hs⟩, fun h => ⟨Config.freeReadByte s.drawn, if_neg ?_⟩⟩
  rintro ⟨ha, hs⟩
  exact h.elim (Nat.not_le.2 ha) hs

theorem registerValue_unknown (s : State) {id : Nat} (h : 18 ≤ id) : registerValue s id = 0 := by
  obtain ⟨k, rfl⟩ := Nat.exists_eq_add_of_le' h
  rfl

theorem ite_one_zero_eq_toNat (b : Bool) : (if b = true then 1 else 0) = b.toNat := by cases b <;> rfl

/-- Settles O9: the table of R102 is `registerValue` at the ids 0 to 17, and `registerValue` is 0 at every other. -/
theorem hostReadRegReturnsTheRegister : Obligations.HostReadRegReturnsTheRegister := by
  intro s
  refine ⟨fun id v h => ?known, fun a ha => ?unknown⟩
  case known =>
    simp only [ite_one_zero_eq_toNat] at h
    have htable : (id, v) ∈ (List.range 18).map fun k => (k, registerValue s k) := h
    obtain ⟨k, hk, heq⟩ := List.mem_map.1 htable
    obtain ⟨rfl, rfl⟩ := Prod.mk.inj heq
    have hid : (BitVec.ofNat 32 k).toNat = k := Nat.mod_eq_of_lt (by have := List.mem_range.1 hk; omega)
    rw [exec_hostReadReg, execHostReadReg, hid]
    rfl
  case unknown =>
    rw [exec_hostReadReg, execHostReadReg, registerValue_unknown s ha]
    rfl

end Sys2Proof.Machine
end

section
/-! SUPPORT. What a reset and ENC_START leave of the state before them, and the invariant at reset
(70_reset_and_hazards.md R280, R282). -/

namespace Sys2Proof.Machine

/-! Storage in which nothing is listed. -/

theorem State.slot_of_bucket_nil {s : State} (hb : s.bucket = []) (h k : Nat) : s.slot h k = none := by
  simp [State.slot, State.chain, hb, lookup]

theorem State.inByte_of_inMem_nil {s : State} (hm : s.inMem = []) (a : Nat) :
    s.inByte a = Config.freeInByte s.inEpoch a := by
  simp [State.inByte, hm, lookup]

theorem State.outByte_of_outMem_nil {s : State} (hm : s.outMem = []) (a : Nat) :
    s.outByte a = Config.freeOutByte s.outEpoch a := by
  simp [State.outByte, hm, lookup]

/-- Settles O1: the registers are those of `State.powerOn`, and the storage lists nothing under the number just drawn. -/
theorem resetSetsEveryRegister : Obligations.ResetSetsEveryRegister := by
  intro s
  refine ⟨_, exec_reset s, ?_⟩
  exact ⟨rfl, rfl, rfl, rfl, rfl, rfl, rfl, rfl, rfl, rfl, rfl, rfl, rfl, rfl, rfl, rfl, rfl, rfl,
    State.slot_of_bucket_nil rfl, State.inByte_of_inMem_nil rfl, State.outByte_of_outMem_nil rfl⟩

/-- Settles O3: of the state before it, the state ENC_START leaves keeps only the seven fields on which the two states
agree, and OUT. -/
theorem encodeCallForgetsEarlierCalls : Obligations.EncodeCallForgetsEarlierCalls := by
  intro s t a hs ht hcfg hinMem hinEpoch hinLen hport hanswers hdrawn
  refine ⟨_, _, ((startCommandsBeginACall s a).1 hs).1, ((startCommandsBeginACall t a).1 ht).1, ?_⟩
  rw [hcfg, hinMem, hinEpoch, hinLen, hport, hanswers, hdrawn]

theorem defaultParams_valid : Config.defaultParams.valid := by decide

/-- Settles O40: the state after reset is the one after power-on at the largest capacities. -/
theorem invariantHoldsAfterReset : Obligations.InvariantHoldsAfterReset :=
  ⟨Inv.powerOn defaultParams_valid, fun _ => Inv.powerOn⟩

end Sys2Proof.Machine
end

section
/-! SUPPORT. The encoding against the decoder: what each reader reads is the head of the token it answers, with the
length extension and the fields of the command byte and of the distance word put back (30_encoding.md R82 to R95). -/

namespace Sys2Proof.Machine

/-! Fields put back into bytes. -/

theorem byteOf_of_toNat {b : Byte} {v : Nat} (h : b.toNat = v) : byteOf v = b := by
  rw [← h]; exact BitVec.ofNat_toNat 8 b

/-- The upper six bits and the S field make up a byte (R95). -/
theorem byteOf_sField {b : Byte} {x : Nat} (h : b.toNat / 4 = x) : byteOf (x * 4 + (sField b).val) = b :=
  byteOf_of_toNat (by rw [← h]; exact (Nat.div_add_mod' b.toNat 4).symm)

theorem le16_div_lt (d0 d1 : Byte) : le16 d0 d1 / 4 < 16384 := by rw [le16]; omega

/-- A distance word is the encoding of its 14-bit field and its S field (R94, R95). -/
theorem distBytes_le16 (d0 d1 : Byte) : distBytes (le16 d0 d1 / 4) (sField d0) = [d0, d1] := by
  have h0 : d0.toNat / 4 = le16 d0 d1 / 4 % 64 := by rw [le16]; omega
  have h1 : d1.toNat = le16 d0 d1 / 4 / 64 := by rw [le16]; omega
  rw [distBytes, byteOf_sField h0, byteOf_of_toNat h1]

/-! The length extension (R93). -/

theorem one_le_toNat {b : Byte} (hb : b ≠ 0) : 1 ≤ b.toNat :=
  Nat.one_le_iff_ne_zero.2 fun h => hb (BitVec.eq_of_toNat_eq h)

/-- WriteExt puts one zero byte in front for each 255 more. -/
theorem extBytes_add_255 {k : Nat} (hk : 1 ≤ k) : extBytes (k + 255) = 0 :: extBytes k := by
  have hz : (k + 255 - 1) / 255 = (k - 1) / 255 + 1 := by omega
  have hr : k + 255 - 255 * ((k - 1) / 255 + 1) = k - 255 * ((k - 1) / 255) := by omega
  simp only [extBytes, Config.extStep, hz, hr, List.replicate_succ, List.cons_append]

theorem extBytes_toNat {b : Byte} (hb : b ≠ 0) : extBytes b.toNat = [b] := by
  have hz : (b.toNat - 1) / 255 = 0 := by have := one_le_toNat hb; omega
  simp only [extBytes, Config.extStep, hz, List.replicate_zero, List.nil_append, Nat.mul_zero, Nat.sub_zero,
    byteOf_of_toNat rfl]

/-- What ReadExt reads is what WriteExt writes for the amount it adds. -/
theorem readExt_ok {base e : Nat} {bs rest : List Byte} (h : readExt base bs = some (e, rest)) :
    ∃ k, 1 ≤ k ∧ e = base + k ∧ bs = extBytes k ++ rest := by
  induction bs generalizing base with
  | nil => cases h
  | cons b bs ih =>
    obtain rfl | hb := eq_or_ne b 0
    · obtain ⟨k, hk, rfl, rfl⟩ := ih (base := base + 255) h
      exact ⟨k + 255, by omega, by omega, by rw [extBytes_add_255 hk]; rfl⟩
    · cases (if_neg hb).symm.trans h
      exact ⟨b.toNat, one_le_toNat hb, rfl, by rw [extBytes_toNat hb]; rfl⟩

/-- A length stands in its field, or it is the extension of the bytes read (R90, R91). -/
theorem readLen_ok {v base k : Nat} {bs rest : List Byte} (h : readLen v base bs = some (k, rest)) :
    (v ≠ 0 ∧ k = v ∧ bs = rest) ∨ (v = 0 ∧ ∃ j, 1 ≤ j ∧ k = base + j ∧ bs = extBytes j ++ rest) := by
  obtain rfl | hv := eq_or_ne v 0
  · exact .inr ⟨rfl, readExt_ok h⟩
  · cases (readLen_inline hv base bs).symm.trans h
    exact .inl ⟨hv, rfl, rfl⟩

/-! The heads of tokens at operands as the decoder assembles them: an extended length adds `j` to its base, and `w` is
the field of the distance word (R85, R90 to R92). -/

section
variable {h w : Nat} (f j : Nat) (sf : SField)

theorem headBytes_litx : headBytes (.litx (3 + (15 + j))) = 0x00 :: extBytes j := by
  have hlen : 3 + (15 + j) - 18 = j := by omega
  simp only [headBytes, encode, hlen]

theorem headBytes_m3_inline : headBytes (.m3 (w + 1) (2 + f) sf) = byteOf (0x20 + f) :: distBytes w sf := by
  simp only [headBytes, encode, Nat.add_sub_cancel_left, Nat.add_sub_cancel]

theorem headBytes_m3x : headBytes (.m3x (w + 1) (2 + (31 + j)) sf) = 0x20 :: (extBytes j ++ distBytes w sf) := by
  have hlen : 2 + (31 + j) - 33 = j := by omega
  simp only [headBytes, encode, hlen, Nat.add_sub_cancel]

/-- `H` and the distance word are the quotient and the remainder of the distance by 16384 (R91). -/
theorem m4_fields (hw : w < 16384) :
    (16384 + 16384 * h + w - 16384) / 16384 = h ∧ (16384 + 16384 * h + w - 16384) % 16384 = w := by omega

theorem headBytes_m4_inline (hw : w < 16384) : headBytes (.m4 (16384 + 16384 * h + w) (2 + f) sf)
    = byteOf (0x10 + h * 8 + f) :: distBytes w sf := by
  obtain ⟨hH, hW⟩ := m4_fields (h := h) hw
  simp only [headBytes, encode, hH, hW, Nat.add_sub_cancel_left]

theorem headBytes_m4x (hw : w < 16384) : headBytes (.m4x (16384 + 16384 * h + w) (2 + (7 + j)) sf)
    = byteOf (0x10 + h * 8) :: (extBytes j ++ distBytes w sf) := by
  obtain ⟨hH, hW⟩ := m4_fields (h := h) hw
  have hlen : 2 + (7 + j) - 9 = j := by omega
  simp only [headBytes, encode, hH, hW, hlen]

theorem headBytes_endMarker_inline {f : Nat} (hf : f ≤ 7) :
    headBytes (.endMarker (2 + f) sf) = byteOf (0x10 + f) :: distBytes 0 sf := by
  have hshort : 2 + f ≤ 9 := by omega
  simp only [headBytes, encode, if_pos hshort, Nat.add_sub_cancel_left, List.singleton_append]

theorem headBytes_endMarker_extended {j : Nat} (hj : 1 ≤ j) :
    headBytes (.endMarker (2 + (7 + j)) sf) = 0x10 :: (extBytes j ++ distBytes 0 sf) := by
  have hlong : ¬ 2 + (7 + j) ≤ 9 := by omega
  have hlen : 2 + (7 + j) - 9 = j := by omega
  simp only [headBytes, encode, if_neg hlong, hlen, List.cons_append]

end

/-! Each reader read exactly the head of the token it answers, and only where that token may stand. -/

section
variable {t : Byte} {ls : LitState} {bs rest : List Byte} {i : Instr}

theorem decodeRun_ok (h : decodeRun t bs = .ok (i, rest)) : i.fits .cmd 0 = true ∧ t :: bs = headBytes i ++ rest := by
  obtain rfl | h0 := eq_or_ne t 0
  · simp only [decodeRun, if_true] at h
    split at h <;> cases h
    next e hr =>
    obtain ⟨k, -, rfl, rfl⟩ := readExt_ok hr
    rw [headBytes_litx]
    exact ⟨rfl, rfl⟩
  · cases (if_neg h0).symm.trans h
    exact ⟨rfl, congrArg (· :: bs) (byteOf_of_toNat rfl).symm⟩

/-- The two bytes of M1A and M1B, which share a 10-bit distance field (R86, R87). -/
theorem m1_bytes (ht : t.toNat < 0x10) {b1 : Byte} {m : Nat} (hm : m = bitField t 3 2 + 4 * b1.toNat) :
    [t, b1] = [byteOf (m % 4 * 4 + (sField t).val), byteOf (m / 4)] := by
  have h0 : t.toNat / 4 = m % 4 := by rw [hm, bitField]; omega
  have h1 : b1.toNat = m / 4 := by rw [hm, bitField]; omega
  rw [byteOf_sField h0, byteOf_of_toNat h1]

theorem decodeM1_ok (ht : t.toNat < 0x10) (hls : ls ≠ 0) (h : decodeM1 ls t bs = .ok (i, rest)) :
    i.fits .cmd ls = true ∧ t :: bs = headBytes i ++ rest := by
  cases bs with
  | nil => cases h
  | cons b1 bs =>
    obtain rfl | h4 := eq_or_ne ls 4
    · cases h
      exact ⟨rfl, congrArg (· ++ rest) (m1_bytes ht (by omega))⟩
    · cases (if_neg h4).symm.trans h
      exact ⟨decide_eq_true ⟨rfl, hls, h4⟩, congrArg (· ++ rest) (m1_bytes ht (by omega))⟩

theorem decodeM2_ok (h : decodeM2 t bs = .ok (i, rest)) : i.fits .cmd ls = true ∧ t :: bs = headBytes i ++ rest := by
  cases bs with
  | nil => cases h
  | cons b1 bs =>
    cases h
    have h0 : t.toNat / 4 = (bitField t 7 5 + 1 - 1) * 8 + (1 + bitField t 4 2 + 8 * b1.toNat - 1) % 8 := by
      simp only [bitField]; omega
    have h1 : b1.toNat = (1 + bitField t 4 2 + 8 * b1.toNat - 1) / 8 := by simp only [bitField]; omega
    rw [headBytes_m2, byteOf_sField h0, byteOf_of_toNat h1]
    exact ⟨rfl, rfl⟩

theorem decodeM3_ok (hlo : 0x20 ≤ t.toNat) (hhi : t.toNat < 0x40) (h : decodeM3 t bs = .ok (i, rest)) :
    i.fits .cmd ls = true ∧ t :: bs = headBytes i ++ rest := by
  have ht : t.toNat = 0x20 + bitField t 4 0 := by rw [bitField]; omega
  unfold decodeM3 at h
  split at h
  case h_2 => cases h
  case h_1 k d0 d1 r hread =>
    dsimp only at h
    obtain ⟨hf, rfl, rfl⟩ | ⟨hf, j, -, rfl, rfl⟩ := readLen_ok hread
    · rw [if_neg hf] at h; cases h
      rw [headBytes_m3_inline, byteOf_of_toNat ht, distBytes_le16]
      exact ⟨rfl, rfl⟩
    · rw [if_pos hf] at h; cases h
      obtain rfl : t = 0x20 := BitVec.eq_of_toNat_eq (by rw [ht, hf]; rfl)
      rw [headBytes_m3x, distBytes_le16, List.cons_append, List.append_assoc]
      exact ⟨rfl, rfl⟩

theorem decodeM4_ok (hlo : 0x10 ≤ t.toNat) (hhi : t.toNat < 0x20) (h : decodeM4 t bs = .ok (i, rest)) :
    i.fits .cmd ls = true ∧ t :: bs = headBytes i ++ rest := by
  have ht : t.toNat = 0x10 + bitField t 3 3 * 8 + bitField t 2 0 := by simp only [bitField]; omega
  have hf7 : bitField t 2 0 ≤ 7 := by rw [bitField]; omega
  unfold decodeM4 at h
  split at h
  case h_2 => cases h
  case h_1 k d0 d1 r hread =>
    dsimp only at h
    have hw := distBytes_le16 d0 d1
    obtain ⟨hf, rfl, rfl⟩ | ⟨hf, j, hj, rfl, rfl⟩ := readLen_ok hread
    · rw [if_neg hf] at h
      split at h
      next hend =>
        cases h
        rw [hend.1, Nat.zero_mul, Nat.add_zero] at ht
        rw [hend.2] at hw
        rw [headBytes_endMarker_inline _ hf7, byteOf_of_toNat ht, hw]
        exact ⟨rfl, rfl⟩
      next =>
        cases h
        rw [headBytes_m4_inline _ _ (le16_div_lt d0 d1), byteOf_of_toNat ht, hw]
        exact ⟨rfl, rfl⟩
    · rw [if_pos hf] at h
      rw [hf, Nat.add_zero] at ht
      split at h
      next hend =>
        cases h
        obtain rfl : t = 0x10 := BitVec.eq_of_toNat_eq (by rw [ht, hend.1]; rfl)
        rw [hend.2] at hw
        rw [headBytes_endMarker_extended _ hj, hw, List.cons_append, List.append_assoc]
        exact ⟨rfl, rfl⟩
      next =>
        cases h
        rw [headBytes_m4x _ _ (le16_div_lt d0 d1), byteOf_of_toNat ht, hw, List.cons_append, List.append_assoc]
        exact ⟨rfl, rfl⟩

theorem decodeToken_first_ok (h : decodeToken .first ls (t :: bs) = .ok (i, rest)) :
    i.fits .first ls = true ∧ t :: bs = headBytes i ++ rest := by
  simp only [decodeToken] at h
  split at h
  next ht =>
    cases h
    exact ⟨rfl, congrArg (· :: bs) (byteOf_of_toNat (Nat.add_sub_cancel' (by omega)).symm).symm⟩
  next => cases h

/-- At CMD the command byte and the literal state choose the reader (R83). -/
theorem decodeToken_cmd_ok (h : decodeToken .cmd ls (t :: bs) = .ok (i, rest)) :
    i.fits .cmd ls = true ∧ t :: bs = headBytes i ++ rest := by
  obtain h1 | ⟨h1, h2⟩ | ⟨h2, h4⟩ | h4 : t.toNat < 0x10 ∨ (0x10 ≤ t.toNat ∧ t.toNat < 0x20) ∨
      (0x20 ≤ t.toNat ∧ t.toNat < 0x40) ∨ 0x40 ≤ t.toNat := by omega
  · obtain rfl | hls := eq_or_ne ls 0
    · exact decodeRun_ok ((decodeToken_run h1).symm.trans h)
    · exact decodeM1_ok h1 hls ((decodeToken_m1 h1 hls).symm.trans h)
  · exact decodeM4_ok h1 h2 ((decodeToken_m4 h1 h2).symm.trans h)
  · exact decodeM3_ok h2 h4 ((decodeToken_m3 h2 h4).symm.trans h)
  · exact decodeM2_ok ((decodeToken_m2 h4).symm.trans h)

end

/-! The statements. -/

/-- Settles O25: a token's head is read back whatever follows, and a command's port word holds every operand it uses. -/
theorem decodeUndoesEncode : Obligations.DecodeUndoesEncode := by
  refine ⟨fun i ph ls rest ht hw hfit => decodeToken_headBytes rest ht hw hfit, fun i hi => ?_⟩
  cases i with
  | encStart | encLit | encMatch | encEnd | idxInsert | idxLookup | decStart | hostWriteIn | hostSetInLen | hostReadOut
  | hostReadReg | reset => exact ⟨_, _, _, rfl, rfl⟩
  | _ => cases hi

/-- Settles O26: reader by reader, the fields read and the bytes of the extension make up the head again. -/
theorem encodeUndoesDecode : Obligations.EncodeUndoesDecode := by
  intro ph ls bs i rest h
  obtain ⟨htoken, hwf, t, pre, rfl⟩ := decodeToken_ok h
  refine ⟨htoken, hwf, ?_⟩
  cases ph with
  | first => exact decodeToken_first_ok h
  | cmd => exact decodeToken_cmd_ok h

/-- Settles O6: the byte stored is the free value `byteOperand` names, and it is the one value drawn. -/
theorem hostWriteInOfAWideOperandStoresSomeByte : Obligations.HostWriteInOfAWideOperandStoresSomeByte := by
  intro s a b hs ha hb
  have hdraws : byteOperandDraws b = 1 := if_neg (Nat.not_lt.2 hb)
  refine ⟨_, byteOperand b s.drawn, exec_hostWriteIn_stores hs ha, ?frame, State.inByte_insertAt s _ _ _⟩
  case frame => rw [hdraws]

/-- Settles O27: the words are closed, so the decoder's answers are computed. -/
theorem spelledOutWordsDecode : Obligations.SpelledOutWordsDecode := by
  unfold Obligations.SpelledOutWordsDecode
  decide

end Sys2Proof.Machine
end
